-- ==== Sys2Proof/Word.lean ====
section
/-! DEFINITION. The data widths of the engine (00_scope.md R6, R9) and the token triple. -/

namespace Sys2Proof

/-- `u8`: one element of IBUF or OBUF (20_memory.md R50). -/
abbrev Byte := BitVec 8

/-- A Symbol, "an unsigned 16-bit code unit", and equally a container word: SYMW = WORDW = 16
(00_scope.md R6, R8). -/
abbrev Symbol := BitVec 16

/-- An element of TOKQ: the triple (offset, length, literal). `off` and `len` are natural numbers, as
20_memory.md R53 gives them before the range check of ENCODE (decision D7); in a DECODE they are words. -/
structure Token where
  off : Nat
  len : Nat
  lit : Symbol
  deriving DecidableEq, Repr, Inhabited

/-- The working registers whose value the spec leaves unspecified at some point (10_state.md R41):
the names that tell one free value from another. -/
inductive WorkReg
  | nsym | pos | lo | c | hit | off | ml | lit | wcnt
  | nwords | m | tpc | tOff | tLen | tLit | n | start | i
  deriving DecidableEq, Repr

end Sys2Proof
end

