-- ==== Sys2Proof/Config.lean ====
section
/-! DEFINITION. What is fixed for this hardware (00_scope.md R6, R7) and the values the spec leaves open. -/

namespace Sys2Proof.Config

/-- Window bound W, "global constant", hard-wired to 4000 (00_scope.md R6, decision D8). -/
def W : Nat := 4000

/-- Words in a token, "exactly 3 words per Token" (00_scope.md R6). -/
def TRIPLE : Nat := 3

/-- The degrouper's "soft worker cap" (00_scope.md R6). -/
def LANECAP : Nat := 100

/-- Capacity of the reconstructor's circular history (00_scope.md R7, decision D17). -/
def HCAP : Nat := 65536

/-- The largest value of a serialized word, 2^WORDW - 1 (42_token_codec.md R141). -/
def wordMax : Nat := 65535

/-- CAP_BYTES, the OPEN parameter of decision D6, at its default: unbounded (00_scope.md R7).
DESIGN CHOICE, unsafe for a finite device, notes/assumptions/12.md. -/
def capBytes : Option Nat := none

/-! Free values: constants with no body, so that nothing can be proved of what they are. The first argument
is a counter of the state, so that values met at different moments are independent of one another.
notes/assumptions/4.md to 8.md. -/

/-- Value of a working register the spec calls unspecified (10_state.md R41). -/
opaque freeNat : Nat → WorkReg → Nat

/-- Value of a 16-bit working register the spec calls unspecified (10_state.md R41). -/
opaque freeWord : Nat → WorkReg → BitVec 16

/-- Value of the one-bit working register `hit` where the spec calls it unspecified (10_state.md R41). -/
opaque freeBool : Nat → WorkReg → Bool

/-- Contents of SYM after a reset event (70_reset_and_hazards.md R263). -/
opaque freeSym : Nat → List (BitVec 16)

/-- Contents of OUTS after a reset event (70_reset_and_hazards.md R263). -/
opaque freeOuts : Nat → List (BitVec 16)

/-- Contents of TOKQ after a reset event (70_reset_and_hazards.md R263). -/
opaque freeTokq : Nat → List Token

/-- A byte of IBUF that the host has not written since the last reset, by number of resets and index
(70_reset_and_hazards.md R263). -/
opaque freeIbuf : Nat → Nat → BitVec 8

/-- What the host reads from OBUF where its contents are unspecified (60_exceptions.md R231, 93 U6, U8). -/
opaque freeObuf : Nat → Nat → BitVec 8

/-- What CMD reads as: "`CMD` reads as unspecified" (10_state.md R31). -/
opaque freeCmd : Nat → BitVec 2

end Sys2Proof.Config
end

