-- ==== Sys2Proof/Syntax.lean ====
section
/-! DEFINITION. The instructions: one constructor per row of spec/opcode_table.json. -/

namespace Sys2Proof

/-- Everything the engine can be asked to do: the four classes of token (30_encoding.md R86), the host's
commands (R90) and the internal stages of the two operations (45_operations.md R201, R203). -/
inductive Instr
  /-- LIT x: the token (0, 0, x). -/
  | lit (x : Symbol)
  /-- COPY d, l, x: the token (d, l, x) with d and l at least 1. -/
  | copy (d l x : Symbol)
  /-- RSV0, written TOK 0, l, x: reserved, l at least 1. -/
  | rsv0 (l x : Symbol)
  /-- RSVL0, written TOK d, 0, x: reserved, d at least 1. -/
  | rsvl0 (d x : Symbol)
  /-- ENCODE: the value 1 written to CMD. -/
  | encode
  /-- DECODE: the value 2 written to CMD. -/
  | decode
  /-- CMD.RSV: the value 0 or 3 written to CMD. -/
  | cmdRsv (code : BitVec 2)
  /-- SYMRD: bytes to symbols, the first stage of ENCODE. -/
  | symrd
  /-- MATCH: one step of the window matcher. -/
  | matcher
  /-- TOKSER: pack the head token of TOKQ. -/
  | tokser
  /-- TOKDES: container to words, with the length check. -/
  | tokdes
  /-- DEGROUP: words to tokens. -/
  | degroup
  /-- SYMWR: symbols to bytes, the last stage of DECODE. -/
  | symwr
  deriving DecidableEq, Repr

end Sys2Proof
end

