-- ==== Sys2Proof/WellFormed.lean ====
section
/-! DEFINITION. Which terms of Instr are instructions: the field constraints of 30_encoding.md R86 and of the
opcode table's rows. -/

namespace Sys2Proof

/-- The constraints of the opcode table: COPY has offset and length at least 1, RSV0 length at least 1,
RSVL0 offset at least 1, CMD.RSV the value 0 or 3. -/
def Instr.wf : Instr → Bool
  | .lit _ => true
  | .copy d l _ => d != 0 && l != 0
  | .rsv0 l _ => l != 0
  | .rsvl0 d _ => d != 0
  | .encode => true
  | .decode => true
  | .cmdRsv code => code == 0 || code == 3
  | .symrd => true
  | .matcher => true
  | .tokser => true
  | .tokdes => true
  | .degroup => true
  | .symwr => true

end Sys2Proof
end

