-- ==== Sys2Proof/Decode.lean ====
section
/-! DEFINITION. From bits to instructions and back (30_encoding.md R80 to R90), with the byte-order helpers. -/

namespace Sys2Proof

/-- Big-endian pairing, `{hi, lo}`: the byte of lower index in bits 15:8 (20_memory.md R57, R58). -/
def pairBytes (hi lo : Byte) : Symbol := hi ++ lo

/-- `v[15:8]`. -/
def hiByte (v : Symbol) : Byte := v.extractLsb' 8 8

/-- `v[7:0]`. -/
def loByte (v : Symbol) : Byte := v.extractLsb' 0 8

/-- A word's two bytes in container order, high byte first (20_memory.md R57). -/
def wordBytes (v : Symbol) : List Byte := [hiByte v, loByte v]

/-- The 48 bits of a token, bit 47 the first bit of the first byte (30_encoding.md R81). -/
def tokenBits (off len lit : Symbol) : BitVec 48 := off ++ len ++ lit

/-- The classification of 30_encoding.md R86: by offset and length alone, LIT tested first, then offset 0,
then length 0, else COPY (the order the opcode table's COPY row gives). -/
def classify (off len lit : Symbol) : Instr :=
  if off = 0 then
    if len = 0 then .lit lit else .rsv0 len lit
  else
    if len = 0 then .rsvl0 off lit else .copy off len lit

/-- A token's 48 bits to its instruction: offset 47:32, length 31:16, literal 15:0 (R81). Total (R86). -/
def decodeToken (t : BitVec 48) : Instr :=
  classify (t.extractLsb' 32 16) (t.extractLsb' 16 16) (t.extractLsb' 0 16)

/-- A value written to CMD to its instruction (10_state.md R31, 30_encoding.md R90). Total. -/
def decodeCommand (code : BitVec 2) : Instr :=
  if code = 1 then .encode else if code = 2 then .decode else .cmdRsv code

/-- Where an instruction's bits come from: the container, or the CMD register. The internal stages have no
encoding (opcode_table.json, format ENGINE_OP). -/
inductive Encoded
  | container (bytes : List Byte)
  | command (code : BitVec 2)
  deriving DecidableEq, Repr

/-- Why bytes are not an instruction. -/
inductive DecodeError
  /-- Fewer than six bytes: a token is exactly 48 bits (30_encoding.md R80). -/
  | truncated (bytesLeft : Nat)
  /-- More than one token's bytes where one instruction was asked for. -/
  | trailing (extra : Nat)
  deriving DecidableEq, Repr

/-- Reads the token at the head of container bytes and answers the bytes after it: "a decoder tells where a
token ends by counting six bytes" (30_encoding.md R80, R82). -/
def decodeBytes : List Byte → Except DecodeError (Instr × List Byte)
  | b0 :: b1 :: b2 :: b3 :: b4 :: b5 :: rest =>
    .ok (decodeToken (tokenBits (pairBytes b0 b1) (pairBytes b2 b3) (pairBytes b4 b5)), rest)
  | short => .error (.truncated short.length)

/-- One instruction from its encoding. -/
def decode : Encoded → Except DecodeError Instr
  | .command code => .ok (decodeCommand code)
  | .container bytes =>
    match decodeBytes bytes with
    | .ok (i, []) => .ok i
    | .ok (_, b :: rest) => .error (.trailing (b :: rest).length)
    | .error e => .error e

/-- The byte layout of one token (30_encoding.md R82). -/
def tokenBytes (off len lit : Symbol) : List Byte :=
  wordBytes off ++ wordBytes len ++ wordBytes lit

/-- The encoding of an instruction (30_encoding.md R82, R86, R90); none for the internal stages, which have
"no encoding of its own" (40_symbol_io.md R100). -/
def encode : Instr → Option Encoded
  | .lit x => some (.container (tokenBytes 0 0 x))
  | .copy d l x => some (.container (tokenBytes d l x))
  | .rsv0 l x => some (.container (tokenBytes 0 l x))
  | .rsvl0 d x => some (.container (tokenBytes d 0 x))
  | .encode => some (.command 1)
  | .decode => some (.command 2)
  | .cmdRsv code => some (.command code)
  | .symrd => none
  | .matcher => none
  | .tokser => none
  | .tokdes => none
  | .degroup => none
  | .symwr => none

/-- The six container bytes of a 48-bit token, first byte the bits 47:40 (30_encoding.md R81, R82). -/
def tokenBitsBytes (t : BitVec 48) : List Byte :=
  [t.extractLsb' 40 8, t.extractLsb' 32 8, t.extractLsb' 24 8,
   t.extractLsb' 16 8, t.extractLsb' 8 8, t.extractLsb' 0 8]

/-- How many bits a TOKEN48 row has. -/
def tokenWidth : Nat := 48

/-- How many bits a CMD2 row has, in whole bytes. -/
def commandWidth : Nat := 8

/-- What the decoder reads from an opcode-table word, bits numbered as the table numbers them: a TOKEN48 row is
one 48-bit big-endian word (offset 47:32, length 31:16, literal 15:0), a CMD2 row the two low bits of a byte.
The ENGINE_OP rows have no bits. notes/assumptions/18.md. -/
def decodeTableWord (nbits w : Nat) : Option Instr :=
  if nbits = tokenWidth then
    if w < 2 ^ 48 then (decode (.container (tokenBitsBytes (BitVec.ofNat 48 w)))).toOption else none
  else if nbits = commandWidth then
    if w < 4 then (decode (.command (BitVec.ofNat 2 w))).toOption else none
  else none

end Sys2Proof
end

