-- ==== Sys2Proof/Machine/State.lean ====
section
/-! DEFINITION. The state of the machine: every register, memory and hidden structure of 10_state.md and
20_memory.md, the model's own sequencing fields, and the reasons a step can stop. -/

namespace Sys2Proof.Machine

/-- The index spaces of 20_memory.md R50. -/
inductive Space
  | ibuf | sym | tokq | outs | obuf
  deriving DecidableEq, Repr

/-- Why the machine stops with a fault. The engine's own four errors are not here: taking one is an effect
(60_exceptions.md R230) and gives a next state. -/
inductive Fault
  /-- A read outside `0 <= i < |SPACE|`, which "is never performed by any rule" (00_scope.md R10). Raised by
  MATCH, COPY, SYMWR and the token fetch, only in states that break `Machine.Inv`. Safe. -/
  | readOutOfRange (space : Space)
  deriving DecidableEq, Repr

/-- Why the model gives no meaning. -/
inductive Refusal
  /-- An instruction without a meaning. Raised by no arm of `exec`. Safe. -/
  | notModelled (mnemonic : String)
  /-- A command with IN_LEN above CAP_BYTES: "the engine has no meaning for it" (10_state.md R27, D6).
  Raised by ENCODE and DECODE; not with the default capacity. Safe. -/
  | inputOverCapacity
  /-- A host write of IBUF while BUSY: "its effect is not defined ... a model gives the host no such move"
  (70_reset_and_hazards.md R267). Raised by the host port. Safe. -/
  | ibufWriteWhileBusy
  deriving DecidableEq, Repr

/-- STATUS, register 1 (10_state.md R32). -/
inductive Status
  | idle | busy | done | failed
  deriving DecidableEq, Repr

/-- ERR, register 2 (10_state.md R33, 60_exceptions.md R220). -/
inductive Err
  | none | encodingOverflow | malformedContainer | irregularTokenStream | invalidBackReference
  deriving DecidableEq, Repr

/-- The host-interface registers of 10_state.md R30. -/
inductive HostReg
  | cmd | status | err | inLen | outLen | oddIn | oddOut | window
  deriving DecidableEq, Repr

/-- The registers of 10_state.md R30 that the host may only read. -/
inductive ReadOnlyReg
  | status | err | outLen | oddOut | window
  deriving DecidableEq, Repr

/-- One thing the host does (10_state.md R30, 70_reset_and_hazards.md R260, R265 to R267). `idle` is a step in
which it does nothing, so that a list of actions can interleave with the engine's steps in every way. -/
inductive HostAct
  | idle
  | writeCmd (code : BitVec 2)
  | writeInLen (len : Nat)
  | writeOddIn (bit : BitVec 1)
  | writeReadOnly (r : ReadOnlyReg) (value : Nat)
  | writeIbuf (index : Nat) (value : Byte)
  | reset
  deriving DecidableEq, Repr

/-- The stage of the operation in progress that runs next: the listings of 45_operations.md R201 (ENCODE:
symrd, matching, serializing) and R203 (DECODE: tokdes, degroup, reconstruct, symwr, closing). The model's own
field, notes/assumptions/14.md. -/
inductive Stage
  | idle | symrd | matching | serializing | tokdes | degroup | reconstruct | symwr | closing
  deriving DecidableEq, Repr

/-- A sparse store: (index, element) pairs, indices strictly rising, an unlisted index holding nothing. -/
abbrev Store (α : Type) := List (Nat × α)

/-- A byte space (IBUF, OBUF): `Store Byte`, which is a list of `Host.Cell`. -/
abbrev Memory := List Host.Cell

/-- The machine. -/
structure State where
  /-- CMD, register 0: the command last accepted (10_state.md R31, R41). -/
  cmd : BitVec 2
  /-- STATUS, register 1 (10_state.md R32). -/
  status : Status
  /-- ERR, register 2 (10_state.md R33). -/
  err : Err
  /-- IN_LEN, register 3 (10_state.md R34). -/
  inLen : Nat
  /-- OUT_LEN, register 4 (10_state.md R35). -/
  outLen : Nat
  /-- ODD_IN, register 5 (10_state.md R36). -/
  oddIn : BitVec 1
  /-- ODD_OUT, register 6 (10_state.md R36). -/
  oddOut : BitVec 1
  /-- `nsym`, the number of symbols (10_state.md R21). -/
  nsym : Nat
  /-- `pos`, the encoder's program counter (10_state.md R21, R26). -/
  pos : Nat
  /-- `lo`, the window start (10_state.md R21). -/
  lo : Nat
  /-- `c`, the candidate index (10_state.md R21). -/
  c : Nat
  /-- `hit` (10_state.md R21). -/
  hit : Bool
  /-- `off` (10_state.md R21). -/
  off : Nat
  /-- `ml` (10_state.md R21). -/
  ml : Nat
  /-- `lit` (10_state.md R21). -/
  lit : Symbol
  /-- `wcnt`, words in the container (10_state.md R22). -/
  wcnt : Nat
  /-- `nwords` (10_state.md R23). -/
  nwords : Nat
  /-- `m`, the token count (10_state.md R23). -/
  m : Nat
  /-- `tpc`, the decoder's program counter (10_state.md R23, R25). -/
  tpc : Nat
  /-- `t_off` (10_state.md R23). -/
  tOff : Symbol
  /-- `t_len` (10_state.md R23). -/
  tLen : Symbol
  /-- `t_lit` (10_state.md R23). -/
  tLit : Symbol
  /-- `n`, the write cursor (10_state.md R23). -/
  n : Nat
  /-- `start` (10_state.md R23). -/
  start : Nat
  /-- `i`, the copy counter (10_state.md R23). -/
  i : Nat
  /-- IBUF (20_memory.md R51). -/
  ibuf : Memory
  /-- SYM in an ENCODE, WORDS in a DECODE: one space (20_memory.md R50, R52). -/
  sym : List Symbol
  /-- TOKQ, head first (20_memory.md R53). -/
  tokq : List Token
  /-- OUTS (20_memory.md R54). -/
  outs : List Symbol
  /-- OBUF (20_memory.md R55). -/
  obuf : Memory
  /-- WIN by slot; an unlisted slot is invalid (10_state.md R38). -/
  win : Store Symbol
  /-- HIST by slot; an unlisted slot is unwritten (10_state.md R39). -/
  hist : Store Symbol
  /-- The model's own: the stage that runs next. -/
  stage : Stage
  /-- The model's own: IN_LEN as read when the command was accepted (10_state.md R34). -/
  opLen : Nat
  /-- The model's own: ODD_IN as read when the command was accepted (10_state.md R36). -/
  opOdd : BitVec 1
  /-- The model's own: the host's coming actions. -/
  inbox : List HostAct
  /-- The model's own: counter behind the free values of unspecified registers. -/
  fresh : Nat
  /-- The model's own: number of reset events, behind the free bytes of IBUF. -/
  resets : Nat
  deriving DecidableEq, Repr

/-- The machine after reset: the host-interface registers as 10_state.md R41 and 70_reset_and_hazards.md R260
give them, WIN invalid (R263). The working registers and SYM, TOKQ, OUTS, HIST are unspecified there; zero and
empty are this model's DESIGN CHOICE, unsafe, notes/assumptions/2.md and 3.md. -/
def State.reset : State where
  cmd := 0
  status := .idle
  err := .none
  inLen := 0
  outLen := 0
  oddIn := 0
  oddOut := 0
  nsym := 0
  pos := 0
  lo := 0
  c := 0
  hit := false
  off := 0
  ml := 0
  lit := 0
  wcnt := 0
  nwords := 0
  m := 0
  tpc := 0
  tOff := 0
  tLen := 0
  tLit := 0
  n := 0
  start := 0
  i := 0
  ibuf := []
  sym := []
  tokq := []
  outs := []
  obuf := []
  win := []
  hist := []
  stage := .idle
  opLen := 0
  opOdd := 0
  inbox := []
  fresh := 0
  resets := 0

/-- What every meaning answers. -/
abbrev Result := Host.Outcome State Fault Refusal

end Sys2Proof.Machine
end

