-- ==== Sys2Proof/Machine/Ops.lean ====
section
/-! DEFINITION. The named operations over memories and registers: the sparse stores, the append to OUTS, taking
one of the four errors, accepting a command, ending an operation, reset, and the host's reads. -/

namespace Sys2Proof.Machine

/-! ### Sparse stores -/

/-- The element at an index, if the store holds one. -/
def Store.read {α : Type} : Store α → Nat → Option α
  | [], _ => none
  | (k, v) :: rest, a => if k = a then some v else Store.read rest a

/-- Writes one element, keeping the indices strictly rising. -/
def Store.write {α : Type} : Store α → Nat → α → Store α
  | [], a, v => [(a, v)]
  | (k, w) :: rest, a, v =>
    if a < k then (a, v) :: (k, w) :: rest
    else if a = k then (a, v) :: rest
    else (k, w) :: Store.write rest a v

/-- Writes a list of elements at rising indices from a base, in increasing index order. -/
def Store.writeList {α : Type} : Store α → Nat → List α → Store α
  | st, _, [] => st
  | st, base, v :: vs => Store.writeList (Store.write st base v) (base + 1) vs

/-- The canonical form: indices strictly rising. An unlisted index holds nothing, so no entry can equal what an
unlisted index reads as. -/
def Store.wf {α : Type} : Store α → Bool
  | [] => true
  | [_] => true
  | (a, _) :: (b, w) :: rest => decide (a < b) && Store.wf ((b, w) :: rest)

/-- The canonical form of a byte space. -/
def Memory.wf (mem : Memory) : Bool := Store.wf mem

/-- What a byte space reads at an index; an unlisted byte holds no value (70_reset_and_hazards.md R263). -/
def Memory.read (mem : Memory) (a : Nat) : Option Byte := Store.read mem a

/-- Writes one byte. -/
def Memory.write (mem : Memory) (a : Nat) (v : Byte) : Memory := Store.write mem a v

/-- Writes bytes at rising indices from a base. -/
def Memory.writeList (mem : Memory) (base : Nat) (vs : List Byte) : Memory := Store.writeList mem base vs

/-! ### Taking an error (60_exceptions.md R230) -/

/-- `raise e`: ERR gets the code, STATUS becomes FAILED, OUT_LEN is 0, the operation ends. Nothing is saved and
control goes nowhere; the memories stay as the last completed step left them (R232). There is no return from it
(R234). -/
def raise (e : Err) (s : State) : State :=
  { s with err := e, status := .failed, outLen := 0, stage := .idle }

/-! ### Accepting a command (70_reset_and_hazards.md R261, 10_state.md R41) -/

/-- What every accepted command does: BUSY, ERR and OUT_LEN cleared, IN_LEN and ODD_IN read once, every internal
memory emptied, `pos`, `wcnt`, `tpc`, `n` zero (R261). The registers R41 calls unspecified get free values. -/
def accept (code : BitVec 2) (s : State) : State :=
  { s with
    cmd := code, status := .busy, err := .none, outLen := 0,
    opLen := s.inLen, opOdd := s.oddIn,
    pos := 0, wcnt := 0, tpc := 0, n := 0,
    lit := Config.freeWord s.fresh .lit,
    nwords := Config.freeNat s.fresh .nwords,
    m := Config.freeNat s.fresh .m,
    tOff := Config.freeWord s.fresh .tOff,
    tLen := Config.freeWord s.fresh .tLen,
    tLit := Config.freeWord s.fresh .tLit,
    start := Config.freeNat s.fresh .start,
    i := Config.freeNat s.fresh .i,
    sym := [], tokq := [], outs := [], obuf := [], win := [], hist := [],
    fresh := s.fresh + 1 }

/-- Acceptance of ENCODE: the encoder's registers start at 0, ODD_OUT is cleared (10_state.md R41), and SYMRD is
the first stage (45_operations.md R201). -/
def acceptEncode (s : State) : State :=
  { accept 1 s with
    nsym := 0, lo := 0, c := 0, hit := false, off := 0, ml := 0,
    oddOut := 0, stage := .symrd }

/-- Acceptance of DECODE: the encoder's registers are unspecified (10_state.md R41), ODD_OUT is unchanged, and
TOKDES is the first stage (45_operations.md R203). -/
def acceptDecode (s : State) : State :=
  { accept 2 s with
    nsym := Config.freeNat s.fresh .nsym,
    lo := Config.freeNat s.fresh .lo,
    c := Config.freeNat s.fresh .c,
    hit := Config.freeBool s.fresh .hit,
    off := Config.freeNat s.fresh .off,
    ml := Config.freeNat s.fresh .ml,
    stage := .tokdes }

/-! ### Ending an operation without an error -/

/-- The last three statements of ENCODE: OUT_LEN is twice the word count, ODD_OUT the parity of the input
length, STATUS DONE (45_operations.md R201, 42_token_codec.md R142, 10_state.md R36). -/
def completeEncode (s : State) : State :=
  { s with outLen := 2 * s.wcnt, oddOut := BitVec.ofNat 1 (s.opLen % 2), status := .done, stage := .idle }

/-- The last statement of DECODE: STATUS DONE (45_operations.md R203). -/
def completeDecode (s : State) : State :=
  { s with status := .done, stage := .idle }

/-! ### OUTS and HIST -/

/-- The one write OUTS has: `OUTS[n] <- v; n <- n + 1` (20_memory.md R54), and with it
`HIST[n mod HCAP] <- v` (10_state.md R39). -/
def appendOut (v : Symbol) (s : State) : State :=
  { s with outs := s.outs ++ [v], hist := Store.write s.hist (s.n % Config.HCAP) v, n := s.n + 1 }

/-- `OUTS[n - d]` as the circular history gives it (10_state.md R39). -/
def histRead (d : Nat) (s : State) : Option Symbol :=
  Store.read s.hist ((s.n - d) % Config.HCAP)

/-! ### WIN -/

/-- The symbols `SYM[j]`, for `count` indices from `j`, pass behind `pos` into slots `j mod W`
(10_state.md R38). -/
def shiftIn (W : Nat) (sym : List Symbol) : Nat → Nat → Store Symbol → Store Symbol
  | _, 0, win => win
  | j, count + 1, win =>
    match sym[j]? with
    | some v => shiftIn W sym (j + 1) count (Store.write win (j % W) v)
    | none => shiftIn W sym (j + 1) count win

/-- The encoder's program counter advances by `k`, and WIN with it (10_state.md R26, R38). -/
def advancePos (k : Nat) (s : State) : State :=
  { s with pos := s.pos + k, win := shiftIn Config.W s.sym s.pos k s.win }

/-! ### Reset -/

/-- The reset event, from any state (70_reset_and_hazards.md R260): the host-interface registers take the reset
column of 10_state.md R41, the operation in progress is abandoned, working registers and memories become
unspecified (free values; a byte space lists nothing), WIN is invalid (R263). -/
def resetEngine (s : State) : State :=
  { State.reset with
    nsym := Config.freeNat s.fresh .nsym,
    pos := Config.freeNat s.fresh .pos,
    lo := Config.freeNat s.fresh .lo,
    c := Config.freeNat s.fresh .c,
    hit := Config.freeBool s.fresh .hit,
    off := Config.freeNat s.fresh .off,
    ml := Config.freeNat s.fresh .ml,
    lit := Config.freeWord s.fresh .lit,
    wcnt := Config.freeNat s.fresh .wcnt,
    nwords := Config.freeNat s.fresh .nwords,
    m := Config.freeNat s.fresh .m,
    tpc := Config.freeNat s.fresh .tpc,
    tOff := Config.freeWord s.fresh .tOff,
    tLen := Config.freeWord s.fresh .tLen,
    tLit := Config.freeWord s.fresh .tLit,
    n := Config.freeNat s.fresh .n,
    start := Config.freeNat s.fresh .start,
    i := Config.freeNat s.fresh .i,
    sym := Config.freeSym s.fresh,
    tokq := Config.freeTokq s.fresh,
    outs := Config.freeOuts s.fresh,
    inbox := s.inbox,
    fresh := s.fresh + 1,
    resets := s.resets + 1 }

end Sys2Proof.Machine
end

