-- ==== Sys2Proof/Machine/Flags.lean ====
section
/-! DEFINITION. The engine's only flags: STATUS, ERR and the odd-length bits (10_state.md R28, R29, R32, R33,
R36), with the tests a command makes before it is accepted. -/

namespace Sys2Proof.Machine

/-- The 2-bit code of STATUS (10_state.md R32). -/
def Status.code : Status → BitVec 2
  | .idle => 0
  | .busy => 1
  | .done => 2
  | .failed => 3

/-- The 3-bit code of ERR (10_state.md R33, 60_exceptions.md R220). -/
def Err.code : Err → BitVec 3
  | .none => 0
  | .encodingOverflow => 1
  | .malformedContainer => 2
  | .irregularTokenStream => 3
  | .invalidBackReference => 4

/-- The register numbers of 10_state.md R30. -/
def HostReg.number : HostReg → Nat
  | .cmd => 0
  | .status => 1
  | .err => 2
  | .inLen => 3
  | .outLen => 4
  | .oddIn => 5
  | .oddOut => 6
  | .window => 7

/-- IN_LEN is at most CAP_BYTES (10_state.md R27, R34); no bound where CAP_BYTES is unbounded. -/
def withinCap (len : Nat) : Bool :=
  match Config.capBytes with
  | none => true
  | some cap => decide (len ≤ cap)

/-- An `off` or `ml` that a container word can hold (42_token_codec.md R141). -/
def fitsWord (v : Nat) : Bool := decide (v ≤ Config.wordMax)

/-- The byte length of a DECODE's result, `2n -. ODD_IN`, truncated subtraction (40_symbol_io.md R102, R103). -/
def decodedLength (n : Nat) (odd : BitVec 1) : Nat := 2 * n - odd.toNat

end Sys2Proof.Machine
end

