-- ==== Sys2Proof/Machine/Operands.lean ====
section
/-! DEFINITION. The operand forms: the input byte sequence, symbols and words made from bytes, tokens made from
words, a token's three immediates, and what the host reads. -/

namespace Sys2Proof.Machine

/-- One byte of IBUF as the engine reads it; a byte the host has not written is a free value
(70_reset_and_hazards.md R263, notes/assumptions/6.md). -/
def ibufByte (s : State) (a : Nat) : Byte :=
  (Memory.read s.ibuf a).getD (Config.freeIbuf s.resets a)

/-- `IBUF[0 .. IN_LEN)`, the input byte sequence of the operation, IN_LEN as read at acceptance
(10_state.md R34). -/
def inputBytes (s : State) : List Byte :=
  (List.range s.opLen).map (ibufByte s)

/-- Bytes to 16-bit big-endian symbols, the odd tail padded with a zero low byte (40_symbol_io.md R100,
20_memory.md R57, R60). -/
def symbolsOf : List Byte → List Symbol
  | hi :: lo :: rest => pairBytes hi lo :: symbolsOf rest
  | [last] => [pairBytes last 0]
  | [] => []

/-- Symbols to bytes, high byte first (40_symbol_io.md R102). -/
def bytesOf (syms : List Symbol) : List Byte := syms.flatMap wordBytes

/-- Words to tokens by triples, in order; a rest of one or two words makes no token (43_degrouper.md R160,
30_encoding.md R84). -/
def tokensOf : List Symbol → List Token
  | a :: b :: c :: rest => { off := a.toNat, len := b.toNat, lit := c } :: tokensOf rest
  | _ => []

/-- A field of a queue token as the 16-bit register `t_off` or `t_len` takes it (10_state.md R23). -/
def fieldWord (v : Nat) : Symbol := BitVec.ofNat 16 v

/-- The six container bytes of a queue token that passed the range check (42_token_codec.md R140). -/
def packToken (t : Token) : List Byte := tokenBytes (fieldWord t.off) (fieldWord t.len) t.lit

/-- What the host reads from a register (10_state.md R30): CMD is a free value (R31), WINDOW is hard-wired
(R37). -/
def readReg (s : State) : HostReg → Nat
  | .cmd => (Config.freeCmd s.fresh).toNat
  | .status => s.status.code.toNat
  | .err => s.err.code.toNat
  | .inLen => s.inLen
  | .outLen => s.outLen
  | .oddIn => s.oddIn.toNat
  | .oddOut => s.oddOut.toNat
  | .window => Config.W

/-- What the host reads from OBUF: a byte of the result in DONE, below OUT_LEN; anywhere else a free value
(20_memory.md R55, 60_exceptions.md R231, 93 U6, U8). -/
def readObuf (s : State) (a : Nat) : Byte :=
  if s.status = .done ∧ a < s.outLen then
    (Memory.read s.obuf a).getD (Config.freeObuf s.fresh a)
  else Config.freeObuf s.fresh a

/-- The result of the last operation as the host reads it: `OBUF[0 .. OUT_LEN)` (45_operations.md R205). -/
def resultBytes (s : State) : List Byte := (List.range s.outLen).map (readObuf s)

end Sys2Proof.Machine
end

