-- ==== Sys2Proof/Machine/Degrouper.lean ====
section
/-! DEFINITION. DEGROUP: the lanes of the deserializer (43_degrouper.md R160 to R169). -/

namespace Sys2Proof.Machine

/-- The largest divisor of `m` that is at most `d`, 1 where there is none above 1. -/
def largestDivisorUpTo (m : Nat) : Nat → Nat
  | 0 => 1
  | d + 1 => if m % (d + 1) = 0 then d + 1 else largestDivisorUpTo m d

/-- The lane count T: the largest `d` with `1 <= d <= 100` and `m mod d = 0` (43_degrouper.md R162). -/
def laneCount (m : Nat) : Nat := largestDivisorUpTo m Config.LANECAP

/-- Chunk `q` of the words, `WORDS[q*L .. (q+1)*L)` (43_degrouper.md R163). -/
def laneChunk (words : List Symbol) (len q : Nat) : List Symbol := (words.drop (q * len)).take len

/-- What lane `q` writes into its own output slot (43_degrouper.md R164). -/
def laneTokens (words : List Symbol) (len q : Nat) : List Token := tokensOf (laneChunk words len q)

/-- The lanes' output slots, listed in the order in which the lanes complete. -/
def runLanes (words : List Symbol) (len : Nat) (completion : List Nat) : List (Nat × List Token) :=
  completion.map (fun q => (q, laneTokens words len q))

/-- One lane's output slot, if the lane has completed with an output of the length its chunk calls for; a
failed lane or a wrong length gives none (43_degrouper.md R166 (c), R167). -/
def laneSlot (slots : List (Nat × List Token)) (perLane q : Nat) : Option (List Token) :=
  match slots.find? (fun e => e.1 == q) with
  | some (_, ts) => if ts.length = perLane then some ts else none
  | none => none

/-- The merge by ascending chunk index from lane `q` on, whatever the completion order (43_degrouper.md R165);
none when a lane failed. -/
def mergeLanes (slots : List (Nat × List Token)) (perLane : Nat) : Nat → Nat → Option (List Token)
  | _, 0 => some []
  | q, count + 1 =>
    match laneSlot slots perLane q, mergeLanes slots perLane (q + 1) count with
    | some ts, some rest => some (ts ++ rest)
    | _, _ => none

/-- The degrouper over `lanes` lanes that complete in the given order: chunks of `3m / lanes` words, merged by
index (43_degrouper.md R163 to R165). -/
def degroupWith (words : List Symbol) (m lanes : Nat) (completion : List Nat) : Option (List Token) :=
  let len := Config.TRIPLE * m / lanes
  mergeLanes (runLanes words len completion) (len / Config.TRIPLE) 0 lanes

/-- DEGROUP: IrregularTokenStream when `m = 0` (43_degrouper.md R161) or a lane fails (R167); otherwise the
tokens of R160 into TOKQ. The lanes complete here in index order, which no output depends on (R168). -/
def execDegroup (s : State) : Result :=
  if s.m = 0 then .next (raise .irregularTokenStream s)
  else
    match degroupWith s.sym s.m (laneCount s.m) (List.range (laneCount s.m)) with
    | some ts => .next { s with tokq := ts }
    | none => .next (raise .irregularTokenStream s)

end Sys2Proof.Machine
end

