-- ==== Sys2Proof/Machine/Operations.lean ====
section
/-! DEFINITION. The commands ENCODE, DECODE and CMD.RSV (45_operations.md R200 to R209). Their meaning is the
acceptance; the stages that follow are the sequencer's steps. -/

namespace Sys2Proof.Machine

/-- ENCODE, `CMD <- 1`: ignored while BUSY (45_operations.md R207), refused above CAP_BYTES (10_state.md R27),
else accepted (R201, 70_reset_and_hazards.md R261). -/
def execEncode (s : State) : Result :=
  if s.status = .busy then .next s
  else if withinCap s.inLen then .next (acceptEncode s)
  else .refused .inputOverCapacity

/-- DECODE, `CMD <- 2`: ignored while BUSY (45_operations.md R207), refused above CAP_BYTES (10_state.md R27),
else accepted (R203, 70_reset_and_hazards.md R261). -/
def execDecode (s : State) : Result :=
  if s.status = .busy then .next s
  else if withinCap s.inLen then .next (acceptDecode s)
  else .refused .inputOverCapacity

/-- CMD.RSV, `CMD <- 0` or `CMD <- 3`: ignored, no state changes (10_state.md R31, 45_operations.md R207). -/
def execCmdRsv (_code : BitVec 2) (s : State) : Result := .next s

end Sys2Proof.Machine
end

