-- ==== Sys2Proof/Machine/Reconstructor.lean ====
section
/-! DEFINITION. The reconstructor's tokens: LIT, COPY and the two reserved classes (44_reconstructor.md R175 to
R187). -/

namespace Sys2Proof.Machine

/-- The end of a token: append the literal, `tpc <- tpc + 1` (44_reconstructor.md R177, R180). -/
def finishToken (x : Symbol) (s : State) : State :=
  let t := appendOut x s
  { t with tpc := t.tpc + 1 }

/-- COPY part 2, `count` iterations from the copy counter `i`: read `OUTS[start + i]` as it is now, append it
(44_reconstructor.md R179, 20_memory.md R68). None where the read is out of range. -/
def copyLoop : Nat → State → Option State
  | 0, s => some s
  | count + 1, s =>
    match s.outs[s.start + s.i]? with
    | some v => copyLoop count { appendOut v s with i := s.i + 1 }
    | none => none

/-- The copy branch: the bound check on naturals, `start`, the loop, the literal (44_reconstructor.md R178 to
R180). -/
def copyBranch (d l x : Symbol) (s : State) : Result :=
  if s.n < d.toNat then .next (raise .invalidBackReference s)
  else
    match copyLoop l.toNat { s with start := s.n - d.toNat, i := 0 } with
    | some t => .next (finishToken x t)
    | none => .fault (.readOutOfRange .outs)

/-- LIT x: append the literal. It cannot fault in any state (44_reconstructor.md R177). -/
def execLit (x : Symbol) (s : State) : Result := .next (finishToken x s)

/-- COPY d, l, x (44_reconstructor.md R178 to R181). -/
def execCopy (d l x : Symbol) (s : State) : Result := copyBranch d l x s

/-- RSV0, `TOK 0, l, x`: always InvalidBackReference, nothing appended (44_reconstructor.md R182). -/
def execRsv0 (_l _x : Symbol) (s : State) : Result := .next (raise .invalidBackReference s)

/-- RSVL0, `TOK d, 0, x`: the copy branch with zero copies (44_reconstructor.md R183). -/
def execRsvl0 (d x : Symbol) (s : State) : Result := copyBranch d 0 x s

end Sys2Proof.Machine
end

