-- ==== Sys2Proof/Machine/SymbolIo.lean ====
section
/-! DEFINITION. SYMRD and SYMWR (40_symbol_io.md R100 to R104). -/

namespace Sys2Proof.Machine

/-- SYMRD: `IBUF[0 .. IN_LEN)` to SYM, `nsym` the number of symbols (40_symbol_io.md R100). No flag, no error. -/
def execSymrd (s : State) : Result :=
  .next { s with sym := symbolsOf (inputBytes s), nsym := (symbolsOf (inputBytes s)).length }

/-- SYMWR: `OUTS[0 .. n)` to OBUF, high byte first, and `OUT_LEN <- 2n -. ODD_IN` (40_symbol_io.md R102, R103).
STATUS is not written here ("Flags written: none"). -/
def execSymwr (s : State) : Result :=
  if s.outs.length < s.n then .fault (.readOutOfRange .outs)
  else
    .next { s with
      obuf := Memory.writeList s.obuf 0 (bytesOf (s.outs.take s.n)),
      outLen := decodedLength s.n s.opOdd }

end Sys2Proof.Machine
end

