-- ==== Sys2Proof/Machine/TokenCodec.lean ====
section
/-! DEFINITION. TOKSER and TOKDES (42_token_codec.md R140 to R147). -/

namespace Sys2Proof.Machine

/-- TOKSER: the head token of TOKQ to six big-endian bytes of OBUF, after the range check of 42_token_codec.md
R141 (41_window_matcher.md R126), which raises EncodingOverflow before any byte of the token is written. With an
empty queue there is no token to consume. -/
def execTokser (s : State) : Result :=
  match s.tokq with
  | [] => .next s
  | t :: rest =>
    if fitsWord t.off && fitsWord t.len then
      .next { s with
        obuf := Memory.writeList s.obuf (2 * s.wcnt) (packToken t),
        wcnt := s.wcnt + Config.TRIPLE,
        tokq := rest }
    else .next (raise .encodingOverflow s)

/-- The ingestion half of TOKDES: SYMRD with its outputs named WORDS and `nwords` (42_token_codec.md R143). -/
def ingestWords (s : State) : State :=
  { s with sym := symbolsOf (inputBytes s), nwords := (symbolsOf (inputBytes s)).length }

/-- TOKDES: ingestion, then MalformedContainer unless `nwords` is a multiple of 3, then `m <- nwords / 3`
(42_token_codec.md R143 to R145). -/
def execTokdes (s : State) : Result :=
  let t := ingestWords s
  if t.nwords % Config.TRIPLE ≠ 0 then .next (raise .malformedContainer t)
  else .next { t with m := t.nwords / Config.TRIPLE }

end Sys2Proof.Machine
end

