-- ==== Sys2Proof/Machine/WindowMatcher.lean ====
section
/-! DEFINITION. MATCH, the window matcher: one token per step (41_window_matcher.md R110 to R127). -/

namespace Sys2Proof.Machine

/-- MATCH.SEARCH, the scan from `c` upward over at most `count` candidates: the least index whose symbol is `x`
(41_window_matcher.md R113). -/
def search (sym : List Symbol) (x : Symbol) : Nat → Nat → Option Nat
  | _, 0 => none
  | c, count + 1 => if sym[c]? = some x then some c else search sym x (c + 1) count

/-- The condition of MATCH.EXTEND at length `ml`: the window-relative bound, the input bound, equal symbols, in
this order (41_window_matcher.md R116). -/
def canExtend (sym : List Symbol) (nsym pos c ml : Nat) : Bool :=
  decide (c + ml < pos) && (decide (pos + ml < nsym - 1) &&
    match sym[pos + ml]?, sym[c + ml]? with
    | some a, some b => a == b
    | _, _ => false)

/-- MATCH.EXTEND: `ml` grows while the condition holds (41_window_matcher.md R116). The count bounds the
iterations; `pos - c` of them are enough, since `c + ml < pos` (R125). -/
def extendMatch (sym : List Symbol) (nsym pos c : Nat) : Nat → Nat → Nat
  | ml, 0 => ml
  | ml, count + 1 =>
    if canExtend sym nsym pos c ml then extendMatch sym nsym pos c (ml + 1) count else ml

/-- MATCH.WINDOW: `lo <- pos -. W` (41_window_matcher.md R112). -/
def windowStart (W pos : Nat) : Nat := pos - W

/-- MATCH.EMITL and the advance by one: token (0, 0, x) (41_window_matcher.md R118, R121). -/
def emitLiteral (x : Symbol) (s : State) : State :=
  advancePos 1 { s with
    hit := false, off := 0, ml := 0, lit := x,
    tokq := s.tokq ++ [{ off := 0, len := 0, lit := x }] }

/-- MATCH.EMITM and the advance over the run and its literal (41_window_matcher.md R117, R122). -/
def emitMatch (off ml : Nat) (x : Symbol) (s : State) : State :=
  advancePos (ml + 1) { s with
    hit := true, off := off, ml := ml, lit := x,
    tokq := s.tokq ++ [{ off := off, len := ml, lit := x }] }

/-- MATCH: one step at `pos`, by the listing after 41_window_matcher.md R123. At `pos >= nsym` the matcher is
finished and no step is performed (R110, R123). The last symbol is a literal without a search (R111). -/
def execMatcher (s : State) : Result :=
  if s.nsym ≤ s.pos then .next s
  else
    match s.sym[s.pos]? with
    | none => .fault (.readOutOfRange .sym)
    | some x =>
      if s.pos = s.nsym - 1 then .next (emitLiteral x s)
      else
        let lo := windowStart Config.W s.pos
        match search s.sym x lo (s.pos - lo) with
        | none => .next (emitLiteral x { s with lo := lo, c := s.pos })
        | some c =>
          let ml := extendMatch s.sym s.nsym s.pos c 1 (s.pos - c)
          match s.sym[s.pos + ml]? with
          | none => .fault (.readOutOfRange .sym)
          | some y => .next (emitMatch (s.pos - c) ml y { s with lo := lo, c := c })

/-! The content-addressed search of a hardware window (41_window_matcher.md R114, 10_state.md R38): equal in
result to `search`, stated in the obligations. -/

/-- The index `j` of the symbol that slot `k` of WIN holds: the one `j` with `pos -. W <= j < pos` and
`j mod W = k` (10_state.md R38). -/
def slotIndex (W pos k : Nat) : Nat := pos - 1 - (pos - 1 + W - k) % W

/-- All valid entries compared with `x` at once, the equal one of least index selected
(41_window_matcher.md R114). -/
def camSearch (W pos : Nat) (win : Store Symbol) (x : Symbol) : Option Nat :=
  ((win.filter (fun e => e.2 == x)).map (fun e => slotIndex W pos e.1)).min?

end Sys2Proof.Machine
end

