-- ==== Sys2Proof/Machine/Dispatch.lean ====
section
/-! DEFINITION. One arm per instruction. -/

namespace Sys2Proof.Machine

def exec (i : Instr) (s : State) : Host.Outcome State Fault Refusal :=
  match i with
  | .lit x => Sys2Proof.Machine.execLit x s
  | .copy d l x => Sys2Proof.Machine.execCopy d l x s
  | .rsv0 l x => Sys2Proof.Machine.execRsv0 l x s
  | .rsvl0 d x => Sys2Proof.Machine.execRsvl0 d x s
  | .encode => Sys2Proof.Machine.execEncode s
  | .decode => Sys2Proof.Machine.execDecode s
  | .cmdRsv code => Sys2Proof.Machine.execCmdRsv code s
  | .symrd => Sys2Proof.Machine.execSymrd s
  | .matcher => Sys2Proof.Machine.execMatcher s
  | .tokser => Sys2Proof.Machine.execTokser s
  | .tokdes => Sys2Proof.Machine.execTokdes s
  | .degroup => Sys2Proof.Machine.execDegroup s
  | .symwr => Sys2Proof.Machine.execSymwr s

end Sys2Proof.Machine
end

