-- ==== Sys2Proof/Machine/Sequencer.lean ====
section
/-! DEFINITION. What a step adds around `exec`: the host's actions, the order of an operation's stages
(45_operations.md R201, R203), and the token fetch (44_reconstructor.md R176). -/

namespace Sys2Proof.Machine

/-- After a stage that did not end the operation, the next stage; after a raise, nothing
(60_exceptions.md R230). -/
def thenStage (st : Stage) : Result → Result
  | .next t => if t.status = .busy then .next { t with stage := st } else .next t
  | .fault r => .fault r
  | .refused r => .refused r

/-- The fetch latches the head of TOKQ into `t_off`, `t_len`, `t_lit` and takes it off the queue
(44_reconstructor.md R176, 20_memory.md R53). -/
def latchToken (t : Token) (rest : List Token) (s : State) : State :=
  { s with tOff := fieldWord t.off, tLen := fieldWord t.len, tLit := t.lit, tokq := rest }

/-- The instruction the three latched fields encode (44_reconstructor.md R176). -/
def latchedInstr (s : State) : Instr := decodeToken (tokenBits s.tOff s.tLen s.tLit)

/-- Fetches token `tpc` and executes it (44_reconstructor.md R176). -/
def runToken (s : State) : Result :=
  match s.tokq with
  | [] => .fault (.readOutOfRange .tokq)
  | t :: rest => exec (latchedInstr (latchToken t rest s)) (latchToken t rest s)

/-- One step of the engine: the next statement of the operation in progress. With no operation in progress it
"simply has no enabled step until a command arrives" (60_exceptions.md R241): nothing changes. The loops of
45_operations.md R201 and R203 leave by a step of their own. -/
def engineStep (s : State) : Result :=
  match s.stage with
  | .idle => .next s
  | .symrd => thenStage .matching (exec .symrd s)
  | .matching => if s.pos < s.nsym then exec .matcher s else .next { s with stage := .serializing }
  | .serializing =>
    match s.tokq with
    | [] => .next (completeEncode s)
    | _ :: _ => exec .tokser s
  | .tokdes => thenStage .degroup (exec .tokdes s)
  | .degroup => thenStage .reconstruct (exec .degroup s)
  | .reconstruct => if s.tpc < s.m then runToken s else .next { s with stage := .symwr }
  | .symwr => thenStage .closing (exec .symwr s)
  | .closing => .next (completeDecode s)

/-- One action of the host (10_state.md R30, 70_reset_and_hazards.md R260, R265 to R267). `idle` leaves the step
to the engine. -/
def hostStep (a : HostAct) (s : State) : Result :=
  match a with
  | .idle => engineStep s
  | .writeCmd code => exec (decodeCommand code) s
  | .writeInLen len => .next { s with inLen := len }
  | .writeOddIn bit => .next { s with oddIn := bit }
  | .writeReadOnly _ _ => .next s
  | .writeIbuf a v =>
    if s.status = .busy then .refused .ibufWriteWhileBusy
    else .next { s with ibuf := Memory.write s.ibuf a v }
  | .reset => .next (resetEngine s)

/-- One step of the machine: the host's next action if one waits, else the engine's step. -/
def cycle (s : State) : Result :=
  match s.inbox with
  | [] => engineStep s
  | a :: rest => hostStep a { s with inbox := rest }

/-- A state whose next step fetches and runs the token of an opcode-table word: a DECODE in its reconstruction
with that one token in TOKQ. notes/assumptions/19.md. -/
def placeToken (w : Nat) (s : State) : State :=
  let t := BitVec.ofNat 48 w
  { s with
    cmd := 2, status := .busy, stage := .reconstruct,
    tokq := [{ off := (t.extractLsb' 32 16).toNat, len := (t.extractLsb' 16 16).toNat,
               lit := t.extractLsb' 0 16 }],
    m := s.tpc + 1,
    inbox := .idle :: s.inbox }

/-- A state whose next step is the host's write of a command code. -/
def placeCommand (w : Nat) (s : State) : State :=
  { s with inbox := .writeCmd (BitVec.ofNat 2 w) :: s.inbox }

end Sys2Proof.Machine
end

