-- ==== Sys2Proof/Machine/Step.lean ====
section
/-! DEFINITION. The step of the machine, and the state that makes a given instruction the next one. -/

namespace Sys2Proof.Machine

/-- One step. -/
def step (s : State) : Host.Outcome State Fault Refusal := cycle s

/-- `s` with the instruction of an opcode-table word stored where `step` takes its next instruction from: the
head of TOKQ for a token, the host's next action for a command. -/
def State.withFetchWord (s : State) (nbits w : Nat) : State :=
  if nbits = tokenWidth then placeToken w s
  else if nbits = commandWidth then placeCommand w s
  else s

end Sys2Proof.Machine
end

