-- ==== Sys2Proof/Safety.lean ====
section
/-! DEFINITION. The terms the claims use: a reference replay of a token stream, the contents of the hidden
stores, and the invariant that holds between steps. -/

namespace Sys2Proof.Machine

/-- A list repeated cyclically to a length: "the last `t_off` symbols before the token repeated cyclically to
length `t_len`" (44_reconstructor.md R181). -/
def cyclic (base : List Symbol) (len : Nat) : List Symbol :=
  (List.range len).map (fun i => base.getD (i % base.length) 0)

/-- One token applied to an output buffer, in the closed form of 44_reconstructor.md R177 to R183: none where
the token raises InvalidBackReference. Written without the copy loop of the machine. -/
def replayToken (outs : List Symbol) (t : Token) : Option (List Symbol) :=
  if t.off = 0 ∧ t.len = 0 then some (outs ++ [t.lit])
  else if t.off = 0 ∨ outs.length < t.off then none
  else some (outs ++ cyclic (outs.drop (outs.length - t.off)) t.len ++ [t.lit])

/-- A token stream applied in order; none at the first token that raises (60_exceptions.md R228). -/
def replay : List Symbol → List Token → Option (List Symbol)
  | outs, [] => some outs
  | outs, t :: ts =>
    match replayToken outs t with
    | some outs' => replay outs' ts
    | none => none

/-- What the window matcher emits: a literal, or a copy with `1 <= length <= offset <= W`
(30_encoding.md R94, 41_window_matcher.md R124, R125). -/
def Canonical (t : Token) : Prop :=
  (t.off = 0 ∧ t.len = 0) ∨ (1 ≤ t.len ∧ t.len ≤ t.off ∧ t.off ≤ Config.W)

/-- The container of a token list: its six-byte layouts and nothing else (30_encoding.md R83). -/
def containerOf (ts : List Token) : List Byte := ts.flatMap packToken

/-- A byte space lists exactly these bytes from index 0. -/
def Holds (mem : Memory) (bs : List Byte) : Prop := ∀ a, Memory.read mem a = bs[a]?

/-- WIN at `pos`: slot `j mod W` holds `SYM[j]` for every `j` with `pos -. W <= j < pos`, and a slot no such `j`
maps to is invalid (10_state.md R38). -/
def WinHolds (W : Nat) (win : Store Symbol) (sym : List Symbol) (pos : Nat) : Prop :=
  (∀ j, pos - W ≤ j → j < pos → Store.read win (j % W) = sym[j]?) ∧
  (∀ k, (∀ j, pos - W ≤ j → j < pos → j % W ≠ k) → Store.read win k = none)

/-- HIST at `n`: slot `j mod HCAP` holds `OUTS[j]` for every `j` with `n -. HCAP <= j < n`
(10_state.md R39). -/
def HistHolds (hist : Store Symbol) (outs : List Symbol) (n : Nat) : Prop :=
  ∀ j, n - Config.HCAP ≤ j → j < n → Store.read hist (j % Config.HCAP) = outs[j]?

/-- The four sparse stores keep their canonical form. -/
def StoresWf (s : State) : Prop :=
  Memory.wf s.ibuf = true ∧ Memory.wf s.obuf = true ∧ Store.wf s.win = true ∧ Store.wf s.hist = true

/-- STATUS, ERR, OUT_LEN and the operation in progress agree (10_state.md R32, R33, R35, 70_reset_and_hazards.md
R279). -/
def OutcomeOk (s : State) : Prop :=
  (s.status = .busy ↔ s.stage ≠ .idle) ∧ (s.status = .failed ↔ s.err ≠ .none) ∧
  (s.status ≠ .done → s.stage ≠ .closing → s.outLen = 0)

/-- DECODE after ingestion and the check: WORDS is the input in words, three per token
(42_token_codec.md R143 to R145). -/
def WordsIn (s : State) : Prop :=
  s.cmd = 2 ∧ s.sym = symbolsOf (inputBytes s) ∧ s.nwords = s.sym.length ∧
  s.nwords % Config.TRIPLE = 0 ∧ s.m = s.nwords / Config.TRIPLE

/-- ENCODE after SYMRD: SYM is the input in symbols (40_symbol_io.md R100). -/
def SymbolsIn (s : State) : Prop :=
  s.cmd = 1 ∧ s.sym = symbolsOf (inputBytes s) ∧ s.nsym = s.sym.length

/-- The emitted tokens cover the symbols before `pos`: `pos` is the sum of `length + 1`, they replay to
`SYM[0 .. pos)`, and at `pos = nsym` their number is at most `nsym` and at least `nsym / (W + 1)` rounded up
(41_window_matcher.md R127). -/
def CoversPrefix (s : State) (ts : List Token) : Prop :=
  (ts.map (fun t => t.len + 1)).sum = s.pos ∧ s.nsym = s.sym.length ∧
  replay [] ts = some (s.sym.take s.pos) ∧
  (s.pos = s.nsym → ts.length ≤ s.nsym ∧ s.nsym ≤ ts.length * (Config.W + 1))

/-- The result of a finished ENCODE: a container of canonical tokens that replay to SYM
(70_reset_and_hazards.md R279, 42_token_codec.md R142, 41_window_matcher.md R127). -/
def EncodeDone (s : State) : Prop :=
  s.cmd = 1 ∧ s.pos = s.nsym ∧ s.nsym = s.sym.length ∧ s.oddOut = BitVec.ofNat 1 (s.opLen % 2) ∧
  ∃ ts : List Token, (∀ t ∈ ts, Canonical t) ∧ replay [] ts = some s.sym ∧
    s.wcnt = Config.TRIPLE * ts.length ∧ s.outLen = 2 * s.wcnt ∧ Holds s.obuf (containerOf ts)

/-- The result of a finished DECODE: the bytes of the symbols the token stream replays to
(70_reset_and_hazards.md R279, 40_symbol_io.md R102, R103). -/
def DecodeDone (s : State) : Prop :=
  s.cmd = 2 ∧ s.tpc = s.m ∧ 1 ≤ s.m ∧ s.m ≤ s.n ∧ s.outs.length = s.n ∧
  replay [] (tokensOf s.sym) = some s.outs ∧
  s.outLen = decodedLength s.n s.opOdd ∧ Holds s.obuf (bytesOf s.outs)

/-- What holds when a stage is about to run. -/
def StageOk (s : State) : Prop :=
  match s.stage with
  | .idle => s.status = .done → s.tokq = [] ∧ (EncodeDone s ∨ DecodeDone s)
  | .symrd =>
    s.cmd = 1 ∧ s.sym = [] ∧ s.tokq = [] ∧ s.pos = 0 ∧ s.wcnt = 0 ∧ s.obuf = [] ∧ s.win = []
  | .matching =>
    SymbolsIn s ∧ s.pos ≤ s.nsym ∧ s.wcnt = 0 ∧ s.obuf = [] ∧ WinHolds Config.W s.win s.sym s.pos ∧
    (∀ t ∈ s.tokq, Canonical t) ∧ replay [] s.tokq = some (s.sym.take s.pos)
  | .serializing =>
    SymbolsIn s ∧ s.pos = s.nsym ∧
    ∃ written : List Token, s.wcnt = Config.TRIPLE * written.length ∧ Holds s.obuf (containerOf written) ∧
      (∀ t ∈ written ++ s.tokq, Canonical t) ∧ replay [] (written ++ s.tokq) = some s.sym
  | .tokdes =>
    s.cmd = 2 ∧ s.tokq = [] ∧ s.outs = [] ∧ s.n = 0 ∧ s.tpc = 0 ∧ s.obuf = [] ∧ s.hist = []
  | .degroup =>
    WordsIn s ∧ s.tokq = [] ∧ s.outs = [] ∧ s.n = 0 ∧ s.tpc = 0 ∧ s.obuf = [] ∧ s.hist = []
  | .reconstruct =>
    WordsIn s ∧ 1 ≤ s.m ∧ s.tpc ≤ s.m ∧ s.tpc ≤ s.n ∧ s.outs.length = s.n ∧ s.obuf = [] ∧
    HistHolds s.hist s.outs s.n ∧ s.tokq = (tokensOf s.sym).drop s.tpc ∧
    replay [] ((tokensOf s.sym).take s.tpc) = some s.outs
  | .symwr =>
    WordsIn s ∧ 1 ≤ s.m ∧ s.tpc = s.m ∧ s.m ≤ s.n ∧ s.outs.length = s.n ∧ s.obuf = [] ∧ s.tokq = [] ∧
    replay [] (tokensOf s.sym) = some s.outs
  | .closing => s.tokq = [] ∧ DecodeDone s

/-- The invariant between steps. -/
def Inv (s : State) : Prop := StoresWf s ∧ OutcomeOk s ∧ StageOk s

/-- What the host can observe of an operation (45_operations.md R205): STATUS, ERR, OUT_LEN, and in DONE the
bytes of the result. -/
structure Observed where
  status : Status
  err : Err
  outLen : Nat
  result : List Byte
  deriving DecidableEq, Repr

/-- The observation of a state; no result before DONE (20_memory.md R55). -/
def observe (s : State) : Observed where
  status := s.status
  err := s.err
  outLen := s.outLen
  result := if s.status = .done then resultBytes s else []

/-- `k` steps of the machine, stopping at a fault or a refusal. -/
def runSteps : Nat → State → Result
  | 0, s => .next s
  | k + 1, s =>
    match step s with
    | .next t => runSteps k t
    | .fault r => .fault r
    | .refused r => .refused r

/-- The host's set-up before a command (70_reset_and_hazards.md R265, R266): the whole input in IBUF, its length
in IN_LEN, ODD_IN; nothing further in the inbox. -/
def hostSetup (input : List Byte) (odd : BitVec 1) (s : State) : State :=
  { s with ibuf := Memory.writeList s.ibuf 0 input, inLen := input.length, oddIn := odd, inbox := [] }

/-- The set-up as host actions: the input byte by byte in increasing index order, IN_LEN, ODD_IN
(70_reset_and_hazards.md R265, R266). -/
def setupActions (input : List Byte) (odd : BitVec 1) : List HostAct :=
  input.zipIdx.map (fun e => .writeIbuf e.2 e.1) ++ [.writeInLen input.length, .writeOddIn odd]

/-- The set-up followed by the write of a command code as the host's next action. -/
def hostCommand (code : BitVec 2) (input : List Byte) (odd : BitVec 1) (s : State) : State :=
  { hostSetup input odd s with inbox := [.writeCmd code] }

end Sys2Proof.Machine
end

