-- ==== Sys2Proof/Certificates/Slice0/Obligations.lean ====
section
/-! DEFINITION. The statements for the provers, in the order of OBLIGATIONS.json. Where a statement rests on a
convention of the model, its docstring names the log entry. -/

open Sys2Proof Sys2Proof.Machine

/-! ### Encoding -/

/-- Decoding an instruction's encoding gives the instruction back, for every instruction that has an encoding
(30_encoding.md R81, R82, R86, R90). -/
def Obligations.DecodeOfEncode : Prop :=
  ∀ (i : Instr) (e : Encoded), i.wf = true → encode i = some e → decode e = .ok i

/-- Each encoding that decodes has one meaning: it decodes to a well-formed instruction whose encoding it is. -/
def Obligations.EncodeOfDecode : Prop :=
  ∀ (e : Encoded) (i : Instr), decode e = .ok i → i.wf = true ∧ encode i = some e

/-- 30_encoding.md R86: the six bytes of a token decode by offset and length alone into exactly one of the four
classes. -/
def Obligations.TokenClassByOffsetAndLength : Prop :=
  ∀ off len lit : Symbol,
    (off = 0 → len = 0 → decode (.container (tokenBytes off len lit)) = .ok (.lit lit)) ∧
    (off ≠ 0 → len ≠ 0 → decode (.container (tokenBytes off len lit)) = .ok (.copy off len lit)) ∧
    (off = 0 → len ≠ 0 → decode (.container (tokenBytes off len lit)) = .ok (.rsv0 len lit)) ∧
    (off ≠ 0 → len = 0 → decode (.container (tokenBytes off len lit)) = .ok (.rsvl0 off lit))

/-- A few words written out from 30_encoding.md R82 and R90: R82's own example, one word of each class, and the
command codes. -/
def Obligations.WrittenOutWordsDecode : Prop :=
  decode (.container [0x00, 0x03, 0x00, 0x02, 0x62, 0x64]) = .ok (.copy 3 2 0x6264) ∧
  decode (.container [0x00, 0x00, 0x00, 0x00, 0x41, 0x00]) = .ok (.lit 0x4100) ∧
  decode (.container [0x00, 0x00, 0x00, 0x03, 0x00, 0x41]) = .ok (.rsv0 3 0x0041) ∧
  decode (.container [0x0F, 0xA0, 0x00, 0x00, 0x77, 0x78]) = .ok (.rsvl0 4000 0x7778) ∧
  decode (.command 1) = .ok .encode ∧ decode (.command 2) = .ok .decode ∧
  decode (.command 0) = .ok (.cmdRsv 0) ∧ decode (.command 3) = .ok (.cmdRsv 3)

/-- 30_encoding.md R80: a token is exactly six bytes; any other number is rejected by name. -/
def Obligations.OtherByteCountsRejected : Prop :=
  ∀ bs : List Byte,
    (bs.length < 6 → decode (.container bs) = .error (.truncated bs.length)) ∧
    (6 < bs.length → decode (.container bs) = .error (.trailing (bs.length - 6)))

/-! ### The step -/

/-- 44_reconstructor.md R176: in the reconstruction the step runs the instruction that the head token's six bytes
decode to, on the state with that token latched and taken off the queue.
(A field above 65535, which 20_memory.md R53 gives no DECODE, is fetched by its low 16 bits: notes/assumptions/29.md.
The reconstruction stage and one token per step: 14.md.) -/
def Obligations.StepRunsQueuedToken : Prop :=
  ∀ (s : State) (t : Token) (rest : List Token) (i : Instr),
    s.inbox = [] → s.stage = .reconstruct → s.tpc < s.m → s.tokq = t :: rest →
    decode (.container (packToken t)) = .ok i →
    step s = exec i { s with tOff := fieldWord t.off, tLen := fieldWord t.len, tLit := t.lit, tokq := rest }

/-- 10_state.md R25, 30_encoding.md R83, R84: in every state of the invariant, the token the step runs is the one
the container's bytes 6*tpc to 6*tpc + 5 decode to, an odd container read with its zero pad byte.
(The reconstruction stage and one token per step: notes/assumptions/14.md.) -/
def Obligations.StepRunsContainerBytesAtTpc : Prop :=
  ∀ (s : State) (i : Instr) (rest : List Byte),
    Inv s → s.inbox = [] → s.stage = .reconstruct → s.tpc < s.m →
    decodeBytes ((inputBytes s ++ List.replicate (s.opLen % 2) 0).drop (6 * s.tpc)) = .ok (i, rest) →
    ∃ t : State, step s = exec i t ∧
      t = { s with tOff := t.tOff, tLen := t.tLen, tLit := t.tLit, tokq := s.tokq.tail } ∧
      i = classify t.tOff t.tLen t.tLit

/-- 10_state.md R31: a host write of CMD runs the command it encodes, in the state without that action.
(The inbox is notes/assumptions/1.md.) -/
def Obligations.StepRunsHostCommand : Prop :=
  ∀ (s : State) (code : BitVec 2) (rest : List HostAct) (i : Instr),
    s.inbox = .writeCmd code :: rest → decode (.command code) = .ok i →
    step s = exec i { s with inbox := rest }

/-- 45_operations.md R201, R203: with no host action waiting, each stage runs its instruction and hands over to
the next stage unless it raised; the loops of MATCH, TOKSER and the reconstructor leave by a step of their own
(the split into steps is the model's, notes/assumptions/14.md). -/
def Obligations.StagesRunInOrder : Prop :=
  ∀ s : State, s.inbox = [] →
    (s.stage = .symrd → step s = thenStage .matching (exec .symrd s)) ∧
    (s.stage = .matching → s.pos < s.nsym → step s = exec .matcher s) ∧
    (s.stage = .matching → s.nsym ≤ s.pos → step s = .next { s with stage := .serializing }) ∧
    (s.stage = .serializing → s.tokq ≠ [] → step s = exec .tokser s) ∧
    (s.stage = .tokdes → step s = thenStage .degroup (exec .tokdes s)) ∧
    (s.stage = .degroup → step s = thenStage .reconstruct (exec .degroup s)) ∧
    (s.stage = .reconstruct → s.m ≤ s.tpc → step s = .next { s with stage := .symwr }) ∧
    (s.stage = .symwr → step s = thenStage .closing (exec .symwr s))

/-- 45_operations.md R201 (its last three statements), 42_token_codec.md R142, 10_state.md R36: when TOKSER has
consumed every token, OUT_LEN is twice the word count, ODD_OUT the parity of the input length, STATUS DONE. When
SYMWR has run, a DECODE writes STATUS only (R203).
(The stages are notes/assumptions/14.md, the latched length 10.md.) -/
def Obligations.CompletionWritesResultRegisters : Prop :=
  ∀ s : State, s.inbox = [] →
    (s.stage = .serializing → s.tokq = [] →
      step s = .next { s with outLen := 2 * s.wcnt, oddOut := BitVec.ofNat 1 (s.opLen % 2),
                              status := .done, stage := .idle }) ∧
    (s.stage = .closing → step s = .next { s with status := .done, stage := .idle })

/-- 60_exceptions.md R241, in the model's form: with no operation in progress and no host action a step changes
nothing (a step that changes nothing is the model's choice, notes/assumptions/15.md).
(The idle stage: notes/assumptions/14.md.) -/
def Obligations.IdleEngineWaitsForCommand : Prop :=
  ∀ (s : State) (k : Nat), s.inbox = [] → s.stage = .idle → runSteps k s = .next s

/-! ### Tokens -/

/-- 44_reconstructor.md R177: LIT appends its literal in every state, advances `n` and `tpc` by 1, and changes
nothing else (HIST follows OUTS); and with `n = 0` every token of the other three classes raises.
(What a raise leaves as it was: notes/assumptions/17.md, 31.md; the idle stage after it: 14.md.)
(HIST: 10_state.md R39, notes/assumptions/23.md. The raises: R178, R182, R183.) -/
def Obligations.LitAppendsLiteral : Prop :=
  (∀ (x : Symbol) (s : State), exec (.lit x) s = .next { s with
    outs := s.outs ++ [x], hist := Store.write s.hist (s.n % Config.HCAP) x,
    n := s.n + 1, tpc := s.tpc + 1 }) ∧
  (∀ (d l x : Symbol) (s : State), s.n = 0 →
    ((Instr.copy d l x).wf = true → exec (.copy d l x) s = .next (raise .invalidBackReference s)) ∧
    ((Instr.rsvl0 d x).wf = true → exec (.rsvl0 d x) s = .next (raise .invalidBackReference s)) ∧
    exec (.rsv0 l x) s = .next (raise .invalidBackReference s))

/-- 44_reconstructor.md R178 to R181: a COPY with `1 <= d <= n` completes: `start` is `n - d`, it appends
`l + 1` symbols, the k-th copied one equal to the symbol `d` behind it in the buffer as it then is, equally the
one at `start + (k mod d)` before the token, then the literal; `tpc` advances by 1. Nothing else changes but HIST
and the copy counter.
(The closed form by `k mod d` is R181, the spec's own inference. The raise for `d > n` is another statement.) -/
def Obligations.CopyAppendsPeriodThenLiteral : Prop :=
  ∀ (d l x : Symbol) (s : State), (Instr.copy d l x).wf = true → s.outs.length = s.n → d.toNat ≤ s.n →
    ∃ t : State, exec (.copy d l x) s = .next t ∧
      t = { s with outs := t.outs, hist := t.hist, n := s.n + l.toNat + 1, start := s.n - d.toNat,
                   i := t.i, tpc := s.tpc + 1 } ∧
      t.outs.length = t.n ∧ s.outs <+: t.outs ∧
      (∀ k, k < l.toNat → t.outs[s.n + k]? = t.outs[s.n - d.toNat + k]?) ∧
      (∀ k, k < l.toNat → t.outs[s.n + k]? = s.outs[s.n - d.toNat + k % d.toNat]?) ∧
      t.outs[s.n + l.toNat]? = some x

/-- 44_reconstructor.md R178: an offset beyond the cursor raises InvalidBackReference before anything is
appended, whatever the length; any other gives `start = n - t_off` and raises nothing.
(What a raise leaves as it was: notes/assumptions/17.md, 31.md; the idle stage after it: 14.md.) -/
def Obligations.CopyOffsetIsCheckedAgainstCursor : Prop :=
  ∀ (d l x : Symbol) (s : State), (Instr.copy d l x).wf = true →
    (s.n < d.toNat → exec (.copy d l x) s = .next { s with
      err := .invalidBackReference, status := .failed, outLen := 0, stage := .idle }) ∧
    (d.toNat ≤ s.n → s.outs.length = s.n → ∃ t : State, exec (.copy d l x) s = .next t ∧
      t.start = s.n - d.toNat ∧ t.err = s.err ∧ t.status = s.status)

/-- 44_reconstructor.md R181, the source's example: COPY 1, l, x repeats the last symbol `l` times, then appends
the literal; an overlapping copy reads what it has written (20_memory.md R68). -/
def Obligations.CopyOfDistanceOneRepeatsSymbol : Prop :=
  ∀ (l x a : Symbol) (before : List Symbol) (s : State),
    s.outs = before ++ [a] → s.outs.length = s.n →
    ∃ t : State, exec (.copy 1 l x) s = .next t ∧
      t.outs = before ++ List.replicate (l.toNat + 1) a ++ [x]

/-- 44_reconstructor.md R182: RSV0 raises InvalidBackReference in any state and appends nothing.
(What a raise leaves as it was: notes/assumptions/17.md, 31.md; the idle stage after it: 14.md.) -/
def Obligations.ReservedZeroOffsetRaises : Prop :=
  ∀ (l x : Symbol) (s : State), exec (.rsv0 l x) s = .next { s with
    err := .invalidBackReference, status := .failed, outLen := 0, stage := .idle }

/-- 44_reconstructor.md R183: RSVL0 checks the offset, copies nothing, and appends the literal.
(What a raise leaves as it was: notes/assumptions/17.md, 31.md; the idle stage after it: 14.md.) -/
def Obligations.ReservedZeroLengthChecksAndAppends : Prop :=
  ∀ (d x : Symbol) (s : State), (Instr.rsvl0 d x).wf = true →
    (s.n < d.toNat → exec (.rsvl0 d x) s = .next (raise .invalidBackReference s)) ∧
    (d.toNat ≤ s.n → ∃ t : State, exec (.rsvl0 d x) s = .next t ∧
      t = { s with outs := s.outs ++ [x], hist := t.hist, n := s.n + 1, start := s.n - d.toNat,
                   i := t.i, tpc := s.tpc + 1 })

/-- 20_memory.md R54: OUTS is append-only; every instruction but an accepted command leaves every element of it
where it was.
(What a raise leaves as it was: notes/assumptions/17.md.) -/
def Obligations.OutputIsAppendOnly : Prop :=
  ∀ (i : Instr) (s t : State), i ≠ .encode → i ≠ .decode → exec i s = .next t → s.outs <+: t.outs

/-- 10_state.md R39: the circular history gives the symbol `d` behind the cursor for every offset a token can
express, and an append keeps it so.
(HIST beside OUTS: notes/assumptions/23.md. What a raise leaves as it was: 17.md.) -/
def Obligations.CircularHistoryIsExact : Prop :=
  (∀ (d : Nat) (s : State), HistHolds s.hist s.outs s.n → 1 ≤ d → d ≤ 65535 → d ≤ s.n →
    histRead d s = s.outs[s.n - d]?) ∧
  (∀ (i : Instr) (s t : State), s.outs.length = s.n → HistHolds s.hist s.outs s.n →
    exec i s = .next t → t.outs.length = t.n ∧ HistHolds t.hist t.outs t.n)

/-! ### Commands -/

/-- 70_reset_and_hazards.md R261, 10_state.md R41: an accepted ENCODE empties the internal state and initialises
the registers; the registers R41 calls unspecified are not constrained, IN_LEN, ODD_IN, IBUF are unchanged. The
model's own `opLen`, `opOdd`, `stage`, `fresh` are notes/assumptions/4.md, 10.md, 14.md.
(The emptied OBUF is notes/assumptions/30.md, the cleared counters of the other unit 5.md.) -/
def Obligations.EncodeAcceptanceInitialises : Prop :=
  ∀ s : State, s.status ≠ .busy → withinCap s.inLen = true →
    ∃ t : State, exec .encode s = .next t ∧
      t = { s with
        cmd := 1, status := .busy, err := .none, outLen := 0, oddOut := 0,
        nsym := 0, pos := 0, lo := 0, c := 0, hit := false, off := 0, ml := 0, wcnt := 0, tpc := 0, n := 0,
        sym := [], tokq := [], outs := [], obuf := [], win := [], hist := [],
        lit := t.lit, nwords := t.nwords, m := t.m, tOff := t.tOff, tLen := t.tLen, tLit := t.tLit,
        start := t.start, i := t.i,
        opLen := s.inLen, opOdd := s.oddIn, stage := .symrd, fresh := t.fresh }

/-- 70_reset_and_hazards.md R261, 10_state.md R41: the same for DECODE, which leaves ODD_OUT unchanged.
(The emptied OBUF is notes/assumptions/30.md, the cleared counters of the other unit 5.md.)
(The first stage, the latches and the free values: notes/assumptions/14.md, 10.md, 4.md.) -/
def Obligations.DecodeAcceptanceInitialises : Prop :=
  ∀ s : State, s.status ≠ .busy → withinCap s.inLen = true →
    ∃ t : State, exec .decode s = .next t ∧
      t = { s with
        cmd := 2, status := .busy, err := .none, outLen := 0,
        pos := 0, wcnt := 0, tpc := 0, n := 0,
        sym := [], tokq := [], outs := [], obuf := [], win := [], hist := [],
        nsym := t.nsym, lo := t.lo, c := t.c, hit := t.hit, off := t.off, ml := t.ml,
        lit := t.lit, nwords := t.nwords, m := t.m, tOff := t.tOff, tLen := t.tLen, tLit := t.tLit,
        start := t.start, i := t.i,
        opLen := s.inLen, opOdd := s.oddIn, stage := .tokdes, fresh := t.fresh }

/-- 45_operations.md R207: a write of 1 or 2 is accepted while not BUSY (IN_LEN within the capacity) and starts
its operation; while BUSY it is ignored, as is a write of 0 or 3 at any time.
(The first stage is notes/assumptions/14.md, the action taken off the inbox 1.md.) -/
def Obligations.CommandAcceptedOrIgnored : Prop :=
  (∀ (s : State) (code : BitVec 2), (Instr.cmdRsv code).wf = true → exec (.cmdRsv code) s = .next s) ∧
  ∀ (s : State) (code : BitVec 2) (rest : List HostAct), s.inbox = .writeCmd code :: rest →
    (code = 1 → s.status ≠ .busy → withinCap s.inLen = true →
      ∃ t : State, step s = .next t ∧ t.status = .busy ∧ t.cmd = 1 ∧ t.stage = .symrd) ∧
    (code = 2 → s.status ≠ .busy → withinCap s.inLen = true →
      ∃ t : State, step s = .next t ∧ t.status = .busy ∧ t.cmd = 2 ∧ t.stage = .tokdes) ∧
    (s.status = .busy → step s = .next { s with inbox := rest }) ∧
    (code = 0 ∨ code = 3 → step s = .next { s with inbox := rest })

/-! ### Symbol input and output -/

/-- 40_symbol_io.md R100, R101, 20_memory.md R57, R60: SYMRD completes, writes SYM and `nsym` alone,
`nsym = ceil(IN_LEN / 2)`, each pair of bytes big-endian, an odd tail padded with a zero low byte; and the padding
is lossy: an odd input and the same input with a zero byte after it give the same symbols. -/
def Obligations.SymrdPairsBytes : Prop :=
  (∀ s : State, ∃ t : State, exec .symrd s = .next t ∧
    t = { s with sym := t.sym, nsym := (s.opLen + 1) / 2 } ∧
    t.sym.length = t.nsym ∧
    (∀ j, 2 * j + 1 < s.opLen → t.sym[j]? = some (ibufByte s (2 * j) ++ ibufByte s (2 * j + 1))) ∧
    (∀ j, 2 * j + 1 = s.opLen → t.sym[j]? = some (ibufByte s (2 * j) ++ (0 : Byte)))) ∧
  (∀ bs : List Byte, bs.length % 2 = 1 → symbolsOf bs = symbolsOf (bs ++ [0]))

/-- 40_symbol_io.md R104: symbols back to bytes, cut by the odd bit, is the identity. -/
def Obligations.SymbolsToBytesInvertsBytesToSymbols : Prop :=
  ∀ bs : List Byte,
    (bytesOf (symbolsOf bs)).take
      (decodedLength (symbolsOf bs).length (BitVec.ofNat 1 (bs.length % 2))) = bs

/-- 40_symbol_io.md R102, R103: SYMWR completes, writes the two bytes of each symbol, high byte first, and
`OUT_LEN = 2n -. ODD_IN`; every other byte of OBUF and every other field is as before. -/
def Obligations.SymwrWritesBytePairs : Prop :=
  ∀ s : State, s.outs.length = s.n →
    ∃ t : State, exec .symwr s = .next t ∧
      t = { s with obuf := t.obuf, outLen := 2 * s.n - s.opOdd.toNat } ∧
      (∀ j v, s.outs[j]? = some v →
        Memory.read t.obuf (2 * j) = some (v.extractLsb' 8 8) ∧
        Memory.read t.obuf (2 * j + 1) = some (v.extractLsb' 0 8)) ∧
      (∀ a, 2 * s.n ≤ a → Memory.read t.obuf a = Memory.read s.obuf a) ∧
      (∀ a, Memory.read t.ibuf a = Memory.read s.ibuf a)

/-! ### Window matcher -/

/-- 41_window_matcher.md R111, R118, R121: at the last symbol MATCH emits a literal without a search.
(That `lo` and `c` are left alone: notes/assumptions/16.md.)
(The WIN write: 10_state.md R38, notes/assumptions/23.md.) -/
def Obligations.LastSymbolIsEmittedAsLiteral : Prop :=
  ∀ (s : State) (x : Symbol), s.pos < s.nsym → s.pos = s.nsym - 1 → s.sym[s.pos]? = some x →
    exec .matcher s = .next { s with
      hit := false, off := 0, ml := 0, lit := x, tokq := s.tokq ++ [⟨0, 0, x⟩],
      pos := s.nsym, win := Store.write s.win (s.pos % 4000) x }

/-- 41_window_matcher.md R112, R113, R118, R121: where no candidate of the window equals the symbol, MATCH emits a
literal and advances by 1 (`c` ends the scan at `pos`, notes/assumptions/16.md).
(The WIN write: 10_state.md R38, notes/assumptions/23.md.) -/
def Obligations.NoCandidateEmitsLiteral : Prop :=
  ∀ (s : State) (x : Symbol), s.pos < s.nsym - 1 → s.sym[s.pos]? = some x →
    (∀ j, s.pos - 4000 ≤ j → j < s.pos → s.sym[j]? ≠ some x) →
    exec .matcher s = .next { s with
      lo := s.pos - 4000, c := s.pos, hit := false, off := 0, ml := 0, lit := x,
      tokq := s.tokq ++ [⟨0, 0, x⟩], pos := s.pos + 1, win := Store.write s.win (s.pos % 4000) x }

/-- 41_window_matcher.md R113, R115, R116, R117, R122: the oldest equal symbol of the window wins; `ml` is the
least length from 1 at which one of the three conditions fails; the token carries the symbol after the run; `pos`
advances by `ml + 1`.
(The advance past the literal is R122, the spec's own inference.) -/
def Obligations.OldestCandidateIsMatchedGreedily : Prop :=
  ∀ (s : State) (x : Symbol) (cand : Nat), s.nsym = s.sym.length → s.pos < s.nsym - 1 →
    s.sym[s.pos]? = some x → s.pos - 4000 ≤ cand → cand < s.pos → s.sym[cand]? = some x →
    (∀ j, s.pos - 4000 ≤ j → j < cand → s.sym[j]? ≠ some x) →
    ∃ (len : Nat) (y : Symbol) (t : State),
      1 ≤ len ∧
      (∀ k, 1 ≤ k → k < len →
        cand + k < s.pos ∧ s.pos + k < s.nsym - 1 ∧ s.sym[s.pos + k]? = s.sym[cand + k]?) ∧
      ¬ (cand + len < s.pos ∧ s.pos + len < s.nsym - 1 ∧ s.sym[s.pos + len]? = s.sym[cand + len]?) ∧
      s.sym[s.pos + len]? = some y ∧
      exec .matcher s = .next t ∧
      t = { s with
        lo := s.pos - 4000, c := cand, hit := true, off := s.pos - cand, ml := len, lit := y,
        tokq := s.tokq ++ [⟨s.pos - cand, len, y⟩], pos := s.pos + len + 1, win := t.win }

/-- 41_window_matcher.md R124, R125, R123: the token a MATCH step emits is a literal or has
`1 <= off <= min(W, pos)` and `1 <= ml <= off`, `ml <= nsym - 1 - pos`; the step ends at most at `nsym`.
(The length bound R125 and the end bound R123 are the spec's own inferences.) -/
def Obligations.EmittedTokenBounds : Prop :=
  ∀ s : State, s.nsym = s.sym.length → s.pos < s.nsym →
    ∃ (t : State) (tok : Token), exec .matcher s = .next t ∧ t.tokq = s.tokq ++ [tok] ∧
      (tok.off = 0 ∧ tok.len = 0 ∨
        1 ≤ tok.off ∧ tok.off ≤ 4000 ∧ tok.off ≤ s.pos ∧
        1 ≤ tok.len ∧ tok.len ≤ tok.off ∧ tok.len ≤ s.nsym - 1 - s.pos) ∧
      t.pos = s.pos + tok.len + 1 ∧ t.pos ≤ s.nsym

/-- 41_window_matcher.md R114: the content-addressed search of WIN selects the candidate that the oldest-to-newest
scan of SYM finds, or none when the scan finds none. -/
def Obligations.ContentAddressedSearchEqualsScan : Prop :=
  ∀ (sym : List Symbol) (win : Store Symbol) (pos : Nat) (x : Symbol),
    Store.wf win = true → pos ≤ sym.length → WinHolds 4000 win sym pos →
    camSearch 4000 pos win x = search sym x (pos - 4000) (pos - (pos - 4000))

/-- 10_state.md R38: WIN holds the window of `pos` after every MATCH step if it did before, in canonical form. -/
def Obligations.WindowStoreFollowsPos : Prop :=
  ∀ s t : State, s.nsym = s.sym.length → s.pos ≤ s.nsym → WinHolds 4000 s.win s.sym s.pos →
    Store.wf s.win = true → exec .matcher s = .next t →
    WinHolds 4000 t.win t.sym t.pos ∧ Store.wf t.win = true

/-- 41_window_matcher.md R127: in every state of the invariant in which the matcher runs or has run, the tokens
emitted so far cover exactly the symbols before `pos`, and at `pos = nsym` their number is within R127's bounds
(`CoversPrefix`). The tokens are those of TOKQ while the matcher runs; those already in the container followed by
TOKQ while TOKSER runs; those of the container when the ENCODE is done. The stages are notes/assumptions/14.md. -/
def Obligations.EmittedTokensCoverInput : Prop :=
  ∀ s : State, Inv s →
    (s.stage = .matching → CoversPrefix s s.tokq) ∧
    (s.stage = .serializing → s.pos = s.nsym ∧ ∃ written : List Token,
      s.wcnt = 3 * written.length ∧ Holds s.obuf (containerOf written) ∧ CoversPrefix s (written ++ s.tokq)) ∧
    (s.status = .done → s.cmd = 1 → s.pos = s.nsym ∧ ∃ written : List Token,
      s.outLen = 6 * written.length ∧ Holds s.obuf (containerOf written) ∧ CoversPrefix s written)

/-! ### Token codec -/

/-- 42_token_codec.md R140, 30_encoding.md R82: TOKSER completes on a token that fits, appends its six big-endian
bytes at `2 * wcnt`, adds 3 to `wcnt`, takes the token off TOKQ; every other byte and field is as before. -/
def Obligations.TokserAppendsSixBytes : Prop :=
  ∀ (s : State) (tok : Token) (rest : List Token), s.tokq = tok :: rest → tok.off ≤ 65535 → tok.len ≤ 65535 →
    ∃ t : State, exec .tokser s = .next t ∧
      t = { s with obuf := t.obuf, wcnt := s.wcnt + 3, tokq := rest } ∧
      Memory.read t.obuf (2 * s.wcnt) = some (BitVec.ofNat 8 (tok.off / 256)) ∧
      Memory.read t.obuf (2 * s.wcnt + 1) = some (BitVec.ofNat 8 (tok.off % 256)) ∧
      Memory.read t.obuf (2 * s.wcnt + 2) = some (BitVec.ofNat 8 (tok.len / 256)) ∧
      Memory.read t.obuf (2 * s.wcnt + 3) = some (BitVec.ofNat 8 (tok.len % 256)) ∧
      Memory.read t.obuf (2 * s.wcnt + 4) = some (BitVec.ofNat 8 (tok.lit.toNat / 256)) ∧
      Memory.read t.obuf (2 * s.wcnt + 5) = some (BitVec.ofNat 8 (tok.lit.toNat % 256)) ∧
      (∀ a, a < 2 * s.wcnt ∨ 2 * s.wcnt + 6 ≤ a → Memory.read t.obuf a = Memory.read s.obuf a) ∧
      (∀ a, Memory.read t.ibuf a = Memory.read s.ibuf a)

/-- 42_token_codec.md R141: a token with a field above 65535 raises EncodingOverflow and no byte of it is
written; any other token is accepted.
(What a raise leaves as it was: notes/assumptions/17.md, 31.md; the idle stage after it: 14.md.) -/
def Obligations.TokserRejectsWideFields : Prop :=
  ∀ (s : State) (tok : Token) (rest : List Token), s.tokq = tok :: rest →
    (65535 < tok.off ∨ 65535 < tok.len →
      exec .tokser s = .next { s with
        err := .encodingOverflow, status := .failed, outLen := 0, stage := .idle }) ∧
    (tok.off ≤ 65535 → tok.len ≤ 65535 →
      ∃ t : State, exec .tokser s = .next t ∧ t.err = s.err ∧ t.status = s.status ∧ t.wcnt = s.wcnt + 3)

/-- 41_window_matcher.md R110, R123: at `pos = nsym` MATCH performs no step; with an empty TOKQ there is no token
for TOKSER (notes/assumptions/21.md). -/
def Obligations.FinishedLoopsChangeNothing : Prop :=
  ∀ s : State, (s.nsym ≤ s.pos → exec .matcher s = .next s) ∧ (s.tokq = [] → exec .tokser s = .next s)

/-- 42_token_codec.md R143, R144, R145: TOKDES writes WORDS as SYMRD writes SYM, `nwords = ceil(IN_LEN / 2)`; it
passes exactly when IN_LEN mod 6 is 0 or 5, with `m = nwords / 3`, and raises MalformedContainer otherwise.
(What a raise leaves as it was: notes/assumptions/17.md, 31.md; the idle stage after it: 14.md.) -/
def Obligations.TokdesIngestsThenChecksLength : Prop :=
  ∀ s : State, ∃ t : State, exec .tokdes s = .next t ∧
    t.nwords = (s.opLen + 1) / 2 ∧ t.sym.length = t.nwords ∧
    (∀ j, 2 * j + 1 < s.opLen → t.sym[j]? = some (ibufByte s (2 * j) ++ ibufByte s (2 * j + 1))) ∧
    (∀ j, 2 * j + 1 = s.opLen → t.sym[j]? = some (ibufByte s (2 * j) ++ (0 : Byte))) ∧
    (s.opLen % 6 = 0 ∨ s.opLen % 6 = 5 →
      t = { s with sym := t.sym, nwords := t.nwords, m := t.nwords / 3 } ∧ t.nwords % 3 = 0) ∧
    (¬ (s.opLen % 6 = 0 ∨ s.opLen % 6 = 5) →
      t = { s with sym := t.sym, nwords := t.nwords, err := .malformedContainer, status := .failed,
                   outLen := 0, stage := .idle } ∧ t.nwords % 3 ≠ 0)

/-- 42_token_codec.md R146: the container of tokens whose fields fit a word, ingested and degrouped, gives the
tokens back. -/
def Obligations.ContainerGivesTokensBack : Prop :=
  ∀ ts : List Token, (∀ t ∈ ts, t.off ≤ 65535 ∧ t.len ≤ 65535) →
    tokensOf (symbolsOf (containerOf ts)) = ts ∧ (containerOf ts).length = 6 * ts.length

/-! ### Degrouper -/

/-- 43_degrouper.md R160: DEGROUP on `m >= 1` tokens completes; TOKQ is the `m` tokens, token `k` the words `3k`,
`3k + 1`, `3k + 2`; nothing else changes. -/
def Obligations.DegroupMakesTriples : Prop :=
  ∀ s : State, s.m ≠ 0 → s.sym.length = 3 * s.m →
    ∃ t : State, exec .degroup s = .next t ∧ t = { s with tokq := t.tokq } ∧ t.tokq.length = s.m ∧
      (∀ k a b c, k < s.m → s.sym[3 * k]? = some a → s.sym[3 * k + 1]? = some b → s.sym[3 * k + 2]? = some c →
        t.tokq[k]? = some ⟨a.toNat, b.toNat, c⟩)

/-- 43_degrouper.md R161: DEGROUP of no token raises IrregularTokenStream.
(What a raise leaves as it was: notes/assumptions/17.md, 31.md; the idle stage after it: 14.md.) -/
def Obligations.DegroupOfNothingRaises : Prop :=
  ∀ s : State, s.m = 0 → exec .degroup s = .next { s with
    err := .irregularTokenStream, status := .failed, outLen := 0, stage := .idle }

/-- 43_degrouper.md R162: the lane count is the largest divisor of `m` that is at most 100. -/
def Obligations.LaneCountIsLargestDivisor : Prop :=
  ∀ m : Nat, 1 ≤ m →
    1 ≤ laneCount m ∧ laneCount m ≤ 100 ∧ m % laneCount m = 0 ∧
    ∀ d, 1 ≤ d → d ≤ 100 → m % d = 0 → d ≤ laneCount m

/-- 43_degrouper.md R165, R168: every lane count that divides `m`, with its lanes completing in any order, gives
the tokens of a single lane. -/
def Obligations.LanesAndTheirOrderDoNotMatter : Prop :=
  ∀ (words : List Symbol) (m lanes : Nat) (completion : List Nat),
    words.length = 3 * m → 1 ≤ lanes → m % lanes = 0 → completion.Perm (List.range lanes) →
    degroupWith words m lanes completion = degroupWith words m 1 [0] ∧
    degroupWith words m 1 [0] = some (tokensOf words)

/-- 43_degrouper.md R167: if a lane does not complete, the merge gives no stream at all; a chunk is never
dropped silently.
(The lanes as a list of completed slots: notes/assumptions/24.md.) -/
def Obligations.MissingLaneAbortsMerge : Prop :=
  ∀ (words : List Symbol) (m lanes q : Nat) (completion : List Nat),
    q < lanes → q ∉ completion → degroupWith words m lanes completion = none

/-! ### Errors -/

/-- 10_state.md R28, 60_exceptions.md R230: an instruction executed while BUSY leaves STATUS and ERR alone, or
raises: STATUS FAILED, ERR non-zero, OUT_LEN 0, no stage left to run.
(The stage is notes/assumptions/14.md, the OUT_LEN of a raise 31.md.) -/
def Obligations.BusyInstructionGoesOnOrRaises : Prop :=
  ∀ (i : Instr) (s t : State), s.status = .busy → exec i s = .next t →
    (t.status = .busy ∧ t.err = s.err) ∨
    (t.status = .failed ∧ t.err ≠ .none ∧ t.outLen = 0 ∧ t.stage = .idle)

/-- 60_exceptions.md R220, 10_state.md R33: the codes of the errors, and that each is raised by its own
instructions only. -/
def Obligations.EachErrorHasItsRaisers : Prop :=
  (Err.none.code = 0 ∧ Err.encodingOverflow.code = 1 ∧ Err.malformedContainer.code = 2 ∧
    Err.irregularTokenStream.code = 3 ∧ Err.invalidBackReference.code = 4) ∧
  ∀ (i : Instr) (s t : State), s.err = .none → exec i s = .next t →
    (t.err = .encodingOverflow → i = .tokser) ∧
    (t.err = .malformedContainer → i = .tokdes) ∧
    (t.err = .irregularTokenStream → i = .degroup) ∧
    (t.err = .invalidBackReference →
      (∃ d l x, i = .copy d l x) ∨ (∃ l x, i = .rsv0 l x) ∨ (∃ d x, i = .rsvl0 d x))

/-- 60_exceptions.md R227, 45_operations.md R204: a DECODE whose word count is not a multiple of 3 fails with
MalformedContainer and the empty one with IrregularTokenStream, before any token executes, whatever its bytes;
a DECODE of any other length never fails with either.
Every length is accepted, which rests on the unbounded CAP_BYTES of notes/assumptions/12.md, and the step counts on
the steps of notes/assumptions/14.md. -/
def Obligations.DecodeErrorsFollowPriority : Prop :=
  ∀ (s : State) (input : List Byte) (odd : BitVec 1), s.status ≠ .busy →
    (¬ (input.length % 6 = 0 ∨ input.length % 6 = 5) →
      ∃ t, runSteps 2 (hostCommand 2 input odd s) = .next t ∧ t.status = .failed ∧
        t.err = .malformedContainer ∧ t.outs = [] ∧ t.outLen = 0) ∧
    (input = [] →
      ∃ t, runSteps 3 (hostCommand 2 input odd s) = .next t ∧ t.status = .failed ∧
        t.err = .irregularTokenStream ∧ t.outs = [] ∧ t.outLen = 0) ∧
    (input ≠ [] → (input.length % 6 = 0 ∨ input.length % 6 = 5) →
      ∀ k t, 1 ≤ k → runSteps k (hostCommand 2 input odd s) = .next t →
        t.err = .none ∨ t.err = .invalidBackReference)

/-- 10_state.md R32: STATUS changes only to BUSY by an accepted command, from BUSY to DONE at an operation's end,
from BUSY to FAILED by a raise, and to IDLE by reset; its codes are 0, 1, 2, 3.
(The last step of an operation is known here by its stage, serializing or closing, notes/assumptions/14.md.) -/
def Obligations.StatusTransitions : Prop :=
  (Status.idle.code = 0 ∧ Status.busy.code = 1 ∧ Status.done.code = 2 ∧ Status.failed.code = 3) ∧
  ∀ s t : State, Inv s → step s = .next t → t.status ≠ s.status →
    (t.status = .busy ∧ ∃ code rest, s.inbox = .writeCmd code :: rest ∧ (code = 1 ∨ code = 2)) ∨
    (s.status = .busy ∧ t.status = .done ∧ (s.stage = .serializing ∨ s.stage = .closing)) ∨
    (s.status = .busy ∧ t.status = .failed ∧ t.err ≠ .none) ∨
    (t.status = .idle ∧ ∃ rest, s.inbox = .reset :: rest)

/-! ### Reset and the host port -/

/-- 10_state.md R41, 70_reset_and_hazards.md R264: the machine after reset: the interface registers at their
reset values, no operation, WIN invalid. The invalid WIN
is 70_reset_and_hazards.md R263, the idle stage notes/assumptions/14.md. -/
def Obligations.ResetRegisterValues : Prop :=
  State.reset.cmd = 0 ∧ State.reset.status = .idle ∧ State.reset.err = .none ∧ State.reset.inLen = 0 ∧
  State.reset.outLen = 0 ∧ State.reset.oddIn = 0 ∧ State.reset.oddOut = 0 ∧
  readReg State.reset .window = 4000 ∧ State.reset.stage = .idle ∧ State.reset.win = []

/-- 70_reset_and_hazards.md R260: reset in any state, BUSY included, puts the interface registers to the reset
column and abandons the operation; it is the only step that takes a BUSY engine to IDLE.
The invalid WIN is R263; the inbox and the idle stage are the model's, notes/assumptions/1.md, 14.md. -/
def Obligations.ResetEndsAnyOperation : Prop :=
  (∀ (s : State) (rest : List HostAct), s.inbox = .reset :: rest →
    ∃ t : State, step s = .next t ∧
      t.cmd = 0 ∧ t.status = .idle ∧ t.err = .none ∧ t.inLen = 0 ∧ t.outLen = 0 ∧ t.oddIn = 0 ∧ t.oddOut = 0 ∧
      readReg t .window = 4000 ∧ t.stage = .idle ∧ t.win = [] ∧ t.inbox = rest) ∧
  (∀ s t : State, s.status = .busy → step s = .next t → t.status = .idle → ∃ rest, s.inbox = .reset :: rest)

/-- 10_state.md R37: WINDOW reads as 4000 in every state. 10_state.md R30: WINDOW and the other registers the host
may only read, STATUS, ERR, OUT_LEN and ODD_OUT, are not changed by a host write. That such a write changes nothing
else either is the model's, notes/assumptions/13.md. -/
def Obligations.WindowRegisterIsHardwired : Prop :=
  ∀ s : State, readReg s .window = 4000 ∧
    ∀ (r : ReadOnlyReg) (value : Nat) (rest : List HostAct), s.inbox = .writeReadOnly r value :: rest →
      step s = .next { s with inbox := rest }

/-- 10_state.md R34, R36, 20_memory.md R51: no instruction writes IN_LEN, ODD_IN or IBUF; and only SYMRD, TOKDES
and an accepted command write SYM (R52, R70). The model's latches `opLen`, `opOdd` are written at acceptance
alone.
(What a raise leaves as it was: notes/assumptions/17.md. The latches: 10.md.) -/
def Obligations.InputsAndSymbolsAreReadOnly : Prop :=
  ∀ (i : Instr) (s t : State), exec i s = .next t →
    t.inLen = s.inLen ∧ t.oddIn = s.oddIn ∧ (∀ a, Memory.read t.ibuf a = Memory.read s.ibuf a) ∧
    (i ≠ .symrd → i ≠ .tokdes → i ≠ .encode → i ≠ .decode → t.sym = s.sym) ∧
    (i ≠ .encode → i ≠ .decode → t.opLen = s.opLen ∧ t.opOdd = s.opOdd ∧ t.cmd = s.cmd)

/-- 10_state.md R20, R21, R23: each unit keeps to its own registers. The decoder's instructions leave every
encoder register, WIN and ODD_OUT alone; the encoder's leave every decoder register, OUTS and HIST alone; of all
of these only TOKSER and SYMWR store to OBUF.
(WIN and HIST: R38, R39. OUTS and OBUF: 20_memory.md R54, R55, R56. ODD_OUT: R36. What a raise leaves as it was:
notes/assumptions/17.md.) -/
def Obligations.UnitsKeepToTheirOwnState : Prop :=
  ∀ (i : Instr) (s t : State), exec i s = .next t →
    (((∃ x, i = .lit x) ∨ (∃ d l x, i = .copy d l x) ∨ (∃ l x, i = .rsv0 l x) ∨ (∃ d x, i = .rsvl0 d x) ∨
        i = .tokdes ∨ i = .degroup ∨ i = .symwr) →
      t.nsym = s.nsym ∧ t.pos = s.pos ∧ t.lo = s.lo ∧ t.c = s.c ∧ t.hit = s.hit ∧ t.off = s.off ∧
      t.ml = s.ml ∧ t.lit = s.lit ∧ t.wcnt = s.wcnt ∧ t.win = s.win ∧ t.oddOut = s.oddOut) ∧
    ((i = .symrd ∨ i = .matcher ∨ i = .tokser) →
      t.nwords = s.nwords ∧ t.m = s.m ∧ t.tpc = s.tpc ∧ t.tOff = s.tOff ∧ t.tLen = s.tLen ∧ t.tLit = s.tLit ∧
      t.n = s.n ∧ t.start = s.start ∧ t.i = s.i ∧ t.outs = s.outs ∧ t.hist = s.hist ∧ t.oddOut = s.oddOut) ∧
    (i ≠ .tokser → i ≠ .symwr → i ≠ .encode → i ≠ .decode →
      ∀ a, Memory.read t.obuf a = Memory.read s.obuf a)

/-- Host writes of IN_LEN, ODD_IN and IBUF, one clause for each side of BUSY. While not BUSY they land: the register
takes the value (10_state.md R34, R36), the byte of IBUF takes the value and no other byte changes (20_memory.md
R51), and writing a whole input byte by byte, then IN_LEN and ODD_IN, gives `hostSetup` (70_reset_and_hazards.md
R265, R266). While BUSY a write of IN_LEN or ODD_IN does not touch the operation in progress, and a write of IBUF,
to which R267 gives no meaning, stops by name (notes/assumptions/10.md, 11.md). -/
def Obligations.HostWritesWhileBusy : Prop :=
  (∀ (s : State) (rest : List HostAct), s.status ≠ .busy →
    (∀ len, s.inbox = .writeInLen len :: rest → step s = .next { s with inLen := len, inbox := rest }) ∧
    (∀ bit, s.inbox = .writeOddIn bit :: rest → step s = .next { s with oddIn := bit, inbox := rest }) ∧
    (∀ a v, s.inbox = .writeIbuf a v :: rest →
      ∃ t : State, step s = .next t ∧ t = { s with ibuf := t.ibuf, inbox := rest } ∧
        Memory.read t.ibuf a = some v ∧ ∀ b, b ≠ a → Memory.read t.ibuf b = Memory.read s.ibuf b)) ∧
  (∀ (s : State) (input : List Byte) (odd : BitVec 1), s.status ≠ .busy →
    runSteps (input.length + 2) { s with inbox := setupActions input odd } = .next (hostSetup input odd s)) ∧
  (∀ (s : State) (rest : List HostAct), s.status = .busy →
    (∀ len, s.inbox = .writeInLen len :: rest →
      ∃ t : State, step s = .next t ∧ t = { s with inLen := t.inLen, inbox := rest }) ∧
    (∀ bit, s.inbox = .writeOddIn bit :: rest →
      ∃ t : State, step s = .next t ∧ t = { s with oddIn := t.oddIn, inbox := rest }) ∧
    (∀ a v, s.inbox = .writeIbuf a v :: rest → step s = .refused .ibufWriteWhileBusy))

/-! ### Whole machine -/

/-- The invariant holds after reset. -/
def Obligations.ResetMeetsInvariant : Prop := Inv State.reset

/-- Every step keeps the invariant, from every state that meets it: the stores stay canonical, STATUS, ERR and
OUT_LEN agree, WIN and HIST hold what they must, the emitted tokens replay to the symbols covered, the executed
tokens replay to OUTS.
(The stages are notes/assumptions/14.md, and WIN and HIST beside SYM and OUTS 23.md.) -/
def Obligations.StepKeepsInvariant : Prop :=
  ∀ s t : State, Inv s → step s = .next t → Inv t

/-- 70_reset_and_hazards.md R278, R279: from every state of the invariant the machine has a next step, except
that a host write of IBUF while BUSY, or a command above the capacity, is refused by name. No read is ever out of
range (00_scope.md R10).
(That an engine with no operation in progress has a next step, the state itself, is notes/assumptions/15.md: R241 gives
it none. The refusals are 11.md and 12.md, and the stages 14.md.) -/
def Obligations.InvariantStatesNeverFault : Prop :=
  ∀ s : State, Inv s →
    (∃ t, step s = .next t) ∨
    (∃ a v rest, s.inbox = .writeIbuf a v :: rest ∧ s.status = .busy ∧ step s = .refused .ibufWriteWhileBusy) ∨
    (withinCap s.inLen = false ∧ step s = .refused .inputOverCapacity)

/-- 70_reset_and_hazards.md R278: every operation terminates, here within IN_LEN + 6 steps of the model from any
state of the invariant in which it is in progress, if the host does nothing.
(R278 gives no count: the bound is one on the steps of notes/assumptions/14.md.) -/
def Obligations.EveryOperationTerminates : Prop :=
  ∀ s : State, Inv s → s.status = .busy → s.inbox = [] →
    ∃ k t, k ≤ s.opLen + 6 ∧ runSteps k s = .next t ∧ (t.status = .done ∨ t.status = .failed)

/-- 45_operations.md R205: what the host observes of an operation is a function of the command, the input bytes
and, for DECODE, ODD_IN: two runs from any two states that are not BUSY agree at every step. A DECODE leaves
ODD_OUT untouched.
R205 speaks of the result: the agreement at every step is by the steps of notes/assumptions/14.md. Every length is
accepted, which rests on the unbounded CAP_BYTES of notes/assumptions/12.md. -/
def Obligations.OperationsArePure : Prop :=
  ∀ (s₁ s₂ : State) (code : BitVec 2) (input : List Byte) (odd₁ odd₂ : BitVec 1) (k : Nat),
    s₁.status ≠ .busy → s₂.status ≠ .busy → code = 1 ∨ code = 2 → (code = 2 → odd₁ = odd₂) → 1 ≤ k →
    ∃ t₁ t₂, runSteps k (hostCommand code input odd₁ s₁) = .next t₁ ∧
      runSteps k (hostCommand code input odd₂ s₂) = .next t₂ ∧
      observe t₁ = observe t₂ ∧ (code = 1 → t₁.oddOut = t₂.oddOut) ∧ (code = 2 → t₁.oddOut = s₁.oddOut)

/-- 45_operations.md R202: the edges of ENCODE: the empty input gives DONE with an empty container, one byte the
single token (0, 0, byte and zero).
Both lengths are accepted: the unbounded CAP_BYTES of notes/assumptions/12.md. -/
def Obligations.EncodeOfEmptyAndOfOneByte : Prop :=
  ∀ (s : State) (odd : BitVec 1), s.status ≠ .busy →
    (∃ k t, runSteps k (hostCommand 1 [] odd s) = .next t ∧ t.status = .done ∧ t.err = .none ∧
      t.outLen = 0 ∧ t.oddOut = 0 ∧ resultBytes t = []) ∧
    (∀ b : Byte, ∃ k t, runSteps k (hostCommand 1 [b] odd s) = .next t ∧ t.status = .done ∧ t.err = .none ∧
      t.outLen = 6 ∧ t.oddOut = 1 ∧ resultBytes t = [0, 0, 0, 0, b, 0])

/-- 45_operations.md R206: for every non-empty input, ENCODE reaches DONE with ODD_OUT the parity of its length,
and DECODE of the container it made, with that bit as ODD_IN, reaches DONE with exactly the input. R206's
premise `|b| <= CAP_BYTES` does not appear, for the input or for the container: it rests on the unbounded CAP_BYTES
of notes/assumptions/12.md. -/
def Obligations.DecodeOfEncodeRoundTrip : Prop :=
  ∀ (s : State) (input : List Byte) (odd : BitVec 1), s.status ≠ .busy → input ≠ [] →
    ∃ k t, runSteps k (hostCommand 1 input odd s) = .next t ∧ t.status = .done ∧ t.err = .none ∧
      t.oddOut = BitVec.ofNat 1 (input.length % 2) ∧
      ∃ k' t', runSteps k' (hostCommand 2 (resultBytes t) t.oddOut t) = .next t' ∧
        t'.status = .done ∧ t'.err = .none ∧ resultBytes t' = input

/-- 42_token_codec.md R147, 70_reset_and_hazards.md R271: where DECODE of a container reaches DONE, DECODE of the
same container cut after its first `k >= 1` tokens reaches DONE too, having executed those `k` tokens, with a prefix
of the symbols and of the bytes: the check cannot see the cut. (`k = 0` is the empty container, which
43_degrouper.md R161 makes fail.) The cut container is accepted without a premise on its length: the unbounded
CAP_BYTES of notes/assumptions/12.md. -/
def Obligations.ContainerCutAtTokenDecodesToPrefix : Prop :=
  ∀ (s t : State) (input : List Byte) (odd odd' : BitVec 1) (j k : Nat),
    s.status ≠ .busy → 1 ≤ j → runSteps j (hostCommand 2 input odd s) = .next t → t.status = .done →
    1 ≤ k → 6 * k ≤ input.length →
    ∃ (j' : Nat) (t' : State), 1 ≤ j' ∧ runSteps j' (hostCommand 2 (input.take (6 * k)) odd' s) = .next t' ∧
      t'.status = .done ∧ t'.err = .none ∧ t'.tpc = k ∧ t'.outs <+: t.outs ∧
      t'.outLen = decodedLength t'.outs.length odd' ∧ resultBytes t' <+: bytesOf t.outs
end

