-- ==== Sys2Proof/Laws/State.lean ====
section
/-! SUPPORT. One lemma per field per named update of State, each true by rfl, so that no proof unfolds a record
update. -/

namespace Sys2Proof.Machine

/-! ### raise -/

@[simp] theorem raise_cmd (e : Err) (s : State) : (raise e s).cmd = s.cmd := rfl
@[simp] theorem raise_status (e : Err) (s : State) : (raise e s).status = .failed := rfl
@[simp] theorem raise_err (e : Err) (s : State) : (raise e s).err = e := rfl
@[simp] theorem raise_inLen (e : Err) (s : State) : (raise e s).inLen = s.inLen := rfl
@[simp] theorem raise_outLen (e : Err) (s : State) : (raise e s).outLen = 0 := rfl
@[simp] theorem raise_oddIn (e : Err) (s : State) : (raise e s).oddIn = s.oddIn := rfl
@[simp] theorem raise_oddOut (e : Err) (s : State) : (raise e s).oddOut = s.oddOut := rfl
@[simp] theorem raise_nsym (e : Err) (s : State) : (raise e s).nsym = s.nsym := rfl
@[simp] theorem raise_pos (e : Err) (s : State) : (raise e s).pos = s.pos := rfl
@[simp] theorem raise_lo (e : Err) (s : State) : (raise e s).lo = s.lo := rfl
@[simp] theorem raise_c (e : Err) (s : State) : (raise e s).c = s.c := rfl
@[simp] theorem raise_hit (e : Err) (s : State) : (raise e s).hit = s.hit := rfl
@[simp] theorem raise_off (e : Err) (s : State) : (raise e s).off = s.off := rfl
@[simp] theorem raise_ml (e : Err) (s : State) : (raise e s).ml = s.ml := rfl
@[simp] theorem raise_lit (e : Err) (s : State) : (raise e s).lit = s.lit := rfl
@[simp] theorem raise_wcnt (e : Err) (s : State) : (raise e s).wcnt = s.wcnt := rfl
@[simp] theorem raise_nwords (e : Err) (s : State) : (raise e s).nwords = s.nwords := rfl
@[simp] theorem raise_m (e : Err) (s : State) : (raise e s).m = s.m := rfl
@[simp] theorem raise_tpc (e : Err) (s : State) : (raise e s).tpc = s.tpc := rfl
@[simp] theorem raise_tOff (e : Err) (s : State) : (raise e s).tOff = s.tOff := rfl
@[simp] theorem raise_tLen (e : Err) (s : State) : (raise e s).tLen = s.tLen := rfl
@[simp] theorem raise_tLit (e : Err) (s : State) : (raise e s).tLit = s.tLit := rfl
@[simp] theorem raise_n (e : Err) (s : State) : (raise e s).n = s.n := rfl
@[simp] theorem raise_start (e : Err) (s : State) : (raise e s).start = s.start := rfl
@[simp] theorem raise_i (e : Err) (s : State) : (raise e s).i = s.i := rfl
@[simp] theorem raise_ibuf (e : Err) (s : State) : (raise e s).ibuf = s.ibuf := rfl
@[simp] theorem raise_sym (e : Err) (s : State) : (raise e s).sym = s.sym := rfl
@[simp] theorem raise_tokq (e : Err) (s : State) : (raise e s).tokq = s.tokq := rfl
@[simp] theorem raise_outs (e : Err) (s : State) : (raise e s).outs = s.outs := rfl
@[simp] theorem raise_obuf (e : Err) (s : State) : (raise e s).obuf = s.obuf := rfl
@[simp] theorem raise_win (e : Err) (s : State) : (raise e s).win = s.win := rfl
@[simp] theorem raise_hist (e : Err) (s : State) : (raise e s).hist = s.hist := rfl
@[simp] theorem raise_stage (e : Err) (s : State) : (raise e s).stage = .idle := rfl
@[simp] theorem raise_opLen (e : Err) (s : State) : (raise e s).opLen = s.opLen := rfl
@[simp] theorem raise_opOdd (e : Err) (s : State) : (raise e s).opOdd = s.opOdd := rfl
@[simp] theorem raise_inbox (e : Err) (s : State) : (raise e s).inbox = s.inbox := rfl
@[simp] theorem raise_fresh (e : Err) (s : State) : (raise e s).fresh = s.fresh := rfl
@[simp] theorem raise_resets (e : Err) (s : State) : (raise e s).resets = s.resets := rfl

/-! ### acceptEncode -/

@[simp] theorem acceptEncode_cmd (s : State) : (acceptEncode s).cmd = 1 := rfl
@[simp] theorem acceptEncode_status (s : State) : (acceptEncode s).status = .busy := rfl
@[simp] theorem acceptEncode_err (s : State) : (acceptEncode s).err = .none := rfl
@[simp] theorem acceptEncode_inLen (s : State) : (acceptEncode s).inLen = s.inLen := rfl
@[simp] theorem acceptEncode_outLen (s : State) : (acceptEncode s).outLen = 0 := rfl
@[simp] theorem acceptEncode_oddIn (s : State) : (acceptEncode s).oddIn = s.oddIn := rfl
@[simp] theorem acceptEncode_oddOut (s : State) : (acceptEncode s).oddOut = 0 := rfl
@[simp] theorem acceptEncode_nsym (s : State) : (acceptEncode s).nsym = 0 := rfl
@[simp] theorem acceptEncode_pos (s : State) : (acceptEncode s).pos = 0 := rfl
@[simp] theorem acceptEncode_lo (s : State) : (acceptEncode s).lo = 0 := rfl
@[simp] theorem acceptEncode_c (s : State) : (acceptEncode s).c = 0 := rfl
@[simp] theorem acceptEncode_hit (s : State) : (acceptEncode s).hit = false := rfl
@[simp] theorem acceptEncode_off (s : State) : (acceptEncode s).off = 0 := rfl
@[simp] theorem acceptEncode_ml (s : State) : (acceptEncode s).ml = 0 := rfl
@[simp] theorem acceptEncode_lit (s : State) : (acceptEncode s).lit = Config.freeWord s.fresh .lit := rfl
@[simp] theorem acceptEncode_wcnt (s : State) : (acceptEncode s).wcnt = 0 := rfl
@[simp] theorem acceptEncode_nwords (s : State) : (acceptEncode s).nwords = Config.freeNat s.fresh .nwords := rfl
@[simp] theorem acceptEncode_m (s : State) : (acceptEncode s).m = Config.freeNat s.fresh .m := rfl
@[simp] theorem acceptEncode_tpc (s : State) : (acceptEncode s).tpc = 0 := rfl
@[simp] theorem acceptEncode_tOff (s : State) : (acceptEncode s).tOff = Config.freeWord s.fresh .tOff := rfl
@[simp] theorem acceptEncode_tLen (s : State) : (acceptEncode s).tLen = Config.freeWord s.fresh .tLen := rfl
@[simp] theorem acceptEncode_tLit (s : State) : (acceptEncode s).tLit = Config.freeWord s.fresh .tLit := rfl
@[simp] theorem acceptEncode_n (s : State) : (acceptEncode s).n = 0 := rfl
@[simp] theorem acceptEncode_start (s : State) : (acceptEncode s).start = Config.freeNat s.fresh .start := rfl
@[simp] theorem acceptEncode_i (s : State) : (acceptEncode s).i = Config.freeNat s.fresh .i := rfl
@[simp] theorem acceptEncode_ibuf (s : State) : (acceptEncode s).ibuf = s.ibuf := rfl
@[simp] theorem acceptEncode_sym (s : State) : (acceptEncode s).sym = [] := rfl
@[simp] theorem acceptEncode_tokq (s : State) : (acceptEncode s).tokq = [] := rfl
@[simp] theorem acceptEncode_outs (s : State) : (acceptEncode s).outs = [] := rfl
@[simp] theorem acceptEncode_obuf (s : State) : (acceptEncode s).obuf = [] := rfl
@[simp] theorem acceptEncode_win (s : State) : (acceptEncode s).win = [] := rfl
@[simp] theorem acceptEncode_hist (s : State) : (acceptEncode s).hist = [] := rfl
@[simp] theorem acceptEncode_stage (s : State) : (acceptEncode s).stage = .symrd := rfl
@[simp] theorem acceptEncode_opLen (s : State) : (acceptEncode s).opLen = s.inLen := rfl
@[simp] theorem acceptEncode_opOdd (s : State) : (acceptEncode s).opOdd = s.oddIn := rfl
@[simp] theorem acceptEncode_inbox (s : State) : (acceptEncode s).inbox = s.inbox := rfl
@[simp] theorem acceptEncode_fresh (s : State) : (acceptEncode s).fresh = s.fresh + 1 := rfl
@[simp] theorem acceptEncode_resets (s : State) : (acceptEncode s).resets = s.resets := rfl

/-! ### acceptDecode -/

@[simp] theorem acceptDecode_cmd (s : State) : (acceptDecode s).cmd = 2 := rfl
@[simp] theorem acceptDecode_status (s : State) : (acceptDecode s).status = .busy := rfl
@[simp] theorem acceptDecode_err (s : State) : (acceptDecode s).err = .none := rfl
@[simp] theorem acceptDecode_inLen (s : State) : (acceptDecode s).inLen = s.inLen := rfl
@[simp] theorem acceptDecode_outLen (s : State) : (acceptDecode s).outLen = 0 := rfl
@[simp] theorem acceptDecode_oddIn (s : State) : (acceptDecode s).oddIn = s.oddIn := rfl
@[simp] theorem acceptDecode_oddOut (s : State) : (acceptDecode s).oddOut = s.oddOut := rfl
@[simp] theorem acceptDecode_nsym (s : State) : (acceptDecode s).nsym = Config.freeNat s.fresh .nsym := rfl
@[simp] theorem acceptDecode_pos (s : State) : (acceptDecode s).pos = 0 := rfl
@[simp] theorem acceptDecode_lo (s : State) : (acceptDecode s).lo = Config.freeNat s.fresh .lo := rfl
@[simp] theorem acceptDecode_c (s : State) : (acceptDecode s).c = Config.freeNat s.fresh .c := rfl
@[simp] theorem acceptDecode_hit (s : State) : (acceptDecode s).hit = Config.freeBool s.fresh .hit := rfl
@[simp] theorem acceptDecode_off (s : State) : (acceptDecode s).off = Config.freeNat s.fresh .off := rfl
@[simp] theorem acceptDecode_ml (s : State) : (acceptDecode s).ml = Config.freeNat s.fresh .ml := rfl
@[simp] theorem acceptDecode_lit (s : State) : (acceptDecode s).lit = Config.freeWord s.fresh .lit := rfl
@[simp] theorem acceptDecode_wcnt (s : State) : (acceptDecode s).wcnt = 0 := rfl
@[simp] theorem acceptDecode_nwords (s : State) : (acceptDecode s).nwords = Config.freeNat s.fresh .nwords := rfl
@[simp] theorem acceptDecode_m (s : State) : (acceptDecode s).m = Config.freeNat s.fresh .m := rfl
@[simp] theorem acceptDecode_tpc (s : State) : (acceptDecode s).tpc = 0 := rfl
@[simp] theorem acceptDecode_tOff (s : State) : (acceptDecode s).tOff = Config.freeWord s.fresh .tOff := rfl
@[simp] theorem acceptDecode_tLen (s : State) : (acceptDecode s).tLen = Config.freeWord s.fresh .tLen := rfl
@[simp] theorem acceptDecode_tLit (s : State) : (acceptDecode s).tLit = Config.freeWord s.fresh .tLit := rfl
@[simp] theorem acceptDecode_n (s : State) : (acceptDecode s).n = 0 := rfl
@[simp] theorem acceptDecode_start (s : State) : (acceptDecode s).start = Config.freeNat s.fresh .start := rfl
@[simp] theorem acceptDecode_i (s : State) : (acceptDecode s).i = Config.freeNat s.fresh .i := rfl
@[simp] theorem acceptDecode_ibuf (s : State) : (acceptDecode s).ibuf = s.ibuf := rfl
@[simp] theorem acceptDecode_sym (s : State) : (acceptDecode s).sym = [] := rfl
@[simp] theorem acceptDecode_tokq (s : State) : (acceptDecode s).tokq = [] := rfl
@[simp] theorem acceptDecode_outs (s : State) : (acceptDecode s).outs = [] := rfl
@[simp] theorem acceptDecode_obuf (s : State) : (acceptDecode s).obuf = [] := rfl
@[simp] theorem acceptDecode_win (s : State) : (acceptDecode s).win = [] := rfl
@[simp] theorem acceptDecode_hist (s : State) : (acceptDecode s).hist = [] := rfl
@[simp] theorem acceptDecode_stage (s : State) : (acceptDecode s).stage = .tokdes := rfl
@[simp] theorem acceptDecode_opLen (s : State) : (acceptDecode s).opLen = s.inLen := rfl
@[simp] theorem acceptDecode_opOdd (s : State) : (acceptDecode s).opOdd = s.oddIn := rfl
@[simp] theorem acceptDecode_inbox (s : State) : (acceptDecode s).inbox = s.inbox := rfl
@[simp] theorem acceptDecode_fresh (s : State) : (acceptDecode s).fresh = s.fresh + 1 := rfl
@[simp] theorem acceptDecode_resets (s : State) : (acceptDecode s).resets = s.resets := rfl

/-! ### completeEncode -/

@[simp] theorem completeEncode_cmd (s : State) : (completeEncode s).cmd = s.cmd := rfl
@[simp] theorem completeEncode_status (s : State) : (completeEncode s).status = .done := rfl
@[simp] theorem completeEncode_err (s : State) : (completeEncode s).err = s.err := rfl
@[simp] theorem completeEncode_inLen (s : State) : (completeEncode s).inLen = s.inLen := rfl
@[simp] theorem completeEncode_outLen (s : State) : (completeEncode s).outLen = 2 * s.wcnt := rfl
@[simp] theorem completeEncode_oddIn (s : State) : (completeEncode s).oddIn = s.oddIn := rfl
@[simp] theorem completeEncode_oddOut (s : State) : (completeEncode s).oddOut = BitVec.ofNat 1 (s.opLen % 2) := rfl
@[simp] theorem completeEncode_nsym (s : State) : (completeEncode s).nsym = s.nsym := rfl
@[simp] theorem completeEncode_pos (s : State) : (completeEncode s).pos = s.pos := rfl
@[simp] theorem completeEncode_lo (s : State) : (completeEncode s).lo = s.lo := rfl
@[simp] theorem completeEncode_c (s : State) : (completeEncode s).c = s.c := rfl
@[simp] theorem completeEncode_hit (s : State) : (completeEncode s).hit = s.hit := rfl
@[simp] theorem completeEncode_off (s : State) : (completeEncode s).off = s.off := rfl
@[simp] theorem completeEncode_ml (s : State) : (completeEncode s).ml = s.ml := rfl
@[simp] theorem completeEncode_lit (s : State) : (completeEncode s).lit = s.lit := rfl
@[simp] theorem completeEncode_wcnt (s : State) : (completeEncode s).wcnt = s.wcnt := rfl
@[simp] theorem completeEncode_nwords (s : State) : (completeEncode s).nwords = s.nwords := rfl
@[simp] theorem completeEncode_m (s : State) : (completeEncode s).m = s.m := rfl
@[simp] theorem completeEncode_tpc (s : State) : (completeEncode s).tpc = s.tpc := rfl
@[simp] theorem completeEncode_tOff (s : State) : (completeEncode s).tOff = s.tOff := rfl
@[simp] theorem completeEncode_tLen (s : State) : (completeEncode s).tLen = s.tLen := rfl
@[simp] theorem completeEncode_tLit (s : State) : (completeEncode s).tLit = s.tLit := rfl
@[simp] theorem completeEncode_n (s : State) : (completeEncode s).n = s.n := rfl
@[simp] theorem completeEncode_start (s : State) : (completeEncode s).start = s.start := rfl
@[simp] theorem completeEncode_i (s : State) : (completeEncode s).i = s.i := rfl
@[simp] theorem completeEncode_ibuf (s : State) : (completeEncode s).ibuf = s.ibuf := rfl
@[simp] theorem completeEncode_sym (s : State) : (completeEncode s).sym = s.sym := rfl
@[simp] theorem completeEncode_tokq (s : State) : (completeEncode s).tokq = s.tokq := rfl
@[simp] theorem completeEncode_outs (s : State) : (completeEncode s).outs = s.outs := rfl
@[simp] theorem completeEncode_obuf (s : State) : (completeEncode s).obuf = s.obuf := rfl
@[simp] theorem completeEncode_win (s : State) : (completeEncode s).win = s.win := rfl
@[simp] theorem completeEncode_hist (s : State) : (completeEncode s).hist = s.hist := rfl
@[simp] theorem completeEncode_stage (s : State) : (completeEncode s).stage = .idle := rfl
@[simp] theorem completeEncode_opLen (s : State) : (completeEncode s).opLen = s.opLen := rfl
@[simp] theorem completeEncode_opOdd (s : State) : (completeEncode s).opOdd = s.opOdd := rfl
@[simp] theorem completeEncode_inbox (s : State) : (completeEncode s).inbox = s.inbox := rfl
@[simp] theorem completeEncode_fresh (s : State) : (completeEncode s).fresh = s.fresh := rfl
@[simp] theorem completeEncode_resets (s : State) : (completeEncode s).resets = s.resets := rfl

/-! ### completeDecode -/

@[simp] theorem completeDecode_cmd (s : State) : (completeDecode s).cmd = s.cmd := rfl
@[simp] theorem completeDecode_status (s : State) : (completeDecode s).status = .done := rfl
@[simp] theorem completeDecode_err (s : State) : (completeDecode s).err = s.err := rfl
@[simp] theorem completeDecode_inLen (s : State) : (completeDecode s).inLen = s.inLen := rfl
@[simp] theorem completeDecode_outLen (s : State) : (completeDecode s).outLen = s.outLen := rfl
@[simp] theorem completeDecode_oddIn (s : State) : (completeDecode s).oddIn = s.oddIn := rfl
@[simp] theorem completeDecode_oddOut (s : State) : (completeDecode s).oddOut = s.oddOut := rfl
@[simp] theorem completeDecode_nsym (s : State) : (completeDecode s).nsym = s.nsym := rfl
@[simp] theorem completeDecode_pos (s : State) : (completeDecode s).pos = s.pos := rfl
@[simp] theorem completeDecode_lo (s : State) : (completeDecode s).lo = s.lo := rfl
@[simp] theorem completeDecode_c (s : State) : (completeDecode s).c = s.c := rfl
@[simp] theorem completeDecode_hit (s : State) : (completeDecode s).hit = s.hit := rfl
@[simp] theorem completeDecode_off (s : State) : (completeDecode s).off = s.off := rfl
@[simp] theorem completeDecode_ml (s : State) : (completeDecode s).ml = s.ml := rfl
@[simp] theorem completeDecode_lit (s : State) : (completeDecode s).lit = s.lit := rfl
@[simp] theorem completeDecode_wcnt (s : State) : (completeDecode s).wcnt = s.wcnt := rfl
@[simp] theorem completeDecode_nwords (s : State) : (completeDecode s).nwords = s.nwords := rfl
@[simp] theorem completeDecode_m (s : State) : (completeDecode s).m = s.m := rfl
@[simp] theorem completeDecode_tpc (s : State) : (completeDecode s).tpc = s.tpc := rfl
@[simp] theorem completeDecode_tOff (s : State) : (completeDecode s).tOff = s.tOff := rfl
@[simp] theorem completeDecode_tLen (s : State) : (completeDecode s).tLen = s.tLen := rfl
@[simp] theorem completeDecode_tLit (s : State) : (completeDecode s).tLit = s.tLit := rfl
@[simp] theorem completeDecode_n (s : State) : (completeDecode s).n = s.n := rfl
@[simp] theorem completeDecode_start (s : State) : (completeDecode s).start = s.start := rfl
@[simp] theorem completeDecode_i (s : State) : (completeDecode s).i = s.i := rfl
@[simp] theorem completeDecode_ibuf (s : State) : (completeDecode s).ibuf = s.ibuf := rfl
@[simp] theorem completeDecode_sym (s : State) : (completeDecode s).sym = s.sym := rfl
@[simp] theorem completeDecode_tokq (s : State) : (completeDecode s).tokq = s.tokq := rfl
@[simp] theorem completeDecode_outs (s : State) : (completeDecode s).outs = s.outs := rfl
@[simp] theorem completeDecode_obuf (s : State) : (completeDecode s).obuf = s.obuf := rfl
@[simp] theorem completeDecode_win (s : State) : (completeDecode s).win = s.win := rfl
@[simp] theorem completeDecode_hist (s : State) : (completeDecode s).hist = s.hist := rfl
@[simp] theorem completeDecode_stage (s : State) : (completeDecode s).stage = .idle := rfl
@[simp] theorem completeDecode_opLen (s : State) : (completeDecode s).opLen = s.opLen := rfl
@[simp] theorem completeDecode_opOdd (s : State) : (completeDecode s).opOdd = s.opOdd := rfl
@[simp] theorem completeDecode_inbox (s : State) : (completeDecode s).inbox = s.inbox := rfl
@[simp] theorem completeDecode_fresh (s : State) : (completeDecode s).fresh = s.fresh := rfl
@[simp] theorem completeDecode_resets (s : State) : (completeDecode s).resets = s.resets := rfl

/-! ### resetEngine -/

@[simp] theorem resetEngine_cmd (s : State) : (resetEngine s).cmd = 0 := rfl
@[simp] theorem resetEngine_status (s : State) : (resetEngine s).status = .idle := rfl
@[simp] theorem resetEngine_err (s : State) : (resetEngine s).err = .none := rfl
@[simp] theorem resetEngine_inLen (s : State) : (resetEngine s).inLen = 0 := rfl
@[simp] theorem resetEngine_outLen (s : State) : (resetEngine s).outLen = 0 := rfl
@[simp] theorem resetEngine_oddIn (s : State) : (resetEngine s).oddIn = 0 := rfl
@[simp] theorem resetEngine_oddOut (s : State) : (resetEngine s).oddOut = 0 := rfl
@[simp] theorem resetEngine_nsym (s : State) : (resetEngine s).nsym = Config.freeNat s.fresh .nsym := rfl
@[simp] theorem resetEngine_pos (s : State) : (resetEngine s).pos = Config.freeNat s.fresh .pos := rfl
@[simp] theorem resetEngine_lo (s : State) : (resetEngine s).lo = Config.freeNat s.fresh .lo := rfl
@[simp] theorem resetEngine_c (s : State) : (resetEngine s).c = Config.freeNat s.fresh .c := rfl
@[simp] theorem resetEngine_hit (s : State) : (resetEngine s).hit = Config.freeBool s.fresh .hit := rfl
@[simp] theorem resetEngine_off (s : State) : (resetEngine s).off = Config.freeNat s.fresh .off := rfl
@[simp] theorem resetEngine_ml (s : State) : (resetEngine s).ml = Config.freeNat s.fresh .ml := rfl
@[simp] theorem resetEngine_lit (s : State) : (resetEngine s).lit = Config.freeWord s.fresh .lit := rfl
@[simp] theorem resetEngine_wcnt (s : State) : (resetEngine s).wcnt = Config.freeNat s.fresh .wcnt := rfl
@[simp] theorem resetEngine_nwords (s : State) : (resetEngine s).nwords = Config.freeNat s.fresh .nwords := rfl
@[simp] theorem resetEngine_m (s : State) : (resetEngine s).m = Config.freeNat s.fresh .m := rfl
@[simp] theorem resetEngine_tpc (s : State) : (resetEngine s).tpc = Config.freeNat s.fresh .tpc := rfl
@[simp] theorem resetEngine_tOff (s : State) : (resetEngine s).tOff = Config.freeWord s.fresh .tOff := rfl
@[simp] theorem resetEngine_tLen (s : State) : (resetEngine s).tLen = Config.freeWord s.fresh .tLen := rfl
@[simp] theorem resetEngine_tLit (s : State) : (resetEngine s).tLit = Config.freeWord s.fresh .tLit := rfl
@[simp] theorem resetEngine_n (s : State) : (resetEngine s).n = Config.freeNat s.fresh .n := rfl
@[simp] theorem resetEngine_start (s : State) : (resetEngine s).start = Config.freeNat s.fresh .start := rfl
@[simp] theorem resetEngine_i (s : State) : (resetEngine s).i = Config.freeNat s.fresh .i := rfl
@[simp] theorem resetEngine_ibuf (s : State) : (resetEngine s).ibuf = [] := rfl
@[simp] theorem resetEngine_sym (s : State) : (resetEngine s).sym = Config.freeSym s.fresh := rfl
@[simp] theorem resetEngine_tokq (s : State) : (resetEngine s).tokq = Config.freeTokq s.fresh := rfl
@[simp] theorem resetEngine_outs (s : State) : (resetEngine s).outs = Config.freeOuts s.fresh := rfl
@[simp] theorem resetEngine_obuf (s : State) : (resetEngine s).obuf = [] := rfl
@[simp] theorem resetEngine_win (s : State) : (resetEngine s).win = [] := rfl
@[simp] theorem resetEngine_hist (s : State) : (resetEngine s).hist = [] := rfl
@[simp] theorem resetEngine_stage (s : State) : (resetEngine s).stage = .idle := rfl
@[simp] theorem resetEngine_opLen (s : State) : (resetEngine s).opLen = 0 := rfl
@[simp] theorem resetEngine_opOdd (s : State) : (resetEngine s).opOdd = 0 := rfl
@[simp] theorem resetEngine_inbox (s : State) : (resetEngine s).inbox = s.inbox := rfl
@[simp] theorem resetEngine_fresh (s : State) : (resetEngine s).fresh = s.fresh + 1 := rfl
@[simp] theorem resetEngine_resets (s : State) : (resetEngine s).resets = s.resets + 1 := rfl

/-! ### appendOut -/

@[simp] theorem appendOut_cmd (v : Symbol) (s : State) : (appendOut v s).cmd = s.cmd := rfl
@[simp] theorem appendOut_status (v : Symbol) (s : State) : (appendOut v s).status = s.status := rfl
@[simp] theorem appendOut_err (v : Symbol) (s : State) : (appendOut v s).err = s.err := rfl
@[simp] theorem appendOut_inLen (v : Symbol) (s : State) : (appendOut v s).inLen = s.inLen := rfl
@[simp] theorem appendOut_outLen (v : Symbol) (s : State) : (appendOut v s).outLen = s.outLen := rfl
@[simp] theorem appendOut_oddIn (v : Symbol) (s : State) : (appendOut v s).oddIn = s.oddIn := rfl
@[simp] theorem appendOut_oddOut (v : Symbol) (s : State) : (appendOut v s).oddOut = s.oddOut := rfl
@[simp] theorem appendOut_nsym (v : Symbol) (s : State) : (appendOut v s).nsym = s.nsym := rfl
@[simp] theorem appendOut_pos (v : Symbol) (s : State) : (appendOut v s).pos = s.pos := rfl
@[simp] theorem appendOut_lo (v : Symbol) (s : State) : (appendOut v s).lo = s.lo := rfl
@[simp] theorem appendOut_c (v : Symbol) (s : State) : (appendOut v s).c = s.c := rfl
@[simp] theorem appendOut_hit (v : Symbol) (s : State) : (appendOut v s).hit = s.hit := rfl
@[simp] theorem appendOut_off (v : Symbol) (s : State) : (appendOut v s).off = s.off := rfl
@[simp] theorem appendOut_ml (v : Symbol) (s : State) : (appendOut v s).ml = s.ml := rfl
@[simp] theorem appendOut_lit (v : Symbol) (s : State) : (appendOut v s).lit = s.lit := rfl
@[simp] theorem appendOut_wcnt (v : Symbol) (s : State) : (appendOut v s).wcnt = s.wcnt := rfl
@[simp] theorem appendOut_nwords (v : Symbol) (s : State) : (appendOut v s).nwords = s.nwords := rfl
@[simp] theorem appendOut_m (v : Symbol) (s : State) : (appendOut v s).m = s.m := rfl
@[simp] theorem appendOut_tpc (v : Symbol) (s : State) : (appendOut v s).tpc = s.tpc := rfl
@[simp] theorem appendOut_tOff (v : Symbol) (s : State) : (appendOut v s).tOff = s.tOff := rfl
@[simp] theorem appendOut_tLen (v : Symbol) (s : State) : (appendOut v s).tLen = s.tLen := rfl
@[simp] theorem appendOut_tLit (v : Symbol) (s : State) : (appendOut v s).tLit = s.tLit := rfl
@[simp] theorem appendOut_n (v : Symbol) (s : State) : (appendOut v s).n = s.n + 1 := rfl
@[simp] theorem appendOut_start (v : Symbol) (s : State) : (appendOut v s).start = s.start := rfl
@[simp] theorem appendOut_i (v : Symbol) (s : State) : (appendOut v s).i = s.i := rfl
@[simp] theorem appendOut_ibuf (v : Symbol) (s : State) : (appendOut v s).ibuf = s.ibuf := rfl
@[simp] theorem appendOut_sym (v : Symbol) (s : State) : (appendOut v s).sym = s.sym := rfl
@[simp] theorem appendOut_tokq (v : Symbol) (s : State) : (appendOut v s).tokq = s.tokq := rfl
@[simp] theorem appendOut_outs (v : Symbol) (s : State) : (appendOut v s).outs = s.outs ++ [v] := rfl
@[simp] theorem appendOut_obuf (v : Symbol) (s : State) : (appendOut v s).obuf = s.obuf := rfl
@[simp] theorem appendOut_win (v : Symbol) (s : State) : (appendOut v s).win = s.win := rfl
@[simp] theorem appendOut_hist (v : Symbol) (s : State) :
    (appendOut v s).hist = Store.write s.hist (s.n % Config.HCAP) v := rfl
@[simp] theorem appendOut_stage (v : Symbol) (s : State) : (appendOut v s).stage = s.stage := rfl
@[simp] theorem appendOut_opLen (v : Symbol) (s : State) : (appendOut v s).opLen = s.opLen := rfl
@[simp] theorem appendOut_opOdd (v : Symbol) (s : State) : (appendOut v s).opOdd = s.opOdd := rfl
@[simp] theorem appendOut_inbox (v : Symbol) (s : State) : (appendOut v s).inbox = s.inbox := rfl
@[simp] theorem appendOut_fresh (v : Symbol) (s : State) : (appendOut v s).fresh = s.fresh := rfl
@[simp] theorem appendOut_resets (v : Symbol) (s : State) : (appendOut v s).resets = s.resets := rfl

/-! ### finishToken -/

@[simp] theorem finishToken_cmd (x : Symbol) (s : State) : (finishToken x s).cmd = s.cmd := rfl
@[simp] theorem finishToken_status (x : Symbol) (s : State) : (finishToken x s).status = s.status := rfl
@[simp] theorem finishToken_err (x : Symbol) (s : State) : (finishToken x s).err = s.err := rfl
@[simp] theorem finishToken_inLen (x : Symbol) (s : State) : (finishToken x s).inLen = s.inLen := rfl
@[simp] theorem finishToken_outLen (x : Symbol) (s : State) : (finishToken x s).outLen = s.outLen := rfl
@[simp] theorem finishToken_oddIn (x : Symbol) (s : State) : (finishToken x s).oddIn = s.oddIn := rfl
@[simp] theorem finishToken_oddOut (x : Symbol) (s : State) : (finishToken x s).oddOut = s.oddOut := rfl
@[simp] theorem finishToken_nsym (x : Symbol) (s : State) : (finishToken x s).nsym = s.nsym := rfl
@[simp] theorem finishToken_pos (x : Symbol) (s : State) : (finishToken x s).pos = s.pos := rfl
@[simp] theorem finishToken_lo (x : Symbol) (s : State) : (finishToken x s).lo = s.lo := rfl
@[simp] theorem finishToken_c (x : Symbol) (s : State) : (finishToken x s).c = s.c := rfl
@[simp] theorem finishToken_hit (x : Symbol) (s : State) : (finishToken x s).hit = s.hit := rfl
@[simp] theorem finishToken_off (x : Symbol) (s : State) : (finishToken x s).off = s.off := rfl
@[simp] theorem finishToken_ml (x : Symbol) (s : State) : (finishToken x s).ml = s.ml := rfl
@[simp] theorem finishToken_lit (x : Symbol) (s : State) : (finishToken x s).lit = s.lit := rfl
@[simp] theorem finishToken_wcnt (x : Symbol) (s : State) : (finishToken x s).wcnt = s.wcnt := rfl
@[simp] theorem finishToken_nwords (x : Symbol) (s : State) : (finishToken x s).nwords = s.nwords := rfl
@[simp] theorem finishToken_m (x : Symbol) (s : State) : (finishToken x s).m = s.m := rfl
@[simp] theorem finishToken_tpc (x : Symbol) (s : State) : (finishToken x s).tpc = s.tpc + 1 := rfl
@[simp] theorem finishToken_tOff (x : Symbol) (s : State) : (finishToken x s).tOff = s.tOff := rfl
@[simp] theorem finishToken_tLen (x : Symbol) (s : State) : (finishToken x s).tLen = s.tLen := rfl
@[simp] theorem finishToken_tLit (x : Symbol) (s : State) : (finishToken x s).tLit = s.tLit := rfl
@[simp] theorem finishToken_n (x : Symbol) (s : State) : (finishToken x s).n = s.n + 1 := rfl
@[simp] theorem finishToken_start (x : Symbol) (s : State) : (finishToken x s).start = s.start := rfl
@[simp] theorem finishToken_i (x : Symbol) (s : State) : (finishToken x s).i = s.i := rfl
@[simp] theorem finishToken_ibuf (x : Symbol) (s : State) : (finishToken x s).ibuf = s.ibuf := rfl
@[simp] theorem finishToken_sym (x : Symbol) (s : State) : (finishToken x s).sym = s.sym := rfl
@[simp] theorem finishToken_tokq (x : Symbol) (s : State) : (finishToken x s).tokq = s.tokq := rfl
@[simp] theorem finishToken_outs (x : Symbol) (s : State) : (finishToken x s).outs = s.outs ++ [x] := rfl
@[simp] theorem finishToken_obuf (x : Symbol) (s : State) : (finishToken x s).obuf = s.obuf := rfl
@[simp] theorem finishToken_win (x : Symbol) (s : State) : (finishToken x s).win = s.win := rfl
@[simp] theorem finishToken_hist (x : Symbol) (s : State) :
    (finishToken x s).hist = Store.write s.hist (s.n % Config.HCAP) x := rfl
@[simp] theorem finishToken_stage (x : Symbol) (s : State) : (finishToken x s).stage = s.stage := rfl
@[simp] theorem finishToken_opLen (x : Symbol) (s : State) : (finishToken x s).opLen = s.opLen := rfl
@[simp] theorem finishToken_opOdd (x : Symbol) (s : State) : (finishToken x s).opOdd = s.opOdd := rfl
@[simp] theorem finishToken_inbox (x : Symbol) (s : State) : (finishToken x s).inbox = s.inbox := rfl
@[simp] theorem finishToken_fresh (x : Symbol) (s : State) : (finishToken x s).fresh = s.fresh := rfl
@[simp] theorem finishToken_resets (x : Symbol) (s : State) : (finishToken x s).resets = s.resets := rfl

/-! ### advancePos -/

@[simp] theorem advancePos_cmd (k : Nat) (s : State) : (advancePos k s).cmd = s.cmd := rfl
@[simp] theorem advancePos_status (k : Nat) (s : State) : (advancePos k s).status = s.status := rfl
@[simp] theorem advancePos_err (k : Nat) (s : State) : (advancePos k s).err = s.err := rfl
@[simp] theorem advancePos_inLen (k : Nat) (s : State) : (advancePos k s).inLen = s.inLen := rfl
@[simp] theorem advancePos_outLen (k : Nat) (s : State) : (advancePos k s).outLen = s.outLen := rfl
@[simp] theorem advancePos_oddIn (k : Nat) (s : State) : (advancePos k s).oddIn = s.oddIn := rfl
@[simp] theorem advancePos_oddOut (k : Nat) (s : State) : (advancePos k s).oddOut = s.oddOut := rfl
@[simp] theorem advancePos_nsym (k : Nat) (s : State) : (advancePos k s).nsym = s.nsym := rfl
@[simp] theorem advancePos_pos (k : Nat) (s : State) : (advancePos k s).pos = s.pos + k := rfl
@[simp] theorem advancePos_lo (k : Nat) (s : State) : (advancePos k s).lo = s.lo := rfl
@[simp] theorem advancePos_c (k : Nat) (s : State) : (advancePos k s).c = s.c := rfl
@[simp] theorem advancePos_hit (k : Nat) (s : State) : (advancePos k s).hit = s.hit := rfl
@[simp] theorem advancePos_off (k : Nat) (s : State) : (advancePos k s).off = s.off := rfl
@[simp] theorem advancePos_ml (k : Nat) (s : State) : (advancePos k s).ml = s.ml := rfl
@[simp] theorem advancePos_lit (k : Nat) (s : State) : (advancePos k s).lit = s.lit := rfl
@[simp] theorem advancePos_wcnt (k : Nat) (s : State) : (advancePos k s).wcnt = s.wcnt := rfl
@[simp] theorem advancePos_nwords (k : Nat) (s : State) : (advancePos k s).nwords = s.nwords := rfl
@[simp] theorem advancePos_m (k : Nat) (s : State) : (advancePos k s).m = s.m := rfl
@[simp] theorem advancePos_tpc (k : Nat) (s : State) : (advancePos k s).tpc = s.tpc := rfl
@[simp] theorem advancePos_tOff (k : Nat) (s : State) : (advancePos k s).tOff = s.tOff := rfl
@[simp] theorem advancePos_tLen (k : Nat) (s : State) : (advancePos k s).tLen = s.tLen := rfl
@[simp] theorem advancePos_tLit (k : Nat) (s : State) : (advancePos k s).tLit = s.tLit := rfl
@[simp] theorem advancePos_n (k : Nat) (s : State) : (advancePos k s).n = s.n := rfl
@[simp] theorem advancePos_start (k : Nat) (s : State) : (advancePos k s).start = s.start := rfl
@[simp] theorem advancePos_i (k : Nat) (s : State) : (advancePos k s).i = s.i := rfl
@[simp] theorem advancePos_ibuf (k : Nat) (s : State) : (advancePos k s).ibuf = s.ibuf := rfl
@[simp] theorem advancePos_sym (k : Nat) (s : State) : (advancePos k s).sym = s.sym := rfl
@[simp] theorem advancePos_tokq (k : Nat) (s : State) : (advancePos k s).tokq = s.tokq := rfl
@[simp] theorem advancePos_outs (k : Nat) (s : State) : (advancePos k s).outs = s.outs := rfl
@[simp] theorem advancePos_obuf (k : Nat) (s : State) : (advancePos k s).obuf = s.obuf := rfl
@[simp] theorem advancePos_win (k : Nat) (s : State) :
    (advancePos k s).win = shiftIn Config.W s.sym s.pos k s.win := rfl
@[simp] theorem advancePos_hist (k : Nat) (s : State) : (advancePos k s).hist = s.hist := rfl
@[simp] theorem advancePos_stage (k : Nat) (s : State) : (advancePos k s).stage = s.stage := rfl
@[simp] theorem advancePos_opLen (k : Nat) (s : State) : (advancePos k s).opLen = s.opLen := rfl
@[simp] theorem advancePos_opOdd (k : Nat) (s : State) : (advancePos k s).opOdd = s.opOdd := rfl
@[simp] theorem advancePos_inbox (k : Nat) (s : State) : (advancePos k s).inbox = s.inbox := rfl
@[simp] theorem advancePos_fresh (k : Nat) (s : State) : (advancePos k s).fresh = s.fresh := rfl
@[simp] theorem advancePos_resets (k : Nat) (s : State) : (advancePos k s).resets = s.resets := rfl

/-! ### emitLiteral -/

@[simp] theorem emitLiteral_cmd (x : Symbol) (s : State) : (emitLiteral x s).cmd = s.cmd := rfl
@[simp] theorem emitLiteral_status (x : Symbol) (s : State) : (emitLiteral x s).status = s.status := rfl
@[simp] theorem emitLiteral_err (x : Symbol) (s : State) : (emitLiteral x s).err = s.err := rfl
@[simp] theorem emitLiteral_inLen (x : Symbol) (s : State) : (emitLiteral x s).inLen = s.inLen := rfl
@[simp] theorem emitLiteral_outLen (x : Symbol) (s : State) : (emitLiteral x s).outLen = s.outLen := rfl
@[simp] theorem emitLiteral_oddIn (x : Symbol) (s : State) : (emitLiteral x s).oddIn = s.oddIn := rfl
@[simp] theorem emitLiteral_oddOut (x : Symbol) (s : State) : (emitLiteral x s).oddOut = s.oddOut := rfl
@[simp] theorem emitLiteral_nsym (x : Symbol) (s : State) : (emitLiteral x s).nsym = s.nsym := rfl
@[simp] theorem emitLiteral_pos (x : Symbol) (s : State) : (emitLiteral x s).pos = s.pos + 1 := rfl
@[simp] theorem emitLiteral_lo (x : Symbol) (s : State) : (emitLiteral x s).lo = s.lo := rfl
@[simp] theorem emitLiteral_c (x : Symbol) (s : State) : (emitLiteral x s).c = s.c := rfl
@[simp] theorem emitLiteral_hit (x : Symbol) (s : State) : (emitLiteral x s).hit = false := rfl
@[simp] theorem emitLiteral_off (x : Symbol) (s : State) : (emitLiteral x s).off = 0 := rfl
@[simp] theorem emitLiteral_ml (x : Symbol) (s : State) : (emitLiteral x s).ml = 0 := rfl
@[simp] theorem emitLiteral_lit (x : Symbol) (s : State) : (emitLiteral x s).lit = x := rfl
@[simp] theorem emitLiteral_wcnt (x : Symbol) (s : State) : (emitLiteral x s).wcnt = s.wcnt := rfl
@[simp] theorem emitLiteral_nwords (x : Symbol) (s : State) : (emitLiteral x s).nwords = s.nwords := rfl
@[simp] theorem emitLiteral_m (x : Symbol) (s : State) : (emitLiteral x s).m = s.m := rfl
@[simp] theorem emitLiteral_tpc (x : Symbol) (s : State) : (emitLiteral x s).tpc = s.tpc := rfl
@[simp] theorem emitLiteral_tOff (x : Symbol) (s : State) : (emitLiteral x s).tOff = s.tOff := rfl
@[simp] theorem emitLiteral_tLen (x : Symbol) (s : State) : (emitLiteral x s).tLen = s.tLen := rfl
@[simp] theorem emitLiteral_tLit (x : Symbol) (s : State) : (emitLiteral x s).tLit = s.tLit := rfl
@[simp] theorem emitLiteral_n (x : Symbol) (s : State) : (emitLiteral x s).n = s.n := rfl
@[simp] theorem emitLiteral_start (x : Symbol) (s : State) : (emitLiteral x s).start = s.start := rfl
@[simp] theorem emitLiteral_i (x : Symbol) (s : State) : (emitLiteral x s).i = s.i := rfl
@[simp] theorem emitLiteral_ibuf (x : Symbol) (s : State) : (emitLiteral x s).ibuf = s.ibuf := rfl
@[simp] theorem emitLiteral_sym (x : Symbol) (s : State) : (emitLiteral x s).sym = s.sym := rfl
@[simp] theorem emitLiteral_tokq (x : Symbol) (s : State) : (emitLiteral x s).tokq = s.tokq ++ [Token.mk 0 0 x] := rfl
@[simp] theorem emitLiteral_outs (x : Symbol) (s : State) : (emitLiteral x s).outs = s.outs := rfl
@[simp] theorem emitLiteral_obuf (x : Symbol) (s : State) : (emitLiteral x s).obuf = s.obuf := rfl
@[simp] theorem emitLiteral_win (x : Symbol) (s : State) :
    (emitLiteral x s).win = shiftIn Config.W s.sym s.pos 1 s.win := rfl
@[simp] theorem emitLiteral_hist (x : Symbol) (s : State) : (emitLiteral x s).hist = s.hist := rfl
@[simp] theorem emitLiteral_stage (x : Symbol) (s : State) : (emitLiteral x s).stage = s.stage := rfl
@[simp] theorem emitLiteral_opLen (x : Symbol) (s : State) : (emitLiteral x s).opLen = s.opLen := rfl
@[simp] theorem emitLiteral_opOdd (x : Symbol) (s : State) : (emitLiteral x s).opOdd = s.opOdd := rfl
@[simp] theorem emitLiteral_inbox (x : Symbol) (s : State) : (emitLiteral x s).inbox = s.inbox := rfl
@[simp] theorem emitLiteral_fresh (x : Symbol) (s : State) : (emitLiteral x s).fresh = s.fresh := rfl
@[simp] theorem emitLiteral_resets (x : Symbol) (s : State) : (emitLiteral x s).resets = s.resets := rfl

/-! ### emitMatch -/

@[simp] theorem emitMatch_cmd (d l : Nat) (x : Symbol) (s : State) : (emitMatch d l x s).cmd = s.cmd := rfl
@[simp] theorem emitMatch_status (d l : Nat) (x : Symbol) (s : State) : (emitMatch d l x s).status = s.status := rfl
@[simp] theorem emitMatch_err (d l : Nat) (x : Symbol) (s : State) : (emitMatch d l x s).err = s.err := rfl
@[simp] theorem emitMatch_inLen (d l : Nat) (x : Symbol) (s : State) : (emitMatch d l x s).inLen = s.inLen := rfl
@[simp] theorem emitMatch_outLen (d l : Nat) (x : Symbol) (s : State) : (emitMatch d l x s).outLen = s.outLen := rfl
@[simp] theorem emitMatch_oddIn (d l : Nat) (x : Symbol) (s : State) : (emitMatch d l x s).oddIn = s.oddIn := rfl
@[simp] theorem emitMatch_oddOut (d l : Nat) (x : Symbol) (s : State) : (emitMatch d l x s).oddOut = s.oddOut := rfl
@[simp] theorem emitMatch_nsym (d l : Nat) (x : Symbol) (s : State) : (emitMatch d l x s).nsym = s.nsym := rfl
@[simp] theorem emitMatch_pos (d l : Nat) (x : Symbol) (s : State) : (emitMatch d l x s).pos = s.pos + (l + 1) := rfl
@[simp] theorem emitMatch_lo (d l : Nat) (x : Symbol) (s : State) : (emitMatch d l x s).lo = s.lo := rfl
@[simp] theorem emitMatch_c (d l : Nat) (x : Symbol) (s : State) : (emitMatch d l x s).c = s.c := rfl
@[simp] theorem emitMatch_hit (d l : Nat) (x : Symbol) (s : State) : (emitMatch d l x s).hit = true := rfl
@[simp] theorem emitMatch_off (d l : Nat) (x : Symbol) (s : State) : (emitMatch d l x s).off = d := rfl
@[simp] theorem emitMatch_ml (d l : Nat) (x : Symbol) (s : State) : (emitMatch d l x s).ml = l := rfl
@[simp] theorem emitMatch_lit (d l : Nat) (x : Symbol) (s : State) : (emitMatch d l x s).lit = x := rfl
@[simp] theorem emitMatch_wcnt (d l : Nat) (x : Symbol) (s : State) : (emitMatch d l x s).wcnt = s.wcnt := rfl
@[simp] theorem emitMatch_nwords (d l : Nat) (x : Symbol) (s : State) : (emitMatch d l x s).nwords = s.nwords := rfl
@[simp] theorem emitMatch_m (d l : Nat) (x : Symbol) (s : State) : (emitMatch d l x s).m = s.m := rfl
@[simp] theorem emitMatch_tpc (d l : Nat) (x : Symbol) (s : State) : (emitMatch d l x s).tpc = s.tpc := rfl
@[simp] theorem emitMatch_tOff (d l : Nat) (x : Symbol) (s : State) : (emitMatch d l x s).tOff = s.tOff := rfl
@[simp] theorem emitMatch_tLen (d l : Nat) (x : Symbol) (s : State) : (emitMatch d l x s).tLen = s.tLen := rfl
@[simp] theorem emitMatch_tLit (d l : Nat) (x : Symbol) (s : State) : (emitMatch d l x s).tLit = s.tLit := rfl
@[simp] theorem emitMatch_n (d l : Nat) (x : Symbol) (s : State) : (emitMatch d l x s).n = s.n := rfl
@[simp] theorem emitMatch_start (d l : Nat) (x : Symbol) (s : State) : (emitMatch d l x s).start = s.start := rfl
@[simp] theorem emitMatch_i (d l : Nat) (x : Symbol) (s : State) : (emitMatch d l x s).i = s.i := rfl
@[simp] theorem emitMatch_ibuf (d l : Nat) (x : Symbol) (s : State) : (emitMatch d l x s).ibuf = s.ibuf := rfl
@[simp] theorem emitMatch_sym (d l : Nat) (x : Symbol) (s : State) : (emitMatch d l x s).sym = s.sym := rfl
@[simp] theorem emitMatch_tokq (d l : Nat) (x : Symbol) (s : State) :
    (emitMatch d l x s).tokq = s.tokq ++ [Token.mk d l x] := rfl
@[simp] theorem emitMatch_outs (d l : Nat) (x : Symbol) (s : State) : (emitMatch d l x s).outs = s.outs := rfl
@[simp] theorem emitMatch_obuf (d l : Nat) (x : Symbol) (s : State) : (emitMatch d l x s).obuf = s.obuf := rfl
@[simp] theorem emitMatch_win (d l : Nat) (x : Symbol) (s : State) :
    (emitMatch d l x s).win = shiftIn Config.W s.sym s.pos (l + 1) s.win := rfl
@[simp] theorem emitMatch_hist (d l : Nat) (x : Symbol) (s : State) : (emitMatch d l x s).hist = s.hist := rfl
@[simp] theorem emitMatch_stage (d l : Nat) (x : Symbol) (s : State) : (emitMatch d l x s).stage = s.stage := rfl
@[simp] theorem emitMatch_opLen (d l : Nat) (x : Symbol) (s : State) : (emitMatch d l x s).opLen = s.opLen := rfl
@[simp] theorem emitMatch_opOdd (d l : Nat) (x : Symbol) (s : State) : (emitMatch d l x s).opOdd = s.opOdd := rfl
@[simp] theorem emitMatch_inbox (d l : Nat) (x : Symbol) (s : State) : (emitMatch d l x s).inbox = s.inbox := rfl
@[simp] theorem emitMatch_fresh (d l : Nat) (x : Symbol) (s : State) : (emitMatch d l x s).fresh = s.fresh := rfl
@[simp] theorem emitMatch_resets (d l : Nat) (x : Symbol) (s : State) : (emitMatch d l x s).resets = s.resets := rfl

/-! ### latchToken -/

@[simp] theorem latchToken_cmd (t : Token) (rest : List Token) (s : State) : (latchToken t rest s).cmd = s.cmd := rfl
@[simp] theorem latchToken_status (t : Token) (rest : List Token) (s : State) :
    (latchToken t rest s).status = s.status := rfl
@[simp] theorem latchToken_err (t : Token) (rest : List Token) (s : State) : (latchToken t rest s).err = s.err := rfl
@[simp] theorem latchToken_inLen (t : Token) (rest : List Token) (s : State) :
    (latchToken t rest s).inLen = s.inLen := rfl
@[simp] theorem latchToken_outLen (t : Token) (rest : List Token) (s : State) :
    (latchToken t rest s).outLen = s.outLen := rfl
@[simp] theorem latchToken_oddIn (t : Token) (rest : List Token) (s : State) :
    (latchToken t rest s).oddIn = s.oddIn := rfl
@[simp] theorem latchToken_oddOut (t : Token) (rest : List Token) (s : State) :
    (latchToken t rest s).oddOut = s.oddOut := rfl
@[simp] theorem latchToken_nsym (t : Token) (rest : List Token) (s : State) :
    (latchToken t rest s).nsym = s.nsym := rfl
@[simp] theorem latchToken_pos (t : Token) (rest : List Token) (s : State) : (latchToken t rest s).pos = s.pos := rfl
@[simp] theorem latchToken_lo (t : Token) (rest : List Token) (s : State) : (latchToken t rest s).lo = s.lo := rfl
@[simp] theorem latchToken_c (t : Token) (rest : List Token) (s : State) : (latchToken t rest s).c = s.c := rfl
@[simp] theorem latchToken_hit (t : Token) (rest : List Token) (s : State) : (latchToken t rest s).hit = s.hit := rfl
@[simp] theorem latchToken_off (t : Token) (rest : List Token) (s : State) : (latchToken t rest s).off = s.off := rfl
@[simp] theorem latchToken_ml (t : Token) (rest : List Token) (s : State) : (latchToken t rest s).ml = s.ml := rfl
@[simp] theorem latchToken_lit (t : Token) (rest : List Token) (s : State) : (latchToken t rest s).lit = s.lit := rfl
@[simp] theorem latchToken_wcnt (t : Token) (rest : List Token) (s : State) :
    (latchToken t rest s).wcnt = s.wcnt := rfl
@[simp] theorem latchToken_nwords (t : Token) (rest : List Token) (s : State) :
    (latchToken t rest s).nwords = s.nwords := rfl
@[simp] theorem latchToken_m (t : Token) (rest : List Token) (s : State) : (latchToken t rest s).m = s.m := rfl
@[simp] theorem latchToken_tpc (t : Token) (rest : List Token) (s : State) : (latchToken t rest s).tpc = s.tpc := rfl
@[simp] theorem latchToken_tOff (t : Token) (rest : List Token) (s : State) :
    (latchToken t rest s).tOff = fieldWord t.off := rfl
@[simp] theorem latchToken_tLen (t : Token) (rest : List Token) (s : State) :
    (latchToken t rest s).tLen = fieldWord t.len := rfl
@[simp] theorem latchToken_tLit (t : Token) (rest : List Token) (s : State) :
    (latchToken t rest s).tLit = t.lit := rfl
@[simp] theorem latchToken_n (t : Token) (rest : List Token) (s : State) : (latchToken t rest s).n = s.n := rfl
@[simp] theorem latchToken_start (t : Token) (rest : List Token) (s : State) :
    (latchToken t rest s).start = s.start := rfl
@[simp] theorem latchToken_i (t : Token) (rest : List Token) (s : State) : (latchToken t rest s).i = s.i := rfl
@[simp] theorem latchToken_ibuf (t : Token) (rest : List Token) (s : State) :
    (latchToken t rest s).ibuf = s.ibuf := rfl
@[simp] theorem latchToken_sym (t : Token) (rest : List Token) (s : State) : (latchToken t rest s).sym = s.sym := rfl
@[simp] theorem latchToken_tokq (t : Token) (rest : List Token) (s : State) : (latchToken t rest s).tokq = rest := rfl
@[simp] theorem latchToken_outs (t : Token) (rest : List Token) (s : State) :
    (latchToken t rest s).outs = s.outs := rfl
@[simp] theorem latchToken_obuf (t : Token) (rest : List Token) (s : State) :
    (latchToken t rest s).obuf = s.obuf := rfl
@[simp] theorem latchToken_win (t : Token) (rest : List Token) (s : State) : (latchToken t rest s).win = s.win := rfl
@[simp] theorem latchToken_hist (t : Token) (rest : List Token) (s : State) :
    (latchToken t rest s).hist = s.hist := rfl
@[simp] theorem latchToken_stage (t : Token) (rest : List Token) (s : State) :
    (latchToken t rest s).stage = s.stage := rfl
@[simp] theorem latchToken_opLen (t : Token) (rest : List Token) (s : State) :
    (latchToken t rest s).opLen = s.opLen := rfl
@[simp] theorem latchToken_opOdd (t : Token) (rest : List Token) (s : State) :
    (latchToken t rest s).opOdd = s.opOdd := rfl
@[simp] theorem latchToken_inbox (t : Token) (rest : List Token) (s : State) :
    (latchToken t rest s).inbox = s.inbox := rfl
@[simp] theorem latchToken_fresh (t : Token) (rest : List Token) (s : State) :
    (latchToken t rest s).fresh = s.fresh := rfl
@[simp] theorem latchToken_resets (t : Token) (rest : List Token) (s : State) :
    (latchToken t rest s).resets = s.resets := rfl

/-! ### ingestWords -/

@[simp] theorem ingestWords_cmd (s : State) : (ingestWords s).cmd = s.cmd := rfl
@[simp] theorem ingestWords_status (s : State) : (ingestWords s).status = s.status := rfl
@[simp] theorem ingestWords_err (s : State) : (ingestWords s).err = s.err := rfl
@[simp] theorem ingestWords_inLen (s : State) : (ingestWords s).inLen = s.inLen := rfl
@[simp] theorem ingestWords_outLen (s : State) : (ingestWords s).outLen = s.outLen := rfl
@[simp] theorem ingestWords_oddIn (s : State) : (ingestWords s).oddIn = s.oddIn := rfl
@[simp] theorem ingestWords_oddOut (s : State) : (ingestWords s).oddOut = s.oddOut := rfl
@[simp] theorem ingestWords_nsym (s : State) : (ingestWords s).nsym = s.nsym := rfl
@[simp] theorem ingestWords_pos (s : State) : (ingestWords s).pos = s.pos := rfl
@[simp] theorem ingestWords_lo (s : State) : (ingestWords s).lo = s.lo := rfl
@[simp] theorem ingestWords_c (s : State) : (ingestWords s).c = s.c := rfl
@[simp] theorem ingestWords_hit (s : State) : (ingestWords s).hit = s.hit := rfl
@[simp] theorem ingestWords_off (s : State) : (ingestWords s).off = s.off := rfl
@[simp] theorem ingestWords_ml (s : State) : (ingestWords s).ml = s.ml := rfl
@[simp] theorem ingestWords_lit (s : State) : (ingestWords s).lit = s.lit := rfl
@[simp] theorem ingestWords_wcnt (s : State) : (ingestWords s).wcnt = s.wcnt := rfl
@[simp] theorem ingestWords_nwords (s : State) : (ingestWords s).nwords = (symbolsOf (inputBytes s)).length := rfl
@[simp] theorem ingestWords_m (s : State) : (ingestWords s).m = s.m := rfl
@[simp] theorem ingestWords_tpc (s : State) : (ingestWords s).tpc = s.tpc := rfl
@[simp] theorem ingestWords_tOff (s : State) : (ingestWords s).tOff = s.tOff := rfl
@[simp] theorem ingestWords_tLen (s : State) : (ingestWords s).tLen = s.tLen := rfl
@[simp] theorem ingestWords_tLit (s : State) : (ingestWords s).tLit = s.tLit := rfl
@[simp] theorem ingestWords_n (s : State) : (ingestWords s).n = s.n := rfl
@[simp] theorem ingestWords_start (s : State) : (ingestWords s).start = s.start := rfl
@[simp] theorem ingestWords_i (s : State) : (ingestWords s).i = s.i := rfl
@[simp] theorem ingestWords_ibuf (s : State) : (ingestWords s).ibuf = s.ibuf := rfl
@[simp] theorem ingestWords_sym (s : State) : (ingestWords s).sym = symbolsOf (inputBytes s) := rfl
@[simp] theorem ingestWords_tokq (s : State) : (ingestWords s).tokq = s.tokq := rfl
@[simp] theorem ingestWords_outs (s : State) : (ingestWords s).outs = s.outs := rfl
@[simp] theorem ingestWords_obuf (s : State) : (ingestWords s).obuf = s.obuf := rfl
@[simp] theorem ingestWords_win (s : State) : (ingestWords s).win = s.win := rfl
@[simp] theorem ingestWords_hist (s : State) : (ingestWords s).hist = s.hist := rfl
@[simp] theorem ingestWords_stage (s : State) : (ingestWords s).stage = s.stage := rfl
@[simp] theorem ingestWords_opLen (s : State) : (ingestWords s).opLen = s.opLen := rfl
@[simp] theorem ingestWords_opOdd (s : State) : (ingestWords s).opOdd = s.opOdd := rfl
@[simp] theorem ingestWords_inbox (s : State) : (ingestWords s).inbox = s.inbox := rfl
@[simp] theorem ingestWords_fresh (s : State) : (ingestWords s).fresh = s.fresh := rfl
@[simp] theorem ingestWords_resets (s : State) : (ingestWords s).resets = s.resets := rfl

end Sys2Proof.Machine
end

