-- ==== Sys2Proof/Laws/Store.lean ====
section
/-! SUPPORT. The sparse stores: reads after writes, and the canonical form that every operation keeps. -/

namespace Sys2Proof.Machine

section
variable {α : Type}

@[simp] theorem Store_read_nil (a : Nat) : Store.read ([] : Store α) a = none := rfl

/-- A read after a write to the same index gives the value written. -/
@[simp] theorem Store_read_write_same (st : Store α) (a : Nat) (v : α) :
    Store.read (Store.write st a v) a = some v := by
  induction st with
  | nil => simp [Store.write, Store.read]
  | cons e rest ih =>
    obtain ⟨k, w⟩ := e
    simp only [Store.write]
    split
    · simp [Store.read]
    · split
      · simp [Store.read]
      · rename_i h1 h2
        simp [Store.read, ih, Ne.symm h2]

/-- A write leaves every other index alone. -/
theorem Store_read_write_other (st : Store α) {a b : Nat} (v : α) (h : b ≠ a) :
    Store.read (Store.write st a v) b = Store.read st b := by
  induction st with
  | nil => simp [Store.write, Store.read, h.symm]
  | cons e rest ih =>
    obtain ⟨k, w⟩ := e
    simp only [Store.write]
    split
    · simp [Store.read, h.symm]
    · split
      · rename_i h2
        subst h2
        simp [Store.read, h.symm]
      · simp [Store.read, ih]

/-- Both cases of a read after a write. -/
theorem Store_read_write (st : Store α) (a b : Nat) (v : α) :
    Store.read (Store.write st a v) b = if b = a then some v else Store.read st b := by
  split
  · next h => subst h; simp
  · next h => exact Store_read_write_other st v h

/-- The canonical form is the strict order of the indices. -/
theorem Store_wf_iff (st : Store α) :
    Store.wf st = true ↔ List.Pairwise (fun x y : Nat × α => x.1 < y.1) st := by
  induction st with
  | nil => simp [Store.wf]
  | cons e rest ih =>
    cases rest with
    | nil => simp [Store.wf]
    | cons f rest =>
      obtain ⟨a, u⟩ := e
      obtain ⟨b, w⟩ := f
      simp only [Store.wf, Bool.and_eq_true, decide_eq_true_eq, ih]
      constructor
      · rintro ⟨hab, hp⟩
        refine List.pairwise_cons.mpr ⟨?_, hp⟩
        intro y hy
        rcases List.mem_cons.mp hy with rfl | hy
        · exact hab
        · exact Nat.lt_trans hab ((List.pairwise_cons.mp hp).1 y hy)
      · intro hp
        have := List.pairwise_cons.mp hp
        exact ⟨this.1 (b, w) (by simp), this.2⟩

/-- The indices after a write: the old ones and the written one. -/
theorem Store_mem_write {st : Store α} {a : Nat} {v : α} {e : Nat × α} (h : e ∈ Store.write st a v) :
    e = (a, v) ∨ e ∈ st := by
  induction st with
  | nil => simpa [Store.write] using h
  | cons f rest ih =>
    obtain ⟨k, w⟩ := f
    simp only [Store.write] at h
    split at h
    · simpa using h
    · split at h
      · rcases List.mem_cons.mp h with h | h
        · exact .inl h
        · exact .inr (by simp [h])
      · rcases List.mem_cons.mp h with h | h
        · exact .inr (by simp [h])
        · rcases ih h with h | h
          · exact .inl h
          · exact .inr (by simp [h])

/-- A write keeps the canonical form. -/
theorem Store_wf_write {st : Store α} (a : Nat) (v : α) (h : Store.wf st = true) :
    Store.wf (Store.write st a v) = true := by
  rw [Store_wf_iff] at *
  induction st with
  | nil => simp [Store.write]
  | cons f rest ih =>
    obtain ⟨k, w⟩ := f
    obtain ⟨hk, hr⟩ := List.pairwise_cons.mp h
    simp only [Store.write]
    split
    · next hak =>
      refine List.pairwise_cons.mpr ⟨?_, h⟩
      intro y hy
      rcases List.mem_cons.mp hy with rfl | hy
      · exact hak
      · exact Nat.lt_trans hak (hk y hy)
    · split
      · next hka => subst hka; exact List.pairwise_cons.mpr ⟨hk, hr⟩
      · next h1 h2 =>
        refine List.pairwise_cons.mpr ⟨?_, ih hr⟩
        intro y hy
        rcases Store_mem_write hy with rfl | hy
        · show k < a
          omega
        · exact hk y hy

/-- Writing a list keeps the canonical form. -/
theorem Store_wf_writeList {st : Store α} (base : Nat) (vs : List α) (h : Store.wf st = true) :
    Store.wf (Store.writeList st base vs) = true := by
  induction vs generalizing st base with
  | nil => exact h
  | cons v vs ih => exact ih _ (Store_wf_write _ _ h)

/-- What a store reads after a list was written from a base: the list inside its range, the old store outside. -/
theorem Store_read_writeList (st : Store α) (base : Nat) (vs : List α) (a : Nat) :
    Store.read (Store.writeList st base vs) a =
      if base ≤ a ∧ a < base + vs.length then vs[a - base]? else Store.read st a := by
  induction vs generalizing st base with
  | nil =>
    simp [Store.writeList]
  | cons v vs ih =>
    simp only [Store.writeList, ih, Store_read_write, List.length_cons]
    by_cases h0 : a = base
    · subst h0
      simp
    · by_cases h1 : base + 1 ≤ a ∧ a < base + 1 + vs.length
      · have h2 : base ≤ a ∧ a < base + (vs.length + 1) := by omega
        have h3 : a - base = (a - (base + 1)) + 1 := by omega
        simp [h1, h2, h3]
      · have h2 : ¬ (base ≤ a ∧ a < base + (vs.length + 1)) := by omega
        rw [if_neg h1, if_neg h2, if_neg h0]

/-- An index that no entry has reads as nothing. -/
theorem Store_read_eq_none {st : Store α} {a : Nat} (h : ∀ e ∈ st, e.1 ≠ a) : Store.read st a = none := by
  induction st with
  | nil => rfl
  | cons e rest ih =>
    obtain ⟨k, w⟩ := e
    have hk : k ≠ a := h (k, w) (by simp)
    simp [Store.read, hk]
    exact ih (fun e he => h e (by simp [he]))

/-- In canonical form an entry is exactly what its index reads. -/
theorem Store_mem_iff_read {st : Store α} (hwf : Store.wf st = true) (a : Nat) (v : α) :
    (a, v) ∈ st ↔ Store.read st a = some v := by
  rw [Store_wf_iff] at hwf
  induction st with
  | nil => simp
  | cons e rest ih =>
    obtain ⟨k, w⟩ := e
    obtain ⟨hk, hr⟩ := List.pairwise_cons.mp hwf
    by_cases hka : k = a
    · subst hka
      have : ∀ u, (k, u) ∉ rest := fun u hu => Nat.lt_irrefl _ (hk (k, u) hu)
      simp [Store.read, this, eq_comm]
    · have hak : ¬ a = k := fun h => hka h.symm
      simp [Store.read, hka, hak, ih hr]

end

/-- The named byte-space operations keep the canonical form. -/
theorem Memory_wf_write {mem : Memory} (a : Nat) (v : Byte) (h : Memory.wf mem = true) :
    Memory.wf (Memory.write mem a v) = true := Store_wf_write a v h

theorem Memory_wf_writeList {mem : Memory} (base : Nat) (vs : List Byte) (h : Memory.wf mem = true) :
    Memory.wf (Memory.writeList mem base vs) = true := Store_wf_writeList base vs h

theorem Memory_read_writeList (mem : Memory) (base : Nat) (vs : List Byte) (a : Nat) :
    Memory.read (Memory.writeList mem base vs) a =
      if base ≤ a ∧ a < base + vs.length then vs[a - base]? else Memory.read mem a :=
  Store_read_writeList mem base vs a

theorem Memory_read_write (mem : Memory) (a b : Nat) (v : Byte) :
    Memory.read (Memory.write mem a v) b = if b = a then some v else Memory.read mem b :=
  Store_read_write mem a b v

@[simp] theorem Memory_read_nil (a : Nat) : Memory.read [] a = none := rfl

@[simp] theorem Memory_wf_nil : Memory.wf [] = true := rfl

@[simp] theorem Store_wf_nil {α : Type} : Store.wf ([] : Store α) = true := rfl

/-- Writing the bytes that follow a held prefix extends what the space holds. -/
theorem Holds_writeList {mem : Memory} {bs vs : List Byte} {base : Nat} (h : Holds mem bs)
    (hb : base = bs.length) : Holds (Memory.writeList mem base vs) (bs ++ vs) := by
  intro a
  rw [Memory_read_writeList, h a]
  subst hb
  by_cases h1 : a < bs.length
  · have : ¬ (bs.length ≤ a ∧ a < bs.length + vs.length) := by omega
    simp [this, List.getElem?_append_left h1]
  · rw [List.getElem?_append_right (by omega)]
    split
    · rfl
    · next h2 =>
      rw [List.getElem?_eq_none (by omega), List.getElem?_eq_none (by omega)]

@[simp] theorem Holds_nil : Holds [] [] := fun a => by simp

/-- Held bytes are determined by what the space reads. -/
theorem Holds_read {mem : Memory} {bs : List Byte} (h : Holds mem bs) {a : Nat} (ha : a < bs.length) :
    Memory.read mem a = some bs[a] := by rw [h a]; simp [ha]

end Sys2Proof.Machine
end

