-- ==== Sys2Proof/Laws/Matcher.lean ====
section
/-! SUPPORT. The window matcher: the search, the extension, WIN, and everything one MATCH step can do. -/

namespace Sys2Proof.Machine

/-- The scan finds the least index with an equal symbol (41_window_matcher.md R113). -/
theorem search_eq_some {sym : List Symbol} {x : Symbol} {c count j : Nat} :
    search sym x c count = some j ↔
      c ≤ j ∧ j < c + count ∧ sym[j]? = some x ∧ ∀ i, c ≤ i → i < j → sym[i]? ≠ some x := by
  induction count generalizing c with
  | zero =>
    simp only [search]
    constructor
    · intro h; cases h
    · rintro ⟨h1, h2, -⟩; omega
  | succ count ih =>
    simp only [search]
    split
    · next hx =>
      constructor
      · intro h
        cases h
        exact ⟨Nat.le_refl _, by omega, hx, fun i h1 h2 => by omega⟩
      · rintro ⟨h1, -, -, h4⟩
        rcases Nat.lt_or_eq_of_le h1 with h | h
        · exact absurd hx (h4 c (Nat.le_refl _) h)
        · rw [h]
    · next hx =>
      rw [ih]
      constructor
      · rintro ⟨h1, h2, h3, h4⟩
        refine ⟨by omega, by omega, h3, fun i hi hj => ?_⟩
        rcases Nat.lt_or_eq_of_le hi with h | h
        · exact h4 i h hj
        · rw [← h]; exact hx
      · rintro ⟨h1, h2, h3, h4⟩
        have hne : c ≠ j := fun h => hx (h ▸ h3)
        exact ⟨by omega, by omega, h3, fun i hi hj => h4 i (by omega) hj⟩

/-- The scan fails exactly when no candidate is equal (41_window_matcher.md R113). -/
theorem search_eq_none {sym : List Symbol} {x : Symbol} {c count : Nat} :
    search sym x c count = none ↔ ∀ i, c ≤ i → i < c + count → sym[i]? ≠ some x := by
  induction count generalizing c with
  | zero =>
    simp only [search]
    exact ⟨fun _ i h1 h2 => by omega, fun _ => by trivial⟩
  | succ count ih =>
    simp only [search]
    split
    · next hx =>
      constructor
      · intro h; cases h
      · intro h; exact absurd hx (h c (Nat.le_refl _) (by omega))
    · next hx =>
      rw [ih]
      constructor
      · intro h i hi hj
        rcases Nat.lt_or_eq_of_le hi with h' | h'
        · exact h i h' (by omega)
        · rw [← h']; exact hx
      · intro h i hi hj
        exact h i (by omega) (by omega)

/-- The three conditions of MATCH.EXTEND (41_window_matcher.md R116). -/
theorem canExtend_iff {sym : List Symbol} {nsym pos c ml : Nat} :
    canExtend sym nsym pos c ml = true ↔
      c + ml < pos ∧ pos + ml < nsym - 1 ∧ ∃ a, sym[pos + ml]? = some a ∧ sym[c + ml]? = some a := by
  unfold canExtend
  cases h1 : sym[pos + ml]? <;> cases h2 : sym[c + ml]? <;> simp
  intro _ _
  exact eq_comm

/-- Greedy extension: every length passed over satisfies the condition, and the one it stops at does not unless
the iteration bound was reached (41_window_matcher.md R116). -/
theorem extendMatch_spec (sym : List Symbol) (nsym pos c ml count : Nat) :
    ml ≤ extendMatch sym nsym pos c ml count ∧ extendMatch sym nsym pos c ml count ≤ ml + count ∧
    (∀ k, ml ≤ k → k < extendMatch sym nsym pos c ml count → canExtend sym nsym pos c k = true) ∧
    (extendMatch sym nsym pos c ml count < ml + count →
      canExtend sym nsym pos c (extendMatch sym nsym pos c ml count) = false) := by
  induction count generalizing ml with
  | zero =>
    simp only [extendMatch]
    exact ⟨Nat.le_refl _, by omega, fun k h1 h2 => by omega, fun h => by omega⟩
  | succ count ih =>
    simp only [extendMatch]
    split
    · next he =>
      obtain ⟨h1, h2, h3, h4⟩ := ih (ml + 1)
      refine ⟨by omega, by omega, fun k hk hk' => ?_, fun h => h4 (by omega)⟩
      rcases Nat.lt_or_eq_of_le hk with h | h
      · exact h3 k h hk'
      · rw [← h]; exact he
    · next he =>
      exact ⟨Nat.le_refl _, by omega, fun k h1 h2 => by omega, fun _ => by simpa using he⟩

/-- The match length of one MATCH step: the least length from 1 at which the condition fails; it is at most the
offset and leaves a literal (41_window_matcher.md R116, R125). -/
theorem extendMatch_from_one {sym : List Symbol} {nsym pos c : Nat} (hc : c < pos) (hp : pos < nsym - 1) :
    let ml := extendMatch sym nsym pos c 1 (pos - c)
    1 ≤ ml ∧ ml ≤ pos - c ∧ pos + ml ≤ nsym - 1 ∧
    (∀ k, 1 ≤ k → k < ml → canExtend sym nsym pos c k = true) ∧ canExtend sym nsym pos c ml = false := by
  intro ml
  obtain ⟨h1, h2, h3, h4⟩ := extendMatch_spec sym nsym pos c 1 (pos - c)
  have hb : ml ≤ pos - c ∧ pos + ml ≤ nsym - 1 := by
    rcases Nat.lt_or_eq_of_le h1 with h | h
    · obtain ⟨ha, hb, -⟩ := canExtend_iff.mp (h3 (ml - 1) (by omega) (by omega))
      omega
    · have : ml = 1 := h.symm
      omega
  exact ⟨h1, hb.1, hb.2, h3, h4 (by omega)⟩

/-- Entries that pass behind `pos` keep WIN canonical. -/
theorem shiftIn_wf {W : Nat} {sym : List Symbol} (j count : Nat) {win : Store Symbol}
    (h : Store.wf win = true) : Store.wf (shiftIn W sym j count win) = true := by
  induction count generalizing j win with
  | zero => exact h
  | succ count ih =>
    simp only [shiftIn]
    split
    · exact ih _ (Store_wf_write _ _ h)
    · exact ih _ h

/-- One symbol passing behind `pos` keeps WIN what 10_state.md R38 says. -/
theorem WinHolds_write {W : Nat} {win : Store Symbol} {sym : List Symbol} {pos : Nat} {v : Symbol}
    (hW : 0 < W) (h : WinHolds W win sym pos) (hv : sym[pos]? = some v) :
    WinHolds W (Store.write win (pos % W) v) sym (pos + 1) := by
  obtain ⟨h1, h2⟩ := h
  constructor
  · intro j hj hj'
    rw [Store_read_write]
    split
    · next heq =>
      by_cases hjp : j = pos
      · rw [hjp, hv]
      · exfalso
        have hjlt : j < pos := by omega
        have hd : pos - j < W := by omega
        have : (pos - j) % W = 0 := (Nat.modEq_iff_dvd' (by omega)).mp (show j ≡ pos [MOD W] from heq) |> Nat.mod_eq_zero_of_dvd
        rw [Nat.mod_eq_of_lt hd] at this
        omega
    · next hne =>
      have : j ≠ pos := fun h => hne (by rw [h])
      exact h1 j (by omega) (by omega)
  · intro k hk
    have hkp : pos % W ≠ k := hk pos (by omega) (by omega)
    rw [Store_read_write, if_neg (Ne.symm hkp)]
    by_cases hin : ∃ j, pos - W ≤ j ∧ j < pos ∧ j % W = k
    · obtain ⟨j, hj1, hj2, hj3⟩ := hin
      by_cases hj4 : pos + 1 - W ≤ j
      · exact absurd hj3 (hk j hj4 (by omega))
      · exfalso
        have hjw : j + W = pos := by omega
        apply hkp
        rw [← hjw, Nat.add_mod_right, hj3]
    · exact h2 k (fun j hj1 hj2 hj3 => hin ⟨j, hj1, hj2, hj3⟩)

/-- Advancing over `count` symbols keeps WIN what 10_state.md R38 says. -/
theorem WinHolds_shiftIn {W : Nat} (hW : 0 < W) {sym : List Symbol} (count : Nat) {pos : Nat} {win : Store Symbol}
    (h : WinHolds W win sym pos) (hlen : pos + count ≤ sym.length) :
    WinHolds W (shiftIn W sym pos count win) sym (pos + count) := by
  induction count generalizing pos win with
  | zero => exact h
  | succ count ih =>
    have hp : pos < sym.length := by omega
    have hv : sym[pos]? = some sym[pos] := List.getElem?_eq_getElem hp
    simp only [shiftIn, hv]
    have := ih (WinHolds_write hW h hv) (by omega)
    rwa [show pos + 1 + count = pos + (count + 1) by omega] at this

/-- Before any symbol has passed, WIN is invalid throughout. -/
theorem WinHolds_zero (W : Nat) (sym : List Symbol) : WinHolds W [] sym 0 :=
  ⟨fun j _ h => by omega, fun _ _ => rfl⟩

/-- Everything one MATCH step can do when SYM is whole: the terminal literal, the literal after a failed search,
or the match at the least candidate with its greedy length (41_window_matcher.md R110 to R122). -/
theorem execMatcher_cases {s : State} (hlen : s.nsym = s.sym.length) (hpos : s.pos < s.nsym) :
    (s.pos = s.nsym - 1 ∧ execMatcher s = .next (emitLiteral (s.sym[s.pos]'(by omega)) s)) ∨
    (s.pos < s.nsym - 1 ∧
      (∀ i, s.pos - Config.W ≤ i → i < s.pos → s.sym[i]? ≠ s.sym[s.pos]?) ∧
      execMatcher s = .next (emitLiteral (s.sym[s.pos]'(by omega))
        { s with lo := s.pos - Config.W, c := s.pos })) ∨
    (∃ c ml y, s.pos < s.nsym - 1 ∧ s.pos - Config.W ≤ c ∧ c < s.pos ∧ s.sym[c]? = s.sym[s.pos]? ∧
      (∀ i, s.pos - Config.W ≤ i → i < c → s.sym[i]? ≠ s.sym[s.pos]?) ∧
      1 ≤ ml ∧ ml ≤ s.pos - c ∧ s.pos + ml ≤ s.nsym - 1 ∧
      (∀ k, 1 ≤ k → k < ml → canExtend s.sym s.nsym s.pos c k = true) ∧
      canExtend s.sym s.nsym s.pos c ml = false ∧
      s.sym[s.pos + ml]? = some y ∧
      execMatcher s = .next (emitMatch (s.pos - c) ml y { s with lo := s.pos - Config.W, c := c })) := by
  have hlt : s.pos < s.sym.length := by omega
  have hx : s.sym[s.pos]? = some s.sym[s.pos] := List.getElem?_eq_getElem hlt
  have hnle : ¬ s.nsym ≤ s.pos := by omega
  by_cases hterm : s.pos = s.nsym - 1
  · left
    refine ⟨hterm, ?_⟩
    unfold execMatcher
    rw [if_neg hnle, hx]
    simp only
    rw [if_pos hterm]
  · right
    have hcount : s.pos - Config.W + (s.pos - (s.pos - Config.W)) = s.pos := by omega
    cases hs : search s.sym s.sym[s.pos] (windowStart Config.W s.pos) (s.pos - windowStart Config.W s.pos) with
    | none =>
      left
      have hnone := search_eq_none.mp hs
      refine ⟨by omega, ?_, ?_⟩
      · intro i h1 h2
        rw [hx]
        exact hnone i h1 (by unfold windowStart; omega)
      · unfold execMatcher
        rw [if_neg hnle, hx]
        simp only
        rw [if_neg hterm, hs]
        rfl
    | some c =>
      right
      obtain ⟨h1, h2, h3, h4⟩ := search_eq_some.mp hs
      have hcp : c < s.pos := by unfold windowStart at h2; omega
      obtain ⟨m1, m2, m3, m4, m5⟩ :=
        extendMatch_from_one (sym := s.sym) (nsym := s.nsym) (pos := s.pos) hcp (by omega)
      have hyl : s.pos + extendMatch s.sym s.nsym s.pos c 1 (s.pos - c) < s.sym.length := by omega
      have hy := List.getElem?_eq_getElem hyl
      refine ⟨c, _, _, by omega, h1, hcp, by rw [h3, hx], ?_, m1, m2, m3, m4, m5, hy, ?_⟩
      · intro i hi hi'
        rw [hx]
        exact h4 i hi hi'
      · unfold execMatcher
        rw [if_neg hnle, hx]
        simp only
        rw [if_neg hterm, hs]
        simp only
        rw [hy]
        rfl

end Sys2Proof.Machine
end

