-- ==== Sys2Proof/Laws/Operands.lean ====
section
/-! SUPPORT. The operand forms: bytes and symbols, words and tokens, the packing of a token. -/

namespace Sys2Proof

@[simp] theorem hiByte_pairBytes (hi lo : Byte) : hiByte (pairBytes hi lo) = hi := by
  apply BitVec.eq_of_getLsbD_eq
  intro i h
  simp only [hiByte, pairBytes, BitVec.getLsbD_extractLsb', BitVec.getLsbD_append]
  simp [h]

@[simp] theorem loByte_pairBytes (hi lo : Byte) : loByte (pairBytes hi lo) = lo := by
  apply BitVec.eq_of_getLsbD_eq
  intro i h
  simp only [loByte, pairBytes, BitVec.getLsbD_extractLsb', BitVec.getLsbD_append]
  simp [h]

@[simp] theorem pairBytes_hiByte_loByte (v : Symbol) : pairBytes (hiByte v) (loByte v) = v := by
  apply BitVec.eq_of_getLsbD_eq
  intro i h
  simp only [hiByte, loByte, pairBytes, BitVec.getLsbD_extractLsb', BitVec.getLsbD_append]
  by_cases h8 : i < 8
  · simp [h8]
  · have : i - 8 < 8 := by omega
    simp [h8, this]
    congr 1
    omega

/-- The three fields come back out of the 48 bits (30_encoding.md R81). -/
@[simp] theorem tokenBits_offset (off len lit : Symbol) : (tokenBits off len lit).extractLsb' 32 16 = off := by
  apply BitVec.eq_of_getLsbD_eq
  intro i h
  simp only [tokenBits, BitVec.getLsbD_extractLsb', BitVec.getLsbD_append]
  have h1 : ¬ (32 + i < 16) := by omega
  have h2 : ¬ (32 + i - 16 < 16) := by omega
  have h3 : 32 + i - 16 - 16 = i := by omega
  simp [h, h1, h2, h3]

@[simp] theorem tokenBits_length (off len lit : Symbol) : (tokenBits off len lit).extractLsb' 16 16 = len := by
  apply BitVec.eq_of_getLsbD_eq
  intro i h
  simp only [tokenBits, BitVec.getLsbD_extractLsb', BitVec.getLsbD_append]
  have h1 : ¬ (16 + i < 16) := by omega
  have h3 : 16 + i - 16 = i := by omega
  simp [h, h1, h3]

@[simp] theorem tokenBits_literal (off len lit : Symbol) : (tokenBits off len lit).extractLsb' 0 16 = lit := by
  apply BitVec.eq_of_getLsbD_eq
  intro i h
  simp only [tokenBits, BitVec.getLsbD_extractLsb', BitVec.getLsbD_append]
  simp [h]

theorem classify_lit (x : Symbol) : classify 0 0 x = .lit x := rfl

theorem classify_rsv0 {l : Symbol} (x : Symbol) (hl : l ≠ 0) : classify 0 l x = .rsv0 l x := by
  unfold classify
  rw [if_pos rfl, if_neg hl]

theorem classify_rsvl0 {d : Symbol} (x : Symbol) (hd : d ≠ 0) : classify d 0 x = .rsvl0 d x := by
  unfold classify
  rw [if_neg hd, if_pos rfl]

theorem classify_copy {d l : Symbol} (x : Symbol) (hd : d ≠ 0) (hl : l ≠ 0) :
    classify d l x = .copy d l x := by
  unfold classify
  rw [if_neg hd, if_neg hl]

/-- Decoding assembled fields is their classification (30_encoding.md R86). -/
@[simp] theorem decodeToken_tokenBits (off len lit : Symbol) :
    decodeToken (tokenBits off len lit) = classify off len lit := by
  simp [decodeToken]

/-- The six-byte layout decodes to the classified fields, with nothing left (30_encoding.md R82). -/
theorem decodeBytes_tokenBytes (off len lit : Symbol) (rest : List Byte) :
    decodeBytes (tokenBytes off len lit ++ rest) = .ok (classify off len lit, rest) := by
  simp [tokenBytes, wordBytes, decodeBytes]

@[simp] theorem tokenBytes_length (off len lit : Symbol) : (tokenBytes off len lit).length = 6 := rfl

end Sys2Proof

namespace Sys2Proof.Machine

theorem symbolsOf_length : ∀ bs : List Byte, (symbolsOf bs).length = (bs.length + 1) / 2
  | [] => by simp [symbolsOf]
  | [_] => by simp [symbolsOf]
  | _ :: _ :: rest => by
    simp only [symbolsOf, List.length_cons, symbolsOf_length rest]
    omega

/-- A whole pair of bytes makes the symbol of its index (20_memory.md R57). -/
theorem symbolsOf_getElem_pair : ∀ (bs : List Byte) (j : Nat) (h : 2 * j + 1 < bs.length),
    (symbolsOf bs)[j]? = some (pairBytes bs[2 * j] bs[2 * j + 1])
  | [], j, h => by simp at h
  | [_], j, h => by simp at h
  | a :: b :: rest, 0, _ => by simp [symbolsOf]
  | a :: b :: rest, j + 1, h => by
    have h' : 2 * j + 1 < rest.length := by simp at h; omega
    simp only [symbolsOf, List.getElem?_cons_succ]
    rw [symbolsOf_getElem_pair rest j h']
    rfl

/-- One trailing byte makes the last symbol with a zero low byte (20_memory.md R60). -/
theorem symbolsOf_getElem_last : ∀ (bs : List Byte) (j : Nat) (h : 2 * j + 1 = bs.length),
    (symbolsOf bs)[j]? = some (pairBytes (bs[2 * j]'(by omega)) 0)
  | [], j, h => by simp at h
  | [a], j, h => by
    have : j = 0 := by simp at h; omega
    subst this
    simp [symbolsOf]
  | a :: b :: rest, 0, h => by simp at h
  | a :: b :: rest, j + 1, h => by
    have h' : 2 * j + 1 = rest.length := by simp at h; omega
    simp only [symbolsOf, List.getElem?_cons_succ]
    rw [symbolsOf_getElem_last rest j h']
    rfl

@[simp] theorem bytesOf_nil : bytesOf [] = [] := rfl

@[simp] theorem bytesOf_cons (v : Symbol) (vs : List Symbol) :
    bytesOf (v :: vs) = hiByte v :: loByte v :: bytesOf vs := rfl

@[simp] theorem bytesOf_append (xs ys : List Symbol) : bytesOf (xs ++ ys) = bytesOf xs ++ bytesOf ys := by
  simp [bytesOf]

@[simp] theorem bytesOf_length (vs : List Symbol) : (bytesOf vs).length = 2 * vs.length := by
  induction vs with
  | nil => rfl
  | cons v vs ih => simp [ih]; omega

@[simp] theorem symbolsOf_bytesOf (vs : List Symbol) : symbolsOf (bytesOf vs) = vs := by
  induction vs with
  | nil => rfl
  | cons v vs ih => simp [symbolsOf, ih]

theorem bytesOf_getElem (vs : List Symbol) (j : Nat) (h : j < vs.length) :
    (bytesOf vs)[2 * j]? = some (hiByte vs[j]) ∧ (bytesOf vs)[2 * j + 1]? = some (loByte vs[j]) := by
  induction vs generalizing j with
  | nil => simp at h
  | cons v vs ih =>
    cases j with
    | zero => simp
    | succ j =>
      have h' : j < vs.length := by simpa using h
      simpa [Nat.mul_succ] using ih j h'

@[simp] theorem inputBytes_length (s : State) : (inputBytes s).length = s.opLen := by simp [inputBytes]

@[simp] theorem inputBytes_getElem (s : State) (a : Nat) (h : a < (inputBytes s).length) :
    (inputBytes s)[a] = ibufByte s a := by simp [inputBytes]

/-- The input byte sequence depends on IBUF, the latched length and the reset count alone. -/
theorem inputBytes_congr {s t : State} (h1 : t.ibuf = s.ibuf) (h2 : t.opLen = s.opLen)
    (h3 : t.resets = s.resets) : inputBytes t = inputBytes s := by
  simp [inputBytes, ibufByte, h1, h2, h3]

theorem tokensOf_length : ∀ ws : List Symbol, (tokensOf ws).length = ws.length / 3
  | [] => by simp [tokensOf]
  | [_] => by simp [tokensOf]
  | [_, _] => by simp [tokensOf]
  | _ :: _ :: _ :: rest => by
    simp only [tokensOf, List.length_cons, tokensOf_length rest]
    omega

/-- Token `k` is words `3k`, `3k + 1`, `3k + 2` (30_encoding.md R84). -/
theorem tokensOf_getElem : ∀ (ws : List Symbol) (k : Nat) (h : 3 * k + 2 < ws.length),
    (tokensOf ws)[k]? = some { off := ws[3 * k].toNat, len := ws[3 * k + 1].toNat, lit := ws[3 * k + 2] }
  | [], k, h => by simp at h
  | [_], k, h => by simp at h
  | [_, _], k, h => by simp at h
  | a :: b :: c :: rest, 0, _ => by simp [tokensOf]
  | a :: b :: c :: rest, k + 1, h => by
    have h' : 3 * k + 2 < rest.length := by simp at h; omega
    simp only [tokensOf, List.getElem?_cons_succ]
    rw [tokensOf_getElem rest k h']
    rfl

/-- Grouping in triples goes chunk by chunk when a chunk is a whole number of triples. -/
theorem tokensOf_append : ∀ (xs ys : List Symbol), xs.length % 3 = 0 →
    tokensOf (xs ++ ys) = tokensOf xs ++ tokensOf ys
  | [], ys, _ => by simp [tokensOf]
  | [_], ys, h => by simp at h
  | [_, _], ys, h => by simp at h
  | a :: b :: c :: rest, ys, h => by
    have h' : rest.length % 3 = 0 := by simp at h; omega
    simp [tokensOf, tokensOf_append rest ys h']

/-- The fields of a grouped token are words. -/
theorem tokensOf_fits : ∀ (ws : List Symbol) (t : Token), t ∈ tokensOf ws → t.off < 65536 ∧ t.len < 65536
  | [], t, h => by simp [tokensOf] at h
  | [_], t, h => by simp [tokensOf] at h
  | [_, _], t, h => by simp [tokensOf] at h
  | a :: b :: c :: rest, t, h => by
    simp only [tokensOf, List.mem_cons] at h
    rcases h with rfl | h
    · exact ⟨a.isLt, b.isLt⟩
    · exact tokensOf_fits rest t h

/-- Bytes cut at a symbol boundary are the symbols cut there. -/
theorem symbolsOf_take (k : Nat) (bs : List Byte) : symbolsOf (bs.take (2 * k)) = (symbolsOf bs).take k := by
  induction k generalizing bs with
  | zero => simp [symbolsOf]
  | succ k ih =>
    match bs with
    | [] => simp [symbolsOf]
    | [_] => simp [symbolsOf, Nat.mul_succ]
    | a :: b :: rest => simp [symbolsOf, Nat.mul_succ, ih]

/-- Words cut at a token boundary are the tokens cut there (42_token_codec.md R147). -/
theorem tokensOf_take (k : Nat) (ws : List Symbol) : tokensOf (ws.take (3 * k)) = (tokensOf ws).take k := by
  induction k generalizing ws with
  | zero => simp [tokensOf]
  | succ k ih =>
    match ws with
    | [] => simp [tokensOf]
    | [_] => simp [tokensOf, Nat.mul_succ]
    | [_, _] => simp [tokensOf, Nat.mul_succ]
    | a :: b :: c :: rest => simp [tokensOf, Nat.mul_succ, ih]

@[simp] theorem packToken_length (t : Token) : (packToken t).length = 6 := rfl

@[simp] theorem containerOf_nil : containerOf [] = [] := rfl

@[simp] theorem containerOf_cons (t : Token) (ts : List Token) :
    containerOf (t :: ts) = packToken t ++ containerOf ts := rfl

@[simp] theorem containerOf_append (ts us : List Token) :
    containerOf (ts ++ us) = containerOf ts ++ containerOf us := by simp [containerOf]

@[simp] theorem containerOf_length (ts : List Token) : (containerOf ts).length = 6 * ts.length := by
  induction ts with
  | nil => rfl
  | cons t ts ih => simp [ih]; omega

/-- A field that fits a word survives the packing (42_token_codec.md R141). -/
theorem fieldWord_toNat {v : Nat} (h : fitsWord v = true) : (fieldWord v).toNat = v := by
  have : v ≤ 65535 := of_decide_eq_true h
  simp [fieldWord]
  omega

@[simp] theorem withinCap_eq_true (len : Nat) : withinCap len = true := rfl

/-- The six bytes of a token read back as its three words (20_memory.md R58). -/
theorem symbolsOf_packToken_append (t : Token) (bs : List Byte) :
    symbolsOf (packToken t ++ bs) = fieldWord t.off :: fieldWord t.len :: t.lit :: symbolsOf bs := by
  simp [packToken, tokenBytes, wordBytes, symbolsOf]

end Sys2Proof.Machine
end

