-- ==== Sys2Proof/Laws/Reconstructor.lean ====
section
/-! SUPPORT. The reconstructor: HIST, the copy loop in closed form, and the agreement of token execution with the
reference replay. -/

namespace Sys2Proof.Machine

/-- An append keeps HIST what 10_state.md R39 says. -/
theorem HistHolds_append {hist : Store Symbol} {outs : List Symbol} {n : Nat} (v : Symbol)
    (hlen : outs.length = n) (h : HistHolds hist outs n) :
    HistHolds (Store.write hist (n % Config.HCAP) v) (outs ++ [v]) (n + 1) := by
  intro j hj hj'
  rw [Store_read_write]
  by_cases hjn : j = n
  · subst hjn
    subst hlen
    simp
  · have hlt : j < n := by omega
    have hne : j % Config.HCAP ≠ n % Config.HCAP := by
      intro heq
      have hd : n - j < Config.HCAP := by omega
      have : (n - j) % Config.HCAP = 0 :=
        Nat.mod_eq_zero_of_dvd ((Nat.modEq_iff_dvd' (by omega)).mp (show j ≡ n [MOD Config.HCAP] from heq))
      rw [Nat.mod_eq_of_lt hd] at this
      omega
    rw [if_neg hne, h j (by omega) hlt, List.getElem?_append_left (by omega)]

/-- Before any append HIST holds what it must: nothing. -/
theorem HistHolds_zero (hist : Store Symbol) (outs : List Symbol) : HistHolds hist outs 0 :=
  fun j _ h => by omega

@[simp] theorem cyclic_length (base : List Symbol) (len : Nat) : (cyclic base len).length = len := by
  simp [cyclic]

@[simp] theorem cyclic_zero (base : List Symbol) : cyclic base 0 = [] := rfl

theorem cyclic_succ (base : List Symbol) (len : Nat) :
    cyclic base (len + 1) = cyclic base len ++ [base.getD (len % base.length) 0] := by
  simp [cyclic, List.range_succ]

theorem cyclic_getElem? (base : List Symbol) (len i : Nat) (h : i < len) :
    (cyclic base len)[i]? = some (base.getD (i % base.length) 0) := by
  simp [cyclic, h]

/-- The symbol `d` behind the cursor, after `k` symbols of the period have been appended, is the period's next
symbol (44_reconstructor.md R179, R181). -/
theorem cyclic_next (outs : List Symbol) (d k : Nat) (hd : 1 ≤ d) (hn : d ≤ outs.length) :
    (outs ++ cyclic (outs.drop (outs.length - d)) k)[outs.length - d + k]? =
      some ((outs.drop (outs.length - d)).getD (k % d) 0) := by
  have hbl : (outs.drop (outs.length - d)).length = d := by simp; omega
  by_cases hk : k < d
  · have h1 : outs.length - d + k < outs.length := by omega
    rw [List.getElem?_append_left h1, Nat.mod_eq_of_lt hk, List.getElem?_eq_getElem h1]
    have h2 : k < (outs.drop (outs.length - d)).length := by omega
    rw [List.getD_eq_getElem _ _ h2, List.getElem_drop]
  · have h1 : outs.length ≤ outs.length - d + k := by omega
    rw [List.getElem?_append_right h1]
    have h2 : outs.length - d + k - outs.length = k - d := by omega
    rw [h2, cyclic_getElem? _ _ _ (by omega), hbl]
    congr 2
    rw [← Nat.mod_eq_sub_mod (by omega)]

/-- The copy loop, in closed form: it appends `count` symbols of the period that the last `d` symbols form, one
at a time, and changes OUTS, HIST, `n` and `i` only (44_reconstructor.md R179, R181). -/
theorem copyLoop_spec (d : Nat) (hd : 1 ≤ d) (base : State) (hn : d ≤ base.outs.length)
    (hlen : base.outs.length = base.n) (hstart : base.start = base.n - d) :
    ∀ (count k : Nat) (hist : Store Symbol) (s : State),
      s = { base with outs := base.outs ++ cyclic (base.outs.drop (base.outs.length - d)) k, hist := hist,
                      n := base.n + k, i := k } →
      ∃ hist', copyLoop count s =
          some { base with outs := base.outs ++ cyclic (base.outs.drop (base.outs.length - d)) (k + count),
                           hist := hist', n := base.n + (k + count), i := k + count } ∧
        (HistHolds hist s.outs s.n → HistHolds hist'
          (base.outs ++ cyclic (base.outs.drop (base.outs.length - d)) (k + count)) (base.n + (k + count))) ∧
        (Store.wf hist = true → Store.wf hist' = true) := by
  have hbl : (base.outs.drop (base.outs.length - d)).length = d := by simp; omega
  intro count
  induction count with
  | zero =>
    intro k hist s hs
    subst hs
    exact ⟨hist, rfl, fun h => h, fun h => h⟩
  | succ count ih =>
    intro k hist s hs
    have hread : s.outs[s.start + s.i]? = some ((base.outs.drop (base.outs.length - d)).getD (k % d) 0) := by
      subst hs
      simp only [hstart, ← hlen]
      exact cyclic_next base.outs d k hd hn
    have hstep : copyLoop (count + 1) s =
        copyLoop count { appendOut ((base.outs.drop (base.outs.length - d)).getD (k % d) 0) s with i := s.i + 1 } := by
      simp only [copyLoop, hread]
    obtain ⟨hist', h1, h2, h3⟩ := ih (k + 1)
      (Store.write hist ((base.n + k) % Config.HCAP) ((base.outs.drop (base.outs.length - d)).getD (k % d) 0))
      { appendOut ((base.outs.drop (base.outs.length - d)).getD (k % d) 0) s with i := s.i + 1 } (by
        subst hs
        simp only [appendOut, cyclic_succ, hbl, List.append_assoc, Nat.add_assoc])
    refine ⟨hist', ?_, ?_, ?_⟩
    · rw [hstep, h1]
      congr 2 <;> simp only [Nat.add_assoc, Nat.add_comm 1]
    · intro hh
      have := h2 (by
        subst hs
        exact HistHolds_append _ (by simp [hlen]) hh)
      rwa [show k + 1 + count = k + (count + 1) by omega] at this
    · intro hw
      exact h3 (Store_wf_write _ _ hw)

/-- The copy branch where it does not fault: the period, then the literal; `start` and `i` are the copy's, and
nothing else of the state changes (44_reconstructor.md R178 to R181, R183). -/
theorem copyBranch_next (d l x : Symbol) {s : State} (hlen : s.outs.length = s.n) (hd : 1 ≤ d.toNat)
    (hn : d.toNat ≤ s.n) :
    ∃ hist', copyBranch d l x s = .next { s with
        outs := s.outs ++ cyclic (s.outs.drop (s.outs.length - d.toNat)) l.toNat ++ [x], hist := hist',
        n := s.n + l.toNat + 1, start := s.n - d.toNat, i := l.toNat, tpc := s.tpc + 1 } ∧
      (HistHolds s.hist s.outs s.n → HistHolds hist'
        (s.outs ++ cyclic (s.outs.drop (s.outs.length - d.toNat)) l.toNat ++ [x]) (s.n + l.toNat + 1)) ∧
      (Store.wf s.hist = true → Store.wf hist' = true) := by
  obtain ⟨hist', h1, h2, h3⟩ := copyLoop_spec d.toNat hd { s with start := s.n - d.toNat, i := 0 }
    (by simpa [hlen] using hn) hlen rfl l.toNat 0 s.hist { s with start := s.n - d.toNat, i := 0 } (by simp)
  refine ⟨Store.write hist' ((s.n + l.toNat) % Config.HCAP) x, ?_, ?_, ?_⟩
  · unfold copyBranch
    rw [if_neg (by omega), h1]
    simp [finishToken, appendOut]
  · intro hh
    have := h2 hh
    simp only [Nat.zero_add] at this
    exact HistHolds_append x (by simp [hlen]) this
  · intro hw
    exact Store_wf_write _ _ (h3 hw)

/-- The copy branch where the offset is beyond the cursor: InvalidBackReference before anything is appended
(44_reconstructor.md R178). -/
theorem copyBranch_raise (d l x : Symbol) {s : State} (h : s.n < d.toNat) :
    copyBranch d l x s = .next (raise .invalidBackReference s) := by
  unfold copyBranch
  rw [if_pos h]

/-- The token a class of instruction stands for (30_encoding.md R86). -/
def tokenOf (off len lit : Symbol) : Token := { off := off.toNat, len := len.toNat, lit := lit }

theorem toNat_eq_zero_iff (v : Symbol) : v.toNat = 0 ↔ v = 0 := by
  constructor
  · intro h; exact BitVec.eq_of_toNat_eq (by simpa using h)
  · rintro rfl; rfl

/-- Executing a token agrees with the reference replay: the replayed buffer where the replay goes on,
InvalidBackReference where it stops (44_reconstructor.md R176 to R183). -/
theorem exec_token_replay (off len lit : Symbol) {s : State} (hlen : s.outs.length = s.n) :
    (∀ outs', replayToken s.outs (tokenOf off len lit) = some outs' →
      ∃ hist' start' i', exec (classify off len lit) s = .next { s with
          outs := outs', hist := hist', n := s.n + len.toNat + 1, start := start', i := i',
          tpc := s.tpc + 1 } ∧ outs'.length = s.n + len.toNat + 1 ∧
        (HistHolds s.hist s.outs s.n → HistHolds hist' outs' (s.n + len.toNat + 1)) ∧
        (Store.wf s.hist = true → Store.wf hist' = true)) ∧
    (replayToken s.outs (tokenOf off len lit) = none →
      exec (classify off len lit) s = .next (raise .invalidBackReference s)) := by
  unfold replayToken tokenOf
  simp only [toNat_eq_zero_iff]
  by_cases ho : off = 0
  · subst ho
    by_cases hl : len = 0
    · subst hl
      rw [if_pos ⟨rfl, rfl⟩, classify_lit]
      refine ⟨fun outs' h => ?_, fun h => by cases h⟩
      cases h
      exact ⟨Store.write s.hist (s.n % Config.HCAP) lit, s.start, s.i, rfl, by simp [hlen],
        fun hh => HistHolds_append _ hlen hh, fun hw => Store_wf_write _ _ hw⟩
    · rw [if_neg (fun h => hl h.2), if_pos (.inl rfl), classify_rsv0 _ hl]
      exact ⟨fun outs' h => (by cases h), fun _ => rfl⟩
  · have hpos : 1 ≤ off.toNat := Nat.one_le_iff_ne_zero.mpr (fun h => ho ((toNat_eq_zero_iff off).mp h))
    have key : exec (classify off len lit) s = copyBranch off len lit s := by
      by_cases hl : len = 0
      · subst hl; rw [classify_rsvl0 _ ho]; rfl
      · rw [classify_copy _ ho hl]; rfl
    rw [key, if_neg (fun h => ho h.1)]
    by_cases hlt : s.outs.length < off.toNat
    · rw [if_pos (.inr hlt)]
      exact ⟨fun outs' h => (by cases h), fun _ => copyBranch_raise _ _ _ (by omega)⟩
    · rw [if_neg (fun h => h.elim ho hlt)]
      refine ⟨fun outs' h => ?_, fun h => by cases h⟩
      cases h
      obtain ⟨hist', h1, h2, h3⟩ := copyBranch_next off len lit hlen hpos (by omega)
      exact ⟨hist', _, _, h1, by simp [hlen]; omega, h2, h3⟩

/-! ### The reference replay -/

theorem replay_append (outs : List Symbol) (ts us : List Token) :
    replay outs (ts ++ us) = (replay outs ts).bind (fun o => replay o us) := by
  induction ts generalizing outs with
  | nil => rfl
  | cons t ts ih =>
    simp only [List.cons_append, replay]
    cases replayToken outs t with
    | none => rfl
    | some o => exact ih o

theorem replay_snoc (outs : List Symbol) (ts : List Token) (t : Token) :
    replay outs (ts ++ [t]) = (replay outs ts).bind (fun o => replayToken o t) := by
  rw [replay_append]
  congr 1
  funext o
  simp only [replay]
  cases replayToken o t <;> rfl

/-- A token that replays appends `len + 1` symbols and keeps what was there (44_reconstructor.md R180, R185). -/
theorem replayToken_some {outs outs' : List Symbol} {t : Token} (h : replayToken outs t = some outs') :
    outs'.length = outs.length + t.len + 1 ∧ outs <+: outs' := by
  unfold replayToken at h
  split at h
  · next hz => cases h; exact ⟨by simp [hz.2], List.prefix_append _ _⟩
  · split at h
    · cases h
    · cases h
      refine ⟨by simp; omega, ?_⟩
      rw [List.append_assoc]
      exact List.prefix_append _ _

end Sys2Proof.Machine
end

