-- ==== Sys2Proof/Laws/Coverage.lean ====
section
/-! SUPPORT. Coverage: the tokens the matcher emits replay to the symbols it has passed
(41_window_matcher.md R127). -/

namespace Sys2Proof.Machine

/-- A replay that goes through replays its first token. -/
theorem replay_cons_some {outs : List Symbol} {t : Token} {ts : List Token} {o : List Symbol}
    (h : replay outs (t :: ts) = some o) : ∃ o', replayToken outs t = some o' ∧ replay o' ts = some o := by
  simp only [replay] at h
  cases hr : replayToken outs t with
  | none => rw [hr] at h; cases h
  | some o' => rw [hr] at h; exact ⟨o', rfl, h⟩

/-- A replay appends `len + 1` symbols per token (41_window_matcher.md R127). -/
theorem replay_length {outs o : List Symbol} {ts : List Token} (h : replay outs ts = some o) :
    o.length = outs.length + (ts.map (fun t => t.len + 1)).sum ∧ outs <+: o := by
  induction ts generalizing outs with
  | nil => cases h; simp
  | cons t ts ih =>
    obtain ⟨o', h1, h2⟩ := replay_cons_some h
    obtain ⟨l1, p1⟩ := replayToken_some h1
    obtain ⟨l2, p2⟩ := ih h2
    refine ⟨?_, p1.trans p2⟩
    simp only [List.map_cons, List.sum_cons]
    omega

/-- A match token replays the covered prefix to the longer covered prefix (41_window_matcher.md R127). -/
theorem replayToken_match {sym : List Symbol} {pos c ml nsym : Nat} {y : Symbol}
    (hlen : nsym = sym.length) (hcp : c < pos) (hp : pos < nsym - 1)
    (heq : sym[c]? = sym[pos]?) (h1 : 1 ≤ ml) (h2 : ml ≤ pos - c) (h3 : pos + ml ≤ nsym - 1)
    (hext : ∀ k, 1 ≤ k → k < ml → canExtend sym nsym pos c k = true) (hy : sym[pos + ml]? = some y) :
    replayToken (sym.take pos) { off := pos - c, len := ml, lit := y } = some (sym.take (pos + (ml + 1))) := by
  have htl : (sym.take pos).length = pos := by simp; omega
  unfold replayToken
  dsimp only
  rw [if_neg (by omega), if_neg (by omega)]
  congr 1
  apply List.ext_getElem?
  intro j
  rw [List.getElem?_take]
  by_cases hj : j < pos
  · rw [if_pos (by omega), List.append_assoc, List.getElem?_append_left (by omega), List.getElem?_take, if_pos hj]
  · by_cases hj2 : j < pos + ml
    · rw [if_pos (by omega), List.getElem?_append_left (by simp [htl]; omega), List.getElem?_append_right (by omega)]
      have hbl : ((sym.take pos).drop (pos - (pos - c))).length = pos - c := by simp; omega
      rw [htl, cyclic_getElem? _ _ _ (by omega)]
      rw [hbl, Nat.mod_eq_of_lt (by omega), List.getD_eq_getElem _ _ (by omega), List.getElem_drop, List.getElem_take]
      have hidx : pos - (pos - c) + (j - pos) = c + (j - pos) := by omega
      rw [← List.getElem?_eq_getElem]
      rw [hidx]
      by_cases hk : j = pos
      · subst hk; simp [heq]
      · obtain ⟨-, -, a, ha1, ha2⟩ := canExtend_iff.mp (hext (j - pos) (by omega) (by omega))
        rw [ha2, ← ha1]; congr 1; omega
    · by_cases hj3 : j = pos + ml
      · subst hj3
        rw [if_pos (by omega), List.getElem?_append_right (by simp [htl]), hy]
        simp [htl]
      · rw [if_neg (by omega)]
        apply List.getElem?_eq_none
        simp [htl]; omega

/-- A literal token appends its literal. -/
theorem replayToken_lit (outs : List Symbol) (x : Symbol) :
    replayToken outs { off := 0, len := 0, lit := x } = some (outs ++ [x]) := by
  unfold replayToken; rw [if_pos ⟨rfl, rfl⟩]

/-- A prefix and the next symbol are the next prefix. -/
theorem take_succ_of_get {sym : List Symbol} {pos : Nat} (h : pos < sym.length) :
    sym.take pos ++ [sym[pos]] = sym.take (pos + 1) := by
  rw [List.take_add_one, List.getElem?_eq_getElem h]; rfl

/-- One MATCH step keeps what holds before the matching stage, and advances `pos`. -/
theorem matching_step {s t : State} (hstage : s.stage = .matching) (h : StageOk s) (hpos : s.pos < s.nsym)
    (ht : exec .matcher s = .next t) :
    t.stage = .matching ∧ t.status = s.status ∧ t.err = s.err ∧ t.outLen = s.outLen ∧ StageOk t ∧ s.pos < t.pos := by
  simp only [StageOk, hstage] at h
  obtain ⟨⟨hc, hsym, hn⟩, hle, hw, hob, hwin, hcan, hrep⟩ := h
  have hlt : s.pos < s.sym.length := by omega
  have mk : ∀ (u : State) (tok : Token), exec .matcher s = .next u → u.stage = .matching → u.sym = s.sym → u.nsym = s.nsym →
      u.cmd = s.cmd → u.ibuf = s.ibuf → u.opLen = s.opLen → u.resets = s.resets → u.wcnt = s.wcnt → u.obuf = s.obuf →
      u.tokq = s.tokq ++ [tok] → Canonical tok → u.pos = s.pos + (tok.len + 1) → u.pos ≤ s.nsym →
      u.win = shiftIn Config.W s.sym s.pos (tok.len + 1) s.win →
      replayToken (s.sym.take s.pos) tok = some (s.sym.take (s.pos + (tok.len + 1))) → StageOk u ∧ s.pos < u.pos := by
    intro u tok hu h1 h2 h3 h4 h5 h6 h7 h8 h9 h10 h11 h12 h13 h14 h15
    simp only [StageOk, h1]
    refine ⟨⟨⟨by rw [h4, hc], by rw [h2, hsym, inputBytes_congr h5 h6 h7], by rw [h3, h2, hn]⟩, by omega, by omega, by rw [h9, hob], ?_, ?_, ?_⟩, by omega⟩
    · rw [h14, h2, h12]; exact WinHolds_shiftIn (by decide) _ hwin (by omega)
    · intro t ht'
      rw [h10] at ht'
      rcases List.mem_append.mp ht' with h | h
      · exact hcan t h
      · simp at h; subst h; exact h11
    · rw [h10, replay_snoc, hrep, h2, h12]; exact h15
  rcases execMatcher_cases hn hpos with ⟨h1, h2⟩ | ⟨h1, -, h2⟩ | ⟨c, ml, y, h1, h2, h3, h4, h5, h6, h7, h8, h9, h10, h11, h12⟩
  · cases ht.symm.trans h2
    refine ⟨hstage, rfl, rfl, rfl, ?_⟩
    refine mk _ ⟨0,0,_⟩ h2 hstage rfl rfl rfl rfl rfl rfl rfl rfl rfl (.inl ⟨rfl,rfl⟩) rfl (by simp; omega) rfl ?_
    rw [replayToken_lit, take_succ_of_get hlt]
  · cases ht.symm.trans h2
    refine ⟨hstage, rfl, rfl, rfl, ?_⟩
    refine mk _ ⟨0,0,_⟩ h2 hstage rfl rfl rfl rfl rfl rfl rfl rfl rfl (.inl ⟨rfl,rfl⟩) rfl (by simp; omega) rfl ?_
    rw [replayToken_lit, take_succ_of_get hlt]
  · cases ht.symm.trans h12
    refine ⟨hstage, rfl, rfl, rfl, ?_⟩
    refine mk _ ⟨s.pos - c, ml, y⟩ h12 hstage rfl rfl rfl rfl rfl rfl rfl rfl rfl (.inr ⟨h6, h7, by simp; omega⟩) rfl (by simp; omega) rfl ?_
    exact replayToken_match hn h3 h1 h4 h6 h7 h8 h9 h11

end Sys2Proof.Machine
end

