-- ==== Sys2Proof/Laws/Degrouper.lean ====
section
/-! SUPPORT. The degrouper: the lane count, one lane, the merge, and the independence of the lanes. -/

namespace Sys2Proof.Machine

/-- The search for a lane count answers a divisor in range, and the largest one (43_degrouper.md R162). -/
theorem largestDivisorUpTo_spec (m d : Nat) (hd : 1 ≤ d) :
    1 ≤ largestDivisorUpTo m d ∧ largestDivisorUpTo m d ≤ d ∧ m % largestDivisorUpTo m d = 0 ∧
    ∀ e, e ≤ d → largestDivisorUpTo m d < e → m % e ≠ 0 := by
  induction d with
  | zero => omega
  | succ d ih =>
    unfold largestDivisorUpTo
    split
    · next h => exact ⟨by omega, by omega, h, fun e he he' => by omega⟩
    · next h =>
      have hd1 : 1 ≤ d := by
        rcases Nat.eq_zero_or_pos d with h0 | h0
        · subst h0; exact absurd (Nat.mod_one m) h
        · exact h0
      obtain ⟨h1, h2, h3, h4⟩ := ih hd1
      refine ⟨h1, by omega, h3, fun e he he' => ?_⟩
      rcases Nat.lt_or_eq_of_le he with hlt | heq
      · exact h4 e (by omega) he'
      · rw [heq]; exact h

/-- A lane that completes has exactly one slot value, the tokens of its chunk. -/
theorem runLanes_find {words : List Symbol} {len q : Nat} {completion : List Nat} (hq : q ∈ completion) :
    (runLanes words len completion).find? (fun e => e.1 == q) = some (q, laneTokens words len q) := by
  induction completion with
  | nil => cases hq
  | cons p rest ih =>
    simp only [runLanes, List.map_cons, List.find?_cons]
    by_cases hpq : p = q
    · subst hpq; simp
    · have hf : (p == q) = false := by simpa using hpq
      simp only [hf]
      rcases List.mem_cons.mp hq with h | h
      · exact absurd h.symm hpq
      · exact ih h

/-- A lane over a whole number of triples writes a third of its chunk length (43_degrouper.md R164, R166). -/
theorem laneTokens_length {words : List Symbol} {len q : Nat} (h : (q + 1) * len ≤ words.length) :
    (laneTokens words len q).length = len / 3 := by
  have hq : q * len + len = (q + 1) * len := by rw [Nat.add_mul, Nat.one_mul]
  simp only [laneTokens, laneChunk, tokensOf_length, List.length_take, List.length_drop]
  congr 1
  omega

/-- Merging by index gives the tokens of the words in order, whatever the completion order
(43_degrouper.md R165). -/
theorem mergeLanes_runLanes {words : List Symbol} {len : Nat} {completion : List Nat} (hlen : len % 3 = 0) :
    ∀ (count q : Nat), (∀ p, q ≤ p → p < q + count → p ∈ completion) → words.length = (q + count) * len →
      mergeLanes (runLanes words len completion) (len / 3) q count = some (tokensOf (words.drop (q * len))) := by
  intro count
  induction count with
  | zero =>
    intro q _ hw
    simp only [mergeLanes]
    rw [List.drop_eq_nil_of_le (by rw [hw]; simp)]
    rfl
  | succ count ih =>
    intro q hp hw
    have hchunk : (q + 1) * len ≤ words.length := by
      rw [hw]; exact Nat.mul_le_mul_right _ (by omega)
    have hslot : laneSlot (runLanes words len completion) (len / 3) q = some (laneTokens words len q) := by
      unfold laneSlot
      rw [runLanes_find (hp q (Nat.le_refl _) (by omega))]
      simp only
      rw [if_pos (laneTokens_length hchunk)]
    have hrest := ih (q + 1) (fun p h1 h2 => hp p (by omega) (by omega)) (by rw [hw]; congr 1; omega)
    have hsplit : words.drop (q * len) = laneChunk words len q ++ words.drop ((q + 1) * len) := by
      have : (q + 1) * len = q * len + len := by rw [Nat.add_mul, Nat.one_mul]
      rw [this, laneChunk, ← List.drop_drop, List.take_append_drop]
    have hcl : (laneChunk words len q).length % 3 = 0 := by
      have : q * len + len = (q + 1) * len := by rw [Nat.add_mul, Nat.one_mul]
      have : (laneChunk words len q).length = len := by
        simp only [laneChunk, List.length_take, List.length_drop]; omega
      rw [this, hlen]
    simp only [mergeLanes, hslot, hrest]
    rw [hsplit, tokensOf_append _ _ hcl]
    rfl

/-- The degrouper over any lane count that divides `m`, with any completion order, gives the sequential grouping
(43_degrouper.md R160, R168). -/
theorem degroupWith_eq {words : List Symbol} {m lanes : Nat} {completion : List Nat}
    (hw : words.length = 3 * m) (hl : 1 ≤ lanes) (hdvd : m % lanes = 0)
    (hall : ∀ q, q < lanes → q ∈ completion) :
    degroupWith words m lanes completion = some (tokensOf words) := by
  obtain ⟨k, hk⟩ := Nat.dvd_of_mod_eq_zero hdvd
  have hlen : Config.TRIPLE * m / lanes = 3 * k := by
    unfold Config.TRIPLE
    rw [hk, show 3 * (lanes * k) = lanes * (3 * k) by ring, Nat.mul_div_cancel_left _ hl]
  unfold degroupWith
  simp only [hlen]
  have := mergeLanes_runLanes (words := words) (len := 3 * k) (completion := completion) (by omega) lanes 0
    (fun p _ h => hall p (by omega)) (by rw [hw, hk]; ring)
  simpa [Config.TRIPLE] using this

/-- DEGROUP on a word stream of `m >= 1` whole tokens (43_degrouper.md R160). -/
theorem execDegroup_next {s : State} (hm : s.m ≠ 0) (hw : s.sym.length = 3 * s.m) :
    execDegroup s = .next { s with tokq := tokensOf s.sym } := by
  obtain ⟨h1, -, h3, -⟩ := largestDivisorUpTo_spec s.m Config.LANECAP (by decide)
  unfold execDegroup
  rw [if_neg hm, degroupWith_eq (lanes := laneCount s.m) hw h1 h3 (fun q hq => List.mem_range.mpr hq)]

end Sys2Proof.Machine
end

