-- ==== Sys2Proof/Laws/PerInstr.lean ====
section
/-! SUPPORT. Statements made for every instruction, one lemma per constructor. -/

/-- Where an instruction's encoding stands: a token's in six container bytes, a command's in CMD, and no encoding
for an internal stage (30_encoding.md R80, R90, 40_symbol_io.md R100). -/
def Sys2Proof.Laws.EncodingOrigin.Statement (i : Sys2Proof.Instr) : Prop :=
  match Sys2Proof.encode i with
  | some (.container bytes) =>
    bytes.length = 6 ∧
      ((∃ x, i = .lit x) ∨ (∃ d l x, i = .copy d l x) ∨ (∃ l x, i = .rsv0 l x) ∨ (∃ d x, i = .rsvl0 d x))
  | some (.command code) =>
    (i = .encode ∧ code = 1) ∨ (i = .decode ∧ code = 2) ∨ i = .cmdRsv code
  | none => i = .symrd ∨ i = .matcher ∨ i = .tokser ∨ i = .tokdes ∨ i = .degroup ∨ i = .symwr

open Sys2Proof

theorem Sys2Proof.Laws.EncodingOrigin.lit (x : Symbol) :
    Sys2Proof.Laws.EncodingOrigin.Statement (.lit x) :=
  ⟨rfl, .inl ⟨x, rfl⟩⟩

theorem Sys2Proof.Laws.EncodingOrigin.copy (d l x : Symbol) :
    Sys2Proof.Laws.EncodingOrigin.Statement (.copy d l x) :=
  ⟨rfl, .inr (.inl ⟨d, l, x, rfl⟩)⟩

theorem Sys2Proof.Laws.EncodingOrigin.rsv0 (l x : Symbol) :
    Sys2Proof.Laws.EncodingOrigin.Statement (.rsv0 l x) :=
  ⟨rfl, .inr (.inr (.inl ⟨l, x, rfl⟩))⟩

theorem Sys2Proof.Laws.EncodingOrigin.rsvl0 (d x : Symbol) :
    Sys2Proof.Laws.EncodingOrigin.Statement (.rsvl0 d x) :=
  ⟨rfl, .inr (.inr (.inr ⟨d, x, rfl⟩))⟩

theorem Sys2Proof.Laws.EncodingOrigin.encode :
    Sys2Proof.Laws.EncodingOrigin.Statement (.encode) :=
  .inl ⟨rfl, rfl⟩

theorem Sys2Proof.Laws.EncodingOrigin.decode :
    Sys2Proof.Laws.EncodingOrigin.Statement (.decode) :=
  .inr (.inl ⟨rfl, rfl⟩)

theorem Sys2Proof.Laws.EncodingOrigin.cmdRsv (code : BitVec 2) :
    Sys2Proof.Laws.EncodingOrigin.Statement (.cmdRsv code) :=
  .inr (.inr rfl)

theorem Sys2Proof.Laws.EncodingOrigin.symrd :
    Sys2Proof.Laws.EncodingOrigin.Statement (.symrd) :=
  .inl rfl

theorem Sys2Proof.Laws.EncodingOrigin.matcher :
    Sys2Proof.Laws.EncodingOrigin.Statement (.matcher) :=
  .inr (.inl rfl)

theorem Sys2Proof.Laws.EncodingOrigin.tokser :
    Sys2Proof.Laws.EncodingOrigin.Statement (.tokser) :=
  .inr (.inr (.inl rfl))

theorem Sys2Proof.Laws.EncodingOrigin.tokdes :
    Sys2Proof.Laws.EncodingOrigin.Statement (.tokdes) :=
  .inr (.inr (.inr (.inl rfl)))

theorem Sys2Proof.Laws.EncodingOrigin.degroup :
    Sys2Proof.Laws.EncodingOrigin.Statement (.degroup) :=
  .inr (.inr (.inr (.inr (.inl rfl))))

theorem Sys2Proof.Laws.EncodingOrigin.symwr :
    Sys2Proof.Laws.EncodingOrigin.Statement (.symwr) :=
  .inr (.inr (.inr (.inr (.inr rfl))))
end

