-- ==== Sys2Proof/Laws/Step.lean ====
section
/-! SUPPORT. What a step adds around exec, stage by stage, and what the acceptance of a command answers. -/

namespace Sys2Proof.Machine

theorem step_eq_cycle (s : State) : step s = cycle s := rfl

/-- With no host action waiting the engine takes its step. -/
theorem step_of_inbox_nil {s : State} (h : s.inbox = []) : step s = engineStep s := by
  simp only [step, cycle, h]

/-- A waiting host action is taken first. -/
theorem step_of_inbox_cons {s : State} {a : HostAct} {rest : List HostAct} (h : s.inbox = a :: rest) :
    step s = hostStep a { s with inbox := rest } := by
  simp only [step, cycle, h]

@[simp] theorem thenStage_next (st : Stage) (t : State) :
    thenStage st (.next t) = if t.status = .busy then .next { t with stage := st } else .next t := rfl

theorem engineStep_idle {s : State} (h : s.stage = .idle) : engineStep s = .next s := by
  simp only [engineStep, h]

theorem engineStep_symrd {s : State} (h : s.stage = .symrd) :
    engineStep s = thenStage .matching (exec .symrd s) := by
  simp only [engineStep, h]

theorem engineStep_matching {s : State} (h : s.stage = .matching) :
    engineStep s = if s.pos < s.nsym then exec .matcher s else .next { s with stage := .serializing } := by
  simp only [engineStep, h]

theorem engineStep_serializing_nil {s : State} (h : s.stage = .serializing) (hq : s.tokq = []) :
    engineStep s = .next (completeEncode s) := by
  simp only [engineStep, h, hq]

theorem engineStep_serializing_cons {s : State} (h : s.stage = .serializing) {t : Token} {rest : List Token}
    (hq : s.tokq = t :: rest) : engineStep s = exec .tokser s := by
  simp only [engineStep, h, hq]

theorem engineStep_tokdes {s : State} (h : s.stage = .tokdes) :
    engineStep s = thenStage .degroup (exec .tokdes s) := by
  simp only [engineStep, h]

theorem engineStep_degroup {s : State} (h : s.stage = .degroup) :
    engineStep s = thenStage .reconstruct (exec .degroup s) := by
  simp only [engineStep, h]

theorem engineStep_reconstruct {s : State} (h : s.stage = .reconstruct) :
    engineStep s = if s.tpc < s.m then runToken s else .next { s with stage := .symwr } := by
  simp only [engineStep, h]

theorem engineStep_symwr {s : State} (h : s.stage = .symwr) :
    engineStep s = thenStage .closing (exec .symwr s) := by
  simp only [engineStep, h]

theorem engineStep_closing {s : State} (h : s.stage = .closing) : engineStep s = .next (completeDecode s) := by
  simp only [engineStep, h]

/-- The token fetch: the classified head of the queue, run on the state with the head latched and taken off
(44_reconstructor.md R176). -/
theorem runToken_cons {s : State} {t : Token} {rest : List Token} (hq : s.tokq = t :: rest) :
    runToken s = exec (classify (fieldWord t.off) (fieldWord t.len) t.lit) (latchToken t rest s) := by
  simp only [runToken, hq, latchedInstr, latchToken, decodeToken_tokenBits]

/-- The token that a latched queue token stands for is the queue token, when its fields are words. -/
theorem fieldWord_toNat_of_lt {v : Nat} (h : v < 65536) : (fieldWord v).toNat = v := by
  simp [fieldWord]
  omega

theorem execEncode_accepted {s : State} (h : s.status ≠ .busy) : execEncode s = .next (acceptEncode s) := by
  unfold execEncode
  rw [if_neg h, if_pos (withinCap_eq_true _)]

theorem execDecode_accepted {s : State} (h : s.status ≠ .busy) : execDecode s = .next (acceptDecode s) := by
  unfold execDecode
  rw [if_neg h, if_pos (withinCap_eq_true _)]

theorem execEncode_busy {s : State} (h : s.status = .busy) : execEncode s = .next s := by
  unfold execEncode
  rw [if_pos h]

theorem execDecode_busy {s : State} (h : s.status = .busy) : execDecode s = .next s := by
  unfold execDecode
  rw [if_pos h]

/-- Everything a TOKSER step can do (42_token_codec.md R140, R141). -/
theorem execTokser_cases (s : State) :
    (s.tokq = [] ∧ execTokser s = .next s) ∨
    (∃ t rest, s.tokq = t :: rest ∧ fitsWord t.off = true ∧ fitsWord t.len = true ∧
      execTokser s = .next { s with obuf := Memory.writeList s.obuf (2 * s.wcnt) (packToken t),
                                    wcnt := s.wcnt + Config.TRIPLE, tokq := rest }) ∨
    (∃ t rest, s.tokq = t :: rest ∧ (fitsWord t.off = false ∨ fitsWord t.len = false) ∧
      execTokser s = .next (raise .encodingOverflow s)) := by
  unfold execTokser
  cases hq : s.tokq with
  | nil => exact .inl ⟨rfl, rfl⟩
  | cons t rest =>
    right
    cases h1 : fitsWord t.off <;> cases h2 : fitsWord t.len
    · exact .inr ⟨t, rest, rfl, .inl h1, by simp [h1]⟩
    · exact .inr ⟨t, rest, rfl, .inl h1, by simp [h1]⟩
    · exact .inr ⟨t, rest, rfl, .inr h2, by simp [h1, h2]⟩
    · exact .inl ⟨t, rest, rfl, h1, h2, by simp [h1, h2]⟩

/-- Everything TOKDES can do (42_token_codec.md R143 to R145). -/
theorem execTokdes_cases (s : State) :
    ((ingestWords s).nwords % 3 = 0 ∧
      execTokdes s = .next { ingestWords s with m := (ingestWords s).nwords / 3 }) ∨
    ((ingestWords s).nwords % 3 ≠ 0 ∧
      execTokdes s = .next (raise .malformedContainer (ingestWords s))) := by
  by_cases h : (ingestWords s).nwords % 3 = 0
  · exact .inl ⟨h, if_neg (not_not.mpr h)⟩
  · exact .inr ⟨h, if_pos h⟩

/-- SYMWR when OUTS is whole (40_symbol_io.md R102, R103). -/
theorem execSymwr_next {s : State} (h : s.outs.length = s.n) :
    execSymwr s = .next { s with obuf := Memory.writeList s.obuf 0 (bytesOf s.outs),
                                 outLen := decodedLength s.n s.opOdd } := by
  unfold execSymwr
  rw [if_neg (by omega), List.take_of_length_le (by omega)]

@[simp] theorem runSteps_zero (s : State) : runSteps 0 s = .next s := rfl

theorem runSteps_succ {s t : State} (k : Nat) (h : step s = .next t) : runSteps (k + 1) s = runSteps k t := by
  simp only [runSteps, h]

/-- Two runs in a row are one run. -/
theorem runSteps_add {s t : State} (j k : Nat) (h : runSteps j s = .next t) :
    runSteps (j + k) s = runSteps k t := by
  induction j generalizing s with
  | zero => simp at h; simp [h]
  | succ j ih =>
    rw [show j + 1 + k = (j + k) + 1 by omega]
    simp only [runSteps] at h ⊢
    cases hs : step s with
    | next u => rw [hs] at h; exact ih h
    | fault r => rw [hs] at h; cases h
    | refused r => rw [hs] at h; cases h

end Sys2Proof.Machine
end

