-- ==== Sys2Proof/Laws/Stages.lean ====
section
/-! SUPPORT. The stages of an operation: what holds before a stage holds, in its form for the next one, after it. -/

namespace Sys2Proof.Machine

/-- One token keeps what holds before the reconstruction stage, or raises (44_reconstructor.md R176). -/
theorem reconstruct_step {s t : State} (hstage : s.stage = .reconstruct) (hbusy : s.status = .busy)
    (h : StageOk s) (htpc : s.tpc < s.m) (ht : runToken s = .next t) :
    (t.stage = .reconstruct ∧ t.status = .busy ∧ t.err = s.err ∧ t.outLen = s.outLen ∧ t.tpc = s.tpc + 1 ∧ t.m = s.m ∧ StageOk t) ∨
    (∃ u, t = raise .invalidBackReference u) := by
  simp only [StageOk, hstage] at h
  obtain ⟨⟨hc, hsym, hnw, hmod, hm⟩, h1, h2, h3, h4, hob, hh, hq, hrep⟩ := h
  have hlen : (tokensOf s.sym).length = s.m := by rw [tokensOf_length, ← hnw, hm]; rfl
  have hlt : s.tpc < (tokensOf s.sym).length := by omega
  have hcons : s.tokq = (tokensOf s.sym)[s.tpc] :: (tokensOf s.sym).drop (s.tpc + 1) := by
    rw [hq, List.drop_eq_getElem_cons hlt]
  generalize htok : (tokensOf s.sym)[s.tpc] = tok at hcons
  have hmem : tok ∈ tokensOf s.sym := htok ▸ List.getElem_mem hlt
  obtain ⟨hf1, hf2⟩ := tokensOf_fits _ _ hmem
  rw [runToken_cons hcons] at ht
  have hto : tokenOf (fieldWord tok.off) (fieldWord tok.len) tok.lit = tok := by
    unfold tokenOf; rw [fieldWord_toNat_of_lt hf1, fieldWord_toNat_of_lt hf2]
  obtain ⟨hA, hB⟩ := exec_token_replay (fieldWord tok.off) (fieldWord tok.len) tok.lit
    (s := latchToken tok ((tokensOf s.sym).drop (s.tpc + 1)) s) h4
  rw [hto] at hA hB
  cases hr : replayToken s.outs tok with
  | none =>
    right
    have := hB hr
    rw [this] at ht
    cases ht
    exact ⟨_, rfl⟩
  | some outs' =>
    left
    obtain ⟨hist', start', i', he, hl, hH, -⟩ := hA outs' hr
    rw [he] at ht
    cases ht
    refine ⟨hstage, hbusy, rfl, rfl, rfl, rfl, ?_⟩
    have e1 : ∀ u : State, u.stage = .reconstruct → (StageOk u ↔ (WordsIn u ∧ 1 ≤ u.m ∧ u.tpc ≤ u.m ∧ u.tpc ≤ u.n ∧ u.outs.length = u.n ∧ u.obuf = [] ∧
        HistHolds u.hist u.outs u.n ∧ u.tokq = (tokensOf u.sym).drop u.tpc ∧
        replay [] ((tokensOf u.sym).take u.tpc) = some u.outs)) := by intro u hu; simp only [StageOk, hu]
    refine (e1 _ ?_).mpr ?_
    · exact hstage
    refine ⟨⟨hc, hsym, hnw, hmod, hm⟩, h1, ?_, ?_, hl, hob, hH hh, rfl, ?_⟩
    · show s.tpc + 1 ≤ s.m; omega
    · show s.tpc + 1 ≤ s.n + _ + 1; omega
    · show replay [] ((tokensOf s.sym).take (s.tpc + 1)) = some outs'
      rw [List.take_add_one, List.getElem?_eq_getElem hlt, htok]
      simp only [Option.toList]
      rw [replay_snoc, hrep]; exact hr

/-- In the reconstruction a token always has a next state. -/
theorem runToken_total {s : State} (hstage : s.stage = .reconstruct)
    (h : StageOk s) (htpc : s.tpc < s.m) : ∃ t, runToken s = .next t := by
  simp only [StageOk, hstage] at h
  obtain ⟨⟨hc, hsym, hnw, hmod, hm⟩, h1, h2, h3, h4, hob, hh, hq, hrep⟩ := h
  have hlen : (tokensOf s.sym).length = s.m := by rw [tokensOf_length, ← hnw, hm]; rfl
  have hlt : s.tpc < (tokensOf s.sym).length := by omega
  have hcons : s.tokq = (tokensOf s.sym)[s.tpc] :: (tokensOf s.sym).drop (s.tpc + 1) := by
    rw [hq, List.drop_eq_getElem_cons hlt]
  rw [runToken_cons hcons]
  obtain ⟨hA, hB⟩ := exec_token_replay (fieldWord (tokensOf s.sym)[s.tpc].off) (fieldWord (tokensOf s.sym)[s.tpc].len) (tokensOf s.sym)[s.tpc].lit
    (s := latchToken (tokensOf s.sym)[s.tpc] ((tokensOf s.sym).drop (s.tpc + 1)) s) h4
  generalize htt : tokenOf (fieldWord (tokensOf s.sym)[s.tpc].off) (fieldWord (tokensOf s.sym)[s.tpc].len) (tokensOf s.sym)[s.tpc].lit = tt at hA hB
  cases hr : replayToken s.outs tt with
  | none => exact ⟨_, hB hr⟩
  | some o => obtain ⟨_, _, _, he, -⟩ := hA o hr; exact ⟨_, he⟩

/-- A token the matcher emits passes the range check (41_window_matcher.md R126). -/
theorem Canonical_fits {t : Token} (h : Canonical t) : fitsWord t.off = true ∧ fitsWord t.len = true := by
  have : Config.W = 4000 := rfl
  rcases h with ⟨h1, h2⟩ | ⟨h1, h2, h3⟩
  · simp [fitsWord, h1, h2]
  · constructor <;> exact decide_eq_true (by unfold Config.wordMax; omega)

/-- A raise ends the operation in a state whose outcome registers agree (60_exceptions.md R230). -/
theorem raise_ok (e : Err) (he : e ≠ .none) (s : State) : OutcomeOk (raise e s) ∧ StageOk (raise e s) := by
  refine ⟨⟨by simp, by simp [he], by simp⟩, ?_⟩
  simp [StageOk]

/-- A stage that left the engine BUSY hands over to the next stage. -/
theorem thenStage_of {st : Stage} {r : Result} {u : State} (h : r = .next u) (hb : u.status = .busy) :
    thenStage st r = .next { u with stage := st } := by
  rw [h]; exact if_pos hb

/-- A stage that raised ends the operation. -/
theorem thenStage_raise {st : Stage} {r : Result} {u : State} (h : r = .next u) (hb : u.status ≠ .busy) :
    thenStage st r = .next u := by
  rw [h]; exact if_neg hb

/-- What holds right after an accepted ENCODE. -/
theorem acceptEncode_ok (s : State) : OutcomeOk (acceptEncode s) ∧ StageOk (acceptEncode s) := by
  refine ⟨⟨by simp, by simp, by simp⟩, ?_⟩
  simp [StageOk]

/-- What holds right after an accepted DECODE. -/
theorem acceptDecode_ok (s : State) : OutcomeOk (acceptDecode s) ∧ StageOk (acceptDecode s) := by
  refine ⟨⟨by simp, by simp, by simp⟩, ?_⟩
  simp [StageOk]

end Sys2Proof.Machine
end

