-- ==== Sys2Proof/Laws/Runs.lean ====
section
/-! SUPPORT. Runs of several steps: the reconstruction of a whole token stream, and a DECODE from the host's write of
CMD to DONE. -/

namespace Sys2Proof.Machine

/-- Where a memory holds a value it is the byte the engine reads. -/
theorem ibufByte_of_read {s : State} {a : Nat} {v : Byte} (h : Memory.read s.ibuf a = some v) : ibufByte s a = v := by
  simp [ibufByte, h]

/-- Bytes written from index 0 are the input byte sequence of an operation that latched their number. -/
theorem inputBytes_of_writeList {s : State} {mem : Memory} {input : List Byte}
    (h1 : s.ibuf = Memory.writeList mem 0 input) (h2 : s.opLen = input.length) : inputBytes s = input := by
  refine List.ext_getElem (by simp [h2]) fun a ha hb => ?_
  rw [inputBytes_getElem]
  refine ibufByte_of_read ?_
  rw [h1, Memory_read_writeList, if_pos ⟨Nat.zero_le a, by omega⟩]
  simp [hb]

/-- What the host reads in DONE is the bytes OBUF holds, cut at OUT_LEN (20_memory.md R55). -/
theorem resultBytes_of_holds {s : State} {bs : List Byte} (hd : s.status = .done) (h : Holds s.obuf bs)
    (hl : s.outLen ≤ bs.length) : resultBytes s = bs.take s.outLen := by
  refine List.ext_getElem (by simp [resultBytes, hl]) fun a ha hb => ?_
  have ha' : a < s.outLen := by simpa [resultBytes] using ha
  have hr : Memory.read s.obuf a = some bs[a] := Holds_read h (by omega)
  simp [resultBytes, readObuf, hd, ha', hr]

/-- A queue of tokens that replays to `outs` is reconstructed to `outs`, one step per token, and only the
reconstructor's own state changes (44_reconstructor.md R176 to R187). -/
theorem runSteps_tokens (ts : List Token) {s : State} {outs : List Symbol} (hin : s.inbox = [])
    (hst : s.stage = .reconstruct) (hq : s.tokq = ts) (hm : s.m = s.tpc + ts.length)
    (hfit : ∀ t ∈ ts, t.off < 65536 ∧ t.len < 65536) (hlen : s.outs.length = s.n)
    (hr : replay s.outs ts = some outs) :
    ∃ tOff tLen tLit hist start i, runSteps ts.length s = .next { s with
      tOff := tOff, tLen := tLen, tLit := tLit, tokq := [], outs := outs, hist := hist, n := outs.length,
      start := start, i := i, tpc := s.m } := by
  induction ts generalizing s with
  | nil =>
    cases hr
    refine ⟨s.tOff, s.tLen, s.tLit, s.hist, s.start, s.i, ?_⟩
    cases s
    simp_all
  | cons tok rest ih =>
    obtain ⟨outs', h1, h2⟩ := replay_cons_some hr
    have hf := hfit tok (by simp)
    have hto : tokenOf (fieldWord tok.off) (fieldWord tok.len) tok.lit = tok := by
      unfold tokenOf; rw [fieldWord_toNat_of_lt hf.1, fieldWord_toNat_of_lt hf.2]
    obtain ⟨hist, start, i, he, hl, -⟩ := (exec_token_replay (fieldWord tok.off) (fieldWord tok.len) tok.lit
      (s := latchToken tok rest s) hlen).1 outs' (by rw [hto]; exact h1)
    have hs := (show step s = _ by
      rw [step_of_inbox_nil hin, engineStep_reconstruct hst, if_pos (by rw [hm]; simp), runToken_cons hq]).trans he
    obtain ⟨a, b, c, d, e, f, hrun⟩ := ih (s := { latchToken tok rest s with
        outs := outs', hist := hist, n := s.n + (fieldWord tok.len).toNat + 1, start := start, i := i,
        tpc := s.tpc + 1 }) hin hst rfl
      (by show s.m = s.tpc + 1 + rest.length; rw [hm, List.length_cons]; omega)
      (fun t ht => hfit t (by simp [ht])) hl h2
    exact ⟨a, b, c, d, e, f, (runSteps_succ _ hs).trans hrun⟩

/-- DECODE of a container that passes the length check, holds a token and replays reaches DONE with the symbols of
the replay (45_operations.md R203). -/
theorem decode_run {s : State} {input : List Byte} {odd : BitVec 1} {outs : List Symbol} (hb : s.status ≠ .busy)
    (hmod : (symbolsOf input).length % 3 = 0) (hne : symbolsOf input ≠ [])
    (hr : replay [] (tokensOf (symbolsOf input)) = some outs) :
    ∃ t, runSteps ((symbolsOf input).length / 3 + 6) (hostCommand 2 input odd s) = .next t ∧ t.status = .done ∧
      t.err = .none ∧ t.stage = .idle ∧ t.inbox = [] ∧ t.tpc = (symbolsOf input).length / 3 ∧ t.outs = outs ∧
      t.outLen = decodedLength outs.length odd ∧ Holds t.obuf (bytesOf outs) := by
  generalize hw : symbolsOf input = words at hmod hne hr ⊢
  have hlen : (tokensOf words).length = words.length / 3 := tokensOf_length words
  have hpos : 0 < words.length := List.length_pos_iff.mpr hne
  -- acceptance
  have h1 : step (hostCommand 2 input odd s) = .next (acceptDecode (hostSetup input odd s)) := by
    rw [step_of_inbox_cons (a := .writeCmd 2) (rest := []) rfl]
    exact execDecode_accepted hb
  have hin : inputBytes (acceptDecode (hostSetup input odd s)) = input := inputBytes_of_writeList rfl rfl
  generalize hA : acceptDecode (hostSetup input odd s) = A at h1 hin
  have hAf : A.status = .busy ∧ A.err = .none ∧ A.stage = .tokdes ∧ A.inbox = [] ∧ A.n = 0 ∧ A.tpc = 0 ∧
      A.outs = [] ∧ A.obuf = [] ∧ A.opOdd = odd := by subst hA; exact ⟨rfl, rfl, rfl, rfl, rfl, rfl, rfl, rfl, rfl⟩
  obtain ⟨a1, a2, a3, a4, a5, a6, a7, a8, a9⟩ := hAf
  clear hA
  subst a9
  -- ingestion and check
  have hI : ingestWords A = { A with sym := words, nwords := words.length } := by
    unfold ingestWords; rw [hin, hw]
  have h2 : step A = .next { A with sym := words, nwords := words.length, m := words.length / 3,
                                    stage := .degroup } := by
    rw [step_of_inbox_nil a4, engineStep_tokdes a3]
    refine (thenStage_of (r := exec .tokdes A) (u := { ingestWords A with m := (ingestWords A).nwords / 3 })
      (if_neg ?_) ?_).trans ?_
    · rw [hI]; exact not_not.mpr hmod
    · rw [hI]; exact a1
    · rw [hI]
  -- degrouping
  have h3 : step { A with sym := words, nwords := words.length, m := words.length / 3, stage := .degroup } =
      .next { A with sym := words, nwords := words.length, m := words.length / 3, tokq := tokensOf words,
                     stage := .reconstruct } := by
    refine (step_of_inbox_nil (by exact a4)).trans ((engineStep_degroup rfl).trans ?_)
    exact thenStage_of (execDegroup_next (by show words.length / 3 ≠ 0; omega)
      (by show words.length = 3 * (words.length / 3); omega)) a1
  -- the tokens
  obtain ⟨tO, tL, tX, hist, start, i, h4⟩ := runSteps_tokens (tokensOf words) (outs := outs)
    (s := { A with sym := words, nwords := words.length, m := words.length / 3, tokq := tokensOf words,
                   stage := .reconstruct })
    a4 rfl rfl (by show words.length / 3 = A.tpc + _; rw [a6, hlen]; omega) (tokensOf_fits words)
    (by show A.outs.length = A.n; rw [a7, a5]; rfl) (by show replay A.outs _ = _; rw [a7]; exact hr)
  rw [hlen] at h4
  -- leaving the loop, SYMWR, DONE
  let D : State := { A with
    sym := words, nwords := words.length, m := words.length / 3, tpc := words.length / 3, tokq := [], tOff := tO,
    tLen := tL, tLit := tX, outs := outs, hist := hist, n := outs.length, start := start, i := i,
    stage := .reconstruct }
  let E : State := { D with
    obuf := Memory.writeList [] 0 (bytesOf outs), outLen := decodedLength outs.length A.opOdd, stage := .closing }
  have h5 : step D = .next { D with stage := .symwr } :=
    (step_of_inbox_nil (by exact a4)).trans ((engineStep_reconstruct rfl).trans (if_neg (Nat.lt_irrefl _)))
  have h6 : step { D with stage := .symwr } = .next E := by
    refine (step_of_inbox_nil (by exact a4)).trans ((engineStep_symwr rfl).trans ?_)
    refine (thenStage_of (execSymwr_next (s := { D with stage := .symwr }) rfl) a1).trans ?_
    exact congrArg (fun m => Host.Outcome.next { E with obuf := Memory.writeList m 0 (bytesOf outs) }) a8
  have h7 : step E = .next (completeDecode E) := (step_of_inbox_nil (by exact a4)).trans (engineStep_closing rfl)
  refine ⟨completeDecode E, ?_, rfl, a2, rfl, a4, rfl, rfl, rfl, ?_⟩
  · rw [show words.length / 3 + 6 = (words.length / 3 + 3) + 1 + 1 + 1 by omega, runSteps_succ _ h1,
      runSteps_succ _ h2, runSteps_succ _ h3, runSteps_add _ _ h4]
    exact (runSteps_succ 2 h5).trans ((runSteps_succ 1 h6).trans (runSteps_succ 0 h7))
  · simpa using Holds_writeList Holds_nil (base := 0) (vs := bytesOf outs) rfl

end Sys2Proof.Machine
end

