-- ==== Sys2Proof/Tests/Slice0.lean ====
section
/-! SUPPORT. The tests: ill-formed terms refused, words written out from the spec's encodings, the spec's worked
examples as single steps, and a witness for the hypotheses of every obligation. Expected values are the examples in
the rules named, or written out by hand from those rules. -/

namespace Sys2Proof.Tests

open Sys2Proof Sys2Proof.Machine

/-- The next state, if there is one. -/
def nextOf : Result → Option State
  | .next t => some t
  | .fault _ => none
  | .refused _ => none

/-- One component of the next state. -/
def after {α : Type} (f : State → α) (r : Result) : Option α := (nextOf r).map f

/-- IBUF listing these bytes from index 0. -/
def bytesAt0 (bs : List Byte) : Memory := Memory.writeList [] 0 bs

/-- A state whose latched input is these bytes. -/
def withInput (bs : List Byte) : State :=
  { State.reset with ibuf := bytesAt0 bs, inLen := bs.length, opLen := bs.length, status := .busy }

/-- A matcher state at a position of a symbol sequence. -/
def matching (sym : List Symbol) (pos : Nat) : State :=
  { State.reset with sym := sym, nsym := sym.length, pos := pos, status := .busy, stage := .matching }

/-- A reconstruction state with these symbols in OUTS. -/
def withOuts (outs : List Symbol) : State :=
  { State.reset with
    outs := outs, n := outs.length, hist := Store.writeList [] 0 outs, status := .busy, stage := .reconstruct }

/-! ### Ill-formed terms -/

theorem test_wf_copy_offset : (Instr.copy 0 1 0x41).wf = false := by decide
theorem test_wf_copy_length : (Instr.copy 1 0 0x41).wf = false := by decide
theorem test_wf_rsv0_length : (Instr.rsv0 0 0x41).wf = false := by decide
theorem test_wf_rsvl0_offset : (Instr.rsvl0 0 0x41).wf = false := by decide
theorem test_wf_cmdRsv_one : (Instr.cmdRsv 1).wf = false := by decide
theorem test_wf_cmdRsv_two : (Instr.cmdRsv 2).wf = false := by decide

/-! ### Words written out from 30_encoding.md R82, R86, R90 -/

theorem test_decode_lit :
    decode (.container [0x00, 0x00, 0x00, 0x00, 0x41, 0x42]) = .ok (.lit 0x4142) := by rfl
theorem test_decode_copy :
    decode (.container [0x00, 0x03, 0x00, 0x02, 0x62, 0x64]) = .ok (.copy 3 2 0x6264) := by rfl
theorem test_decode_rsv0 :
    decode (.container [0x00, 0x00, 0x12, 0x34, 0x00, 0x41]) = .ok (.rsv0 0x1234 0x0041) := by rfl
theorem test_decode_rsvl0 :
    decode (.container [0x80, 0x01, 0x00, 0x00, 0x00, 0x41]) = .ok (.rsvl0 0x8001 0x0041) := by rfl
theorem test_decode_encode : decode (.command 0b01) = .ok .encode := by rfl
theorem test_decode_decode : decode (.command 0b10) = .ok .decode := by rfl
theorem test_decode_none : decode (.command 0b00) = .ok (.cmdRsv 0) := by rfl
theorem test_decode_reserved : decode (.command 0b11) = .ok (.cmdRsv 3) := by rfl
theorem test_decode_truncated :
    decode (.container [0x00, 0x00, 0x00, 0x00, 0x41]) = .error (.truncated 5) := by rfl
theorem test_encode_copy :
    encode (.copy 3 2 0x6264) = some (.container [0x00, 0x03, 0x00, 0x02, 0x62, 0x64]) := by decide
theorem test_encode_engine_op : encode .matcher = none := by decide
/-- Bits 47:32, 31:16 and 15:0 as the opcode table numbers them. -/
theorem test_table_word_copy : decodeTableWord 48 0x000300026264 = some (.copy 3 2 0x6264) := by rfl
theorem test_table_word_command : decodeTableWord 8 2 = some .decode := by rfl
theorem test_table_word_too_wide : decodeTableWord 8 4 = none := by rfl

/-! ### The spec's examples, one step each -/

/-- 44_reconstructor.md R177. -/
theorem test_lit : after (fun t => (t.outs, t.n, t.tpc)) (exec (.lit 0x4142) State.reset) =
    some ([0x4142], 1, 1) := by decide

/-- 44_reconstructor.md R179, R180: `[a, b, c]`, COPY 3, 2, d. -/
theorem test_copy : after (fun t => (t.outs, t.n, t.start)) (exec (.copy 3 2 0xD) (withOuts [0xA, 0xB, 0xC])) =
    some ([0xA, 0xB, 0xC, 0xA, 0xB, 0xD], 6, 0) := by decide

/-- 44_reconstructor.md R181, 90_conflicts.md C3: offset 1, length 50 on `[A]` leaves 51 A and X. -/
theorem test_copy_overlap : after (fun t => t.outs) (exec (.copy 1 50 0x58) (withOuts [0x41])) =
    some (List.replicate 51 0x41 ++ [0x58]) := by decide

/-- 44_reconstructor.md R182. -/
theorem test_rsv0 : after (fun t => (t.status, t.err, t.outs)) (exec (.rsv0 3 0x41) (withOuts [0x42])) =
    some (.failed, .invalidBackReference, [0x42]) := by decide

/-- 44_reconstructor.md R183: `n = 2` appends. -/
theorem test_rsvl0 : after (fun t => (t.outs, t.tpc)) (exec (.rsvl0 2 0x41) (withOuts [0x1, 0x2])) =
    some ([0x1, 0x2, 0x41], 1) := by decide

/-- 44_reconstructor.md R183: `n = 1` raises. -/
theorem test_rsvl0_raises : after (fun t => (t.err, t.outs)) (exec (.rsvl0 2 0x41) (withOuts [0x1])) =
    some (.invalidBackReference, [0x1]) := by decide

/-- 70_reset_and_hazards.md R261, 10_state.md R41. -/
theorem test_encode : after (fun t => (t.cmd, t.status, t.pos, t.oddOut))
    (exec .encode { State.reset with status := .done, pos := 7, oddOut := 1 }) = some (1, .busy, 0, 0) := by decide

/-- 45_operations.md R207. -/
theorem test_encode_while_busy : after (fun t => (t.cmd, t.pos))
    (exec .encode { State.reset with status := .busy, cmd := 2, pos := 7 }) = some (2, 7) := by decide

/-- 10_state.md R41: DECODE leaves ODD_OUT and clears ERR. -/
theorem test_decode : after (fun t => (t.cmd, t.status, t.err, t.oddOut, t.outs))
    (exec .decode { State.reset with status := .failed, err := .malformedContainer, oddOut := 1, outs := [5] }) =
    some (2, .busy, .none, 1, []) := by decide

/-- 10_state.md R31. -/
theorem test_cmdRsv : nextOf (exec (.cmdRsv 3) State.reset) = some State.reset := by decide

/-- 40_symbol_io.md R100: bytes 41 42 41. -/
theorem test_symrd : after (fun t => (t.sym, t.nsym)) (exec .symrd (withInput [0x41, 0x42, 0x41])) =
    some ([0x4142, 0x4100], 2) := by decide

/-- 41_window_matcher.md R113: the oldest candidate wins although a later one would extend further. -/
theorem test_match_oldest : after (fun t => (t.off, t.ml, t.lit))
    (exec .matcher (matching [0xA, 0x1A, 0xA, 0xB, 0xC, 0x11, 0xA, 0xB, 0xC, 0xD] 6)) =
    some (6, 1, 0xB) := by decide

/-- 41_window_matcher.md R117. -/
theorem test_match_extends : after (fun t => (t.tokq.map (fun k => (k.off, k.len)), t.lit))
    (exec .matcher (matching [0xA, 0xB, 0xC, 0xA, 0xB, 0xC, 0xA, 0xB, 0xC, 0xD] 3)) =
    some ([(3, 3)], 0xA) := by decide

/-- 41_window_matcher.md R112. -/
theorem test_window_start : [5, 4000, 4001].map (windowStart Config.W) = [0, 0, 1] := by decide

/-- 42_token_codec.md R140. -/
theorem test_tokser : after (fun t => (t.obuf.map Prod.snd, t.wcnt))
    (exec .tokser { State.reset with tokq := [⟨1, 1, 0x4141⟩] }) =
    some ([0x00, 0x01, 0x00, 0x01, 0x41, 0x41], 3) := by decide

/-- 42_token_codec.md R141. -/
theorem test_tokser_overflow : after (fun t => (t.status, t.err, t.obuf))
    (exec .tokser { State.reset with tokq := [⟨1, 65536, 0x0041⟩] }) =
    some (.failed, .encodingOverflow, []) := by decide

/-- 42_token_codec.md R143, R144: five bytes pass. -/
theorem test_tokdes : after (fun t => (t.sym, t.nwords, t.m, t.err))
    (exec .tokdes (withInput [0x00, 0x00, 0x00, 0x00, 0x41])) = some ([0, 0, 0x4100], 3, 1, .none) := by decide

/-- 42_token_codec.md R144: four bytes do not. -/
theorem test_tokdes_raises : after (fun t => (t.nwords, t.status, t.err))
    (exec .tokdes (withInput [0x00, 0x00, 0x00, 0x00])) = some (2, .failed, .malformedContainer) := by decide

/-- 43_degrouper.md R160. -/
theorem test_degroup : after (fun t => t.tokq)
    (exec .degroup { State.reset with sym := [0, 0, 0x4142, 1, 1, 0x4142], nwords := 6, m := 2 }) =
    some [⟨0, 0, 0x4142⟩, ⟨1, 1, 0x4142⟩] := by decide

/-- 43_degrouper.md R162. -/
theorem test_lane_count : [1, 6, 97, 100, 101, 200, 202, 210, 1001].map laneCount =
    [1, 6, 97, 100, 1, 100, 2, 70, 91] := by decide

/-- 40_symbol_io.md R102. -/
theorem test_symwr : after (fun t => (t.obuf.map Prod.snd, t.outLen)) (exec .symwr (withOuts [0x4142, 0x5800])) =
    some ([0x41, 0x42, 0x58, 0x00], 4) := by decide

/-- 40_symbol_io.md R103. -/
theorem test_symwr_odd : after (fun t => t.outLen)
    (exec .symwr { withOuts [0x4142, 0x5800] with opOdd := 1 }) = some 3 := by decide

/-- 41_window_matcher.md R114: after a wrap the oldest entry is not in slot 0 (window of 3, `pos = 4`). -/
theorem test_cam_priority_by_age : camSearch 3 4 [(0, 0x41), (1, 0x41), (2, 0x41)] 0x41 = some 1 := by decide

/-- 10_state.md R37. -/
theorem test_window : readReg State.reset .window = 4000 := by decide

/-! ### The next instruction after reset -/

theorem test_fetch_lit : after (fun t => t.outs) (step (State.reset.withFetchWord 48 0x4142)) =
    some [0x4142] := by decide
theorem test_fetch_copy : after (fun t => t.err) (step (State.reset.withFetchWord 48 0x000300026264)) =
    some .invalidBackReference := by decide
theorem test_fetch_encode : after (fun t => (t.cmd, t.stage)) (step (State.reset.withFetchWord 8 1)) =
    some (1, .symrd) := by decide
theorem test_fetch_reserved : after (fun t => t.status) (step (State.reset.withFetchWord 8 3)) =
    some .idle := by decide

/-! ### Witnesses: concrete values that meet the hypotheses of each obligation, clause by clause -/

/-- ENCODE of the byte 41, before its only MATCH step. -/
def encReady : State :=
  { withInput [0x41] with cmd := 1, sym := [0x4100], nsym := 1, stage := .matching }

/-- ENCODE of the byte 41, after its only MATCH step. -/
def encCovered : State :=
  { encReady with pos := 1, lit := 0x4100, tokq := [⟨0, 0, 0x4100⟩], win := [(0, 0x4100)] }

/-- ENCODE of the byte 41, before its only TOKSER step. -/
def encSerializing : State := { encCovered with stage := .serializing }

/-- ENCODE of the byte 41, done. -/
def encDone : State :=
  { encCovered with
    tokq := [], wcnt := 3, obuf := bytesAt0 [0, 0, 0, 0, 0x41, 0], outLen := 6, oddOut := 1, status := .done,
    stage := .idle }

/-- DECODE of five bytes, before its only token. -/
def decReady : State :=
  { withInput [0x00, 0x00, 0x00, 0x00, 0x41] with
    cmd := 2, sym := [0, 0, 0x4100], nwords := 3, m := 1, tokq := [⟨0, 0, 0x4100⟩], stage := .reconstruct }

theorem test_canonical_literal : ∀ t ∈ [(⟨0, 0, 0x4100⟩ : Token)], Canonical t := by
  intro t ht
  obtain rfl : t = ⟨0, 0, 0x4100⟩ := by simpa using ht
  exact .inl ⟨rfl, rfl⟩

theorem test_inv_encReady : Inv encReady := by
  refine ⟨⟨by decide, by decide, by decide, by decide⟩, ⟨by decide, by decide, by decide⟩, ?_⟩
  refine ⟨⟨rfl, by decide, by decide⟩, by decide, rfl, rfl, WinHolds_zero _ _, ?_, by decide⟩
  intro t ht
  cases ht

theorem test_inv_encCovered : Inv encCovered := by
  refine ⟨⟨by decide, by decide, by decide, by decide⟩, ⟨by decide, by decide, by decide⟩, ?_⟩
  exact ⟨⟨rfl, by decide, by decide⟩, by decide, rfl, rfl,
    WinHolds_write (win := []) (v := 0x4100) (by decide) (WinHolds_zero _ _) rfl, test_canonical_literal, by decide⟩

theorem test_inv_encSerializing : Inv encSerializing := by
  refine ⟨⟨by decide, by decide, by decide, by decide⟩, ⟨by decide, by decide, by decide⟩, ?_⟩
  exact ⟨⟨rfl, by decide, by decide⟩, by decide, [], by decide, Holds_nil, test_canonical_literal, by decide⟩

theorem test_inv_encDone : Inv encDone := by
  refine ⟨⟨by decide, by decide, by decide, by decide⟩, ⟨by decide, by decide, by decide⟩, fun _ => ⟨rfl, .inl ?_⟩⟩
  exact ⟨rfl, by decide, by decide, by decide, [⟨0, 0, 0x4100⟩], test_canonical_literal, by decide, by decide,
    by decide, Holds_writeList Holds_nil (base := 0) (vs := [0, 0, 0, 0, 0x41, 0]) rfl⟩

theorem test_inv_decReady : Inv decReady := by
  refine ⟨⟨by decide, by decide, by decide, by decide⟩, ⟨by decide, by decide, by decide⟩, ?_⟩
  exact ⟨⟨rfl, by decide, by decide, by decide, by decide⟩, by decide, by decide, by decide, rfl, rfl,
    HistHolds_zero _ _, by decide, by decide⟩

theorem test_witness_DecodeOfEncode :
    (Instr.copy 1 65535 0).wf = true ∧
      encode (.copy 1 65535 0) = some (.container [0x00, 0x01, 0xFF, 0xFF, 0x00, 0x00]) := by decide

theorem test_witness_EncodeOfDecode :
    decode (.container [0x00, 0x01, 0xFF, 0xFF, 0x00, 0x00]) = .ok (.copy 1 65535 0) := by rfl

theorem test_witness_TokenClassByOffsetAndLength :
    ((0 : Symbol) = 0) ∧ ((1 : Symbol) ≠ 0) ∧ ((65535 : Symbol) ≠ 0) := by decide

theorem test_witness_OtherByteCountsRejected :
    ([1, 2, 3, 4, 5] : List Byte).length < 6 ∧ 6 < ([1, 2, 3, 4, 5, 6, 7] : List Byte).length := by decide

theorem test_witness_StepRunsQueuedToken :
    decReady.inbox = [] ∧ decReady.stage = .reconstruct ∧ decReady.tpc < decReady.m ∧
      decReady.tokq = ⟨0, 0, 0x4100⟩ :: [] ∧
      (decode (.container (packToken ⟨0, 0, 0x4100⟩))).toOption = some (.lit 0x4100) := by decide

theorem test_witness_StepRunsContainerBytesAtTpc :
    Inv decReady ∧ decReady.inbox = [] ∧ decReady.stage = .reconstruct ∧ decReady.tpc < decReady.m ∧
      (decodeBytes ((inputBytes decReady ++ List.replicate (decReady.opLen % 2) 0).drop
        (6 * decReady.tpc))).toOption = some (.lit 0x4100, []) :=
  ⟨test_inv_decReady, by decide, by decide, by decide, by decide⟩

theorem test_witness_StepRunsHostCommand :
    { State.reset with inbox := [.writeCmd 2] }.inbox = .writeCmd 2 :: [] ∧
      (decode (.command 2)).toOption = some .decode := by decide

theorem test_witness_StagesRunInOrder :
    { State.reset with stage := .symrd }.stage = .symrd ∧
      (encReady.stage = .matching ∧ encReady.pos < encReady.nsym) ∧
      (encCovered.stage = .matching ∧ encCovered.nsym ≤ encCovered.pos) ∧
      ({ encCovered with stage := .serializing }.stage = .serializing ∧ encCovered.tokq ≠ []) ∧
      { State.reset with stage := .tokdes }.stage = .tokdes ∧ { decReady with stage := .degroup }.stage = .degroup ∧
      ({ decReady with tpc := 1 }.stage = .reconstruct ∧ { decReady with tpc := 1 }.m ≤ 1) ∧
      { decReady with stage := .symwr }.stage = .symwr ∧ encReady.inbox = [] ∧ decReady.inbox = [] := by decide

theorem test_witness_CompletionWritesResultRegisters :
    ({ encCovered with stage := .serializing, tokq := [] }.tokq = [] ∧ encCovered.inbox = []) ∧
      { decReady with stage := .closing }.stage = .closing := by decide

theorem test_witness_IdleEngineWaitsForCommand : State.reset.inbox = [] ∧ State.reset.stage = .idle := by decide

theorem test_witness_LitAppendsLiteral :
    State.reset.n = 0 ∧ (Instr.copy 1 1 0).wf = true ∧ (Instr.rsvl0 1 0).wf = true := by decide

/-- The offset at both ends of its range, 1 and `n`. -/
theorem test_witness_CopyAppendsPeriodThenLiteral :
    (Instr.copy 1 65535 0).wf = true ∧ (Instr.copy 2 1 0).wf = true ∧
      (withOuts [5, 6]).outs.length = (withOuts [5, 6]).n ∧ (1 : Symbol).toNat ≤ (withOuts [5, 6]).n ∧
      (2 : Symbol).toNat ≤ (withOuts [5, 6]).n := by decide

theorem test_witness_CopyOffsetIsCheckedAgainstCursor :
    (Instr.copy 2 1 0).wf = true ∧ (withOuts [5]).n < (2 : Symbol).toNat ∧
      (2 : Symbol).toNat ≤ (withOuts [5, 6]).n ∧ (withOuts [5, 6]).outs.length = (withOuts [5, 6]).n := by decide

theorem test_witness_CopyOfDistanceOneRepeatsSymbol :
    (withOuts [0x41]).outs = [] ++ [0x41] ∧ (withOuts [0x41]).outs.length = (withOuts [0x41]).n := by decide

theorem test_witness_ReservedZeroLengthChecksAndAppends :
    (Instr.rsvl0 2 0).wf = true ∧ (withOuts [5]).n < (2 : Symbol).toNat ∧
      (2 : Symbol).toNat ≤ (withOuts [5, 6]).n := by decide

theorem test_witness_OutputIsAppendOnly :
    Instr.lit 7 ≠ .encode ∧ Instr.lit 7 ≠ .decode ∧
      after (fun t => t.outs) (exec (.lit 7) (withOuts [5])) = some [5, 7] := by decide

theorem test_witness_CircularHistoryIsExact :
    HistHolds State.reset.hist State.reset.outs State.reset.n ∧
      HistHolds (withOuts [5]).hist (withOuts [5]).outs (withOuts [5]).n ∧ 1 ≤ (withOuts [5]).n ∧
      after (fun t => t.n) (exec (.lit 7) (withOuts [5])) = some 2 :=
  ⟨HistHolds_zero _ _,
   HistHolds_append (hist := []) (outs := []) 5 rfl (HistHolds_zero _ _), by decide, by decide⟩

theorem test_witness_EncodeAcceptanceInitialises :
    State.reset.status ≠ .busy ∧ withinCap State.reset.inLen = true := by decide

theorem test_witness_DecodeAcceptanceInitialises :
    { State.reset with status := .failed }.status ≠ .busy ∧ withinCap State.reset.inLen = true := by decide

theorem test_witness_CommandAcceptedOrIgnored :
    (Instr.cmdRsv 0).wf = true ∧ (Instr.cmdRsv 3).wf = true ∧
    { State.reset with inbox := [.writeCmd 1] }.inbox = .writeCmd 1 :: [] ∧ State.reset.status ≠ .busy ∧
      withinCap State.reset.inLen = true ∧ { decReady with inbox := [.writeCmd 2] }.status = .busy := by decide

theorem test_witness_SymrdPairsBytes :
    2 * 0 + 1 < (withInput [1, 2, 3]).opLen ∧ 2 * 1 + 1 = (withInput [1, 2, 3]).opLen ∧
      ([0x41] : List Byte).length % 2 = 1 := by decide

theorem test_witness_SymwrWritesBytePairs :
    (withOuts [5, 6]).outs.length = (withOuts [5, 6]).n ∧ (withOuts [5, 6]).outs[1]? = some 6 ∧
      2 * (withOuts [5, 6]).n ≤ 4 := by decide

theorem test_witness_LastSymbolIsEmittedAsLiteral :
    encReady.pos < encReady.nsym ∧ encReady.pos = encReady.nsym - 1 ∧
      encReady.sym[encReady.pos]? = some 0x4100 := by decide

theorem test_witness_NoCandidateEmitsLiteral :
    (matching [5, 6] 0).pos < (matching [5, 6] 0).nsym - 1 ∧
      (matching [5, 6] 0).sym[(matching [5, 6] 0).pos]? = some 5 ∧
      (∀ j, (matching [5, 6] 0).pos - 4000 ≤ j → j < (matching [5, 6] 0).pos →
        (matching [5, 6] 0).sym[j]? ≠ some 5) :=
  ⟨by decide, by decide, fun j _ h => absurd h (Nat.not_lt_zero j)⟩

theorem test_witness_OldestCandidateIsMatchedGreedily :
    (matching [5, 5, 5] 1).nsym = (matching [5, 5, 5] 1).sym.length ∧
      (matching [5, 5, 5] 1).pos < (matching [5, 5, 5] 1).nsym - 1 ∧
      (matching [5, 5, 5] 1).sym[(matching [5, 5, 5] 1).pos]? = some 5 ∧
      (matching [5, 5, 5] 1).pos - 4000 ≤ 0 ∧ 0 < (matching [5, 5, 5] 1).pos ∧
      (matching [5, 5, 5] 1).sym[0]? = some 5 ∧
      (∀ j, (matching [5, 5, 5] 1).pos - 4000 ≤ j → j < 0 → (matching [5, 5, 5] 1).sym[j]? ≠ some 5) :=
  ⟨by decide, by decide, by decide, by decide, by decide, by decide, fun j _ h => absurd h (Nat.not_lt_zero j)⟩

theorem test_witness_EmittedTokenBounds :
    encReady.nsym = encReady.sym.length ∧ encReady.pos < encReady.nsym := by decide

theorem test_witness_ContentAddressedSearchEqualsScan :
    Store.wf encCovered.win = true ∧ 1 ≤ encCovered.sym.length ∧ WinHolds 4000 encCovered.win encCovered.sym 1 :=
  ⟨by decide, by decide, WinHolds_write (win := []) (v := 0x4100) (by decide) (WinHolds_zero _ _) rfl⟩

theorem test_witness_WindowStoreFollowsPos :
    encReady.nsym = encReady.sym.length ∧ encReady.pos ≤ encReady.nsym ∧
      WinHolds 4000 encReady.win encReady.sym encReady.pos ∧ Store.wf encReady.win = true ∧
      after (fun t => t.pos) (exec .matcher encReady) = some 1 :=
  ⟨by decide, by decide, WinHolds_zero _ _, by decide, by decide⟩

theorem test_witness_EmittedTokensCoverInput :
    (Inv encCovered ∧ encCovered.stage = .matching ∧ encCovered.pos = encCovered.nsym) ∧
      (Inv encSerializing ∧ encSerializing.stage = .serializing) ∧
      (Inv encDone ∧ encDone.status = .done ∧ encDone.cmd = 1) :=
  ⟨⟨test_inv_encCovered, by decide, by decide⟩, ⟨test_inv_encSerializing, by decide⟩,
    ⟨test_inv_encDone, by decide, by decide⟩⟩

/-- Both fields at the largest value that fits. -/
theorem test_witness_TokserAppendsSixBytes :
    { State.reset with tokq := [⟨65535, 65535, 0⟩] }.tokq = ⟨65535, 65535, 0⟩ :: [] ∧ 65535 ≤ 65535 := by decide

theorem test_witness_TokserRejectsWideFields :
    { State.reset with tokq := [⟨65536, 1, 0⟩] }.tokq = ⟨65536, 1, 0⟩ :: [] ∧ 65535 < 65536 ∧
      { State.reset with tokq := [⟨1, 65536, 0⟩] }.tokq = ⟨1, 65536, 0⟩ :: [] := by decide

theorem test_witness_FinishedLoopsChangeNothing :
    encCovered.nsym ≤ encCovered.pos ∧ State.reset.tokq = [] := by decide

theorem test_witness_TokdesIngestsThenChecksLength :
    (withInput [0, 0, 0, 0, 0x41]).opLen % 6 = 5 ∧ State.reset.opLen % 6 = 0 ∧
      ¬ ((withInput [0, 0, 0, 0]).opLen % 6 = 0 ∨ (withInput [0, 0, 0, 0]).opLen % 6 = 5) ∧
      2 * 2 + 1 = (withInput [0, 0, 0, 0, 0x41]).opLen ∧ 2 * 1 + 1 < (withInput [0, 0, 0, 0, 0x41]).opLen := by
  decide

theorem test_witness_ContainerGivesTokensBack :
    ∀ t ∈ [(⟨65535, 65535, 0⟩ : Token)], t.off ≤ 65535 ∧ t.len ≤ 65535 := by decide

theorem test_witness_DegroupMakesTriples :
    decReady.m ≠ 0 ∧ decReady.sym.length = 3 * decReady.m ∧ 0 < decReady.m ∧ decReady.sym[3 * 0]? = some 0 ∧
      decReady.sym[3 * 0 + 1]? = some 0 ∧ decReady.sym[3 * 0 + 2]? = some 0x4100 := by decide

theorem test_witness_DegroupOfNothingRaises : State.reset.m = 0 := by decide

theorem test_witness_LaneCountIsLargestDivisor : 1 ≤ 100 ∧ 100 ≤ 100 ∧ 200 % 100 = 0 := by decide

theorem test_witness_LanesAndTheirOrderDoNotMatter :
    ([1, 2, 3, 4, 5, 6] : List Symbol).length = 3 * 2 ∧ 1 ≤ 2 ∧ 2 % 2 = 0 ∧ [1, 0].Perm (List.range 2) :=
  ⟨by decide, by decide, by decide, List.Perm.swap 0 1 []⟩

theorem test_witness_MissingLaneAbortsMerge : 1 < 2 ∧ 1 ∉ [0] := by decide

theorem test_witness_BusyInstructionGoesOnOrRaises :
    decReady.status = .busy ∧ after (fun t => t.err) (exec (.rsv0 1 0) decReady) = some .invalidBackReference ∧
      after (fun t => t.err) (exec (.lit 0) decReady) = some .none := by decide

theorem test_witness_EachErrorHasItsRaisers :
    State.reset.err = .none ∧
      after (fun t => t.err) (exec .tokser { State.reset with tokq := [⟨65536, 1, 0⟩] }) = some .encodingOverflow ∧
      after (fun t => t.err) (exec .tokdes (withInput [0])) = some .malformedContainer ∧
      after (fun t => t.err) (exec .degroup State.reset) = some .irregularTokenStream ∧
      after (fun t => t.err) (exec (.rsvl0 1 0) State.reset) = some .invalidBackReference := by decide

theorem test_witness_DecodeErrorsFollowPriority :
    State.reset.status ≠ .busy ∧ ¬ (([1] : List Byte).length % 6 = 0 ∨ ([1] : List Byte).length % 6 = 5) ∧
      ([1, 2, 3, 4, 5] : List Byte).length % 6 = 5 ∧
      after (fun t => t.err) (runSteps 1 (hostCommand 2 [1, 2, 3, 4, 5] 0 State.reset)) = some .none := by decide

theorem test_witness_StatusTransitions :
    Inv encReady ∧
      after (fun t => t.status) (step { encReady with inbox := [.reset] }) = some .idle ∧
      encReady.status ≠ .idle ∧
      after (fun t => t.status) (step { State.reset with inbox := [.writeCmd 1] }) = some .busy :=
  ⟨test_inv_encReady, by decide, by decide, by decide⟩

theorem test_witness_ResetEndsAnyOperation :
    { encReady with inbox := [.reset] }.inbox = .reset :: [] ∧ encReady.status = .busy ∧
      after (fun t => t.status) (step { encReady with inbox := [.reset] }) = some .idle := by decide

theorem test_witness_WindowRegisterIsHardwired :
    { State.reset with inbox := [.writeReadOnly .window 5] }.inbox = .writeReadOnly .window 5 :: [] ∧
      { State.reset with inbox := [.writeReadOnly .status 1] }.inbox = .writeReadOnly .status 1 :: [] ∧
      { State.reset with inbox := [.writeReadOnly .err 4] }.inbox = .writeReadOnly .err 4 :: [] ∧
      { State.reset with inbox := [.writeReadOnly .outLen 6] }.inbox = .writeReadOnly .outLen 6 :: [] ∧
      { State.reset with inbox := [.writeReadOnly .oddOut 1] }.inbox = .writeReadOnly .oddOut 1 :: [] := by decide

theorem test_witness_InputsAndSymbolsAreReadOnly :
    after (fun t => t.sym) (exec (.lit 0) decReady) = some [0, 0, 0x4100] ∧ Instr.lit 0 ≠ .symrd ∧
      Instr.lit 0 ≠ .tokdes ∧ Instr.lit 0 ≠ .encode ∧ Instr.lit 0 ≠ .decode := by decide

theorem test_witness_UnitsKeepToTheirOwnState :
    after (fun t => t.wcnt) (exec (.lit 0) decReady) = some 0 ∧
      after (fun t => t.tpc) (exec .matcher encReady) = some 0 := by decide

theorem test_witness_HostWritesWhileBusy :
    State.reset.status ≠ .busy ∧ encReady.status = .busy ∧
      { State.reset with inbox := [.writeInLen 9] }.inbox = .writeInLen 9 :: [] ∧
      { State.reset with inbox := [.writeOddIn 1] }.inbox = .writeOddIn 1 :: [] ∧
      { State.reset with inbox := [.writeIbuf 0 9] }.inbox = .writeIbuf 0 9 :: [] ∧
      { encReady with inbox := [.writeInLen 9] }.inbox = .writeInLen 9 :: [] ∧
      { encReady with inbox := [.writeOddIn 1] }.inbox = .writeOddIn 1 :: [] ∧
      { encReady with inbox := [.writeIbuf 0 9] }.inbox = .writeIbuf 0 9 :: [] := by decide

theorem test_witness_StepKeepsInvariant :
    Inv encReady ∧ after (fun t => t.pos) (step encReady) = some 1 ∧
      Inv decReady ∧ after (fun t => t.outs) (step decReady) = some [0x4100] :=
  ⟨test_inv_encReady, by decide, test_inv_decReady, by decide⟩

theorem test_witness_InvariantStatesNeverFault : Inv encCovered := test_inv_encCovered

theorem test_witness_EveryOperationTerminates :
    Inv decReady ∧ decReady.status = .busy ∧ decReady.inbox = [] := ⟨test_inv_decReady, by decide, by decide⟩

theorem test_witness_OperationsArePure :
    State.reset.status ≠ .busy ∧ { decReady with status := .failed }.status ≠ .busy ∧
      ((1 : BitVec 2) = 1 ∨ (1 : BitVec 2) = 2) ∧ (1 : BitVec 2) ≠ 2 := by decide

theorem test_witness_EncodeOfEmptyAndOfOneByte : { decReady with status := .done }.status ≠ .busy := by decide

theorem test_witness_DecodeOfEncodeRoundTrip :
    State.reset.status ≠ .busy ∧ ([0x41] : List Byte) ≠ [] := by decide

theorem test_witness_ContainerCutAtTokenDecodesToPrefix :
    State.reset.status ≠ .busy ∧ 1 ≤ 8 ∧
      after (fun t => (t.status, t.outs))
        (runSteps 8 (hostCommand 2 [0, 0, 0, 0, 0x41, 0x42, 0, 1, 0, 1, 0x41, 0x43] 0 State.reset)) =
        some (.done, [0x4142, 0x4142, 0x4143]) ∧
      1 ≤ 1 ∧ 6 * 1 ≤ 12 ∧ 6 * 2 ≤ 12 := by decide

end Sys2Proof.Tests
end

section
/-! What each instruction can do, said once: `Effect` lists every next state of `exec`, and `exec_effect` shows that
the list is complete. Statements about all instructions go by cases on it. -/

namespace Sys2Proof.Machine

/-- One of the four token classes (30_encoding.md R86). -/
def isToken : Instr → Bool
  | .lit _ | .copy _ _ _ | .rsv0 _ _ | .rsvl0 _ _ => true
  | _ => false

/-- OUTS has grown at its end and HIST with it; of the rest only the copy's registers and `tpc` may differ
(44_reconstructor.md R177 to R181). -/
structure Appends (s t : State) : Prop where
  frame : t = { s with outs := t.outs, hist := t.hist, n := t.n, start := t.start, i := t.i, tpc := t.tpc }
  outs_prefix : s.outs <+: t.outs
  hist_holds : s.outs.length = s.n → HistHolds s.hist s.outs s.n →
    t.outs.length = t.n ∧ HistHolds t.hist t.outs t.n
  hist_wf : Store.wf s.hist = true → Store.wf t.hist = true

/-- Setting the copy's registers and `tpc` appends nothing. -/
theorem Appends.registers (s : State) (start i tpc : Nat) :
    Appends s { s with start := start, i := i, tpc := tpc } :=
  ⟨rfl, List.prefix_refl _, fun hlen hh => ⟨hlen, hh⟩, id⟩

/-- The frame with the changed fields named, so that a field outside them is unchanged by `rfl`. -/
theorem Appends.exists_eq {s t : State} (h : Appends s t) : ∃ outs hist n start i tpc,
    t = { s with outs := outs, hist := hist, n := n, start := start, i := i, tpc := tpc } :=
  ⟨_, _, _, _, _, _, h.frame⟩

theorem Appends.trans {s t u : State} (h₁ : Appends s t) (h₂ : Appends t u) : Appends s u where
  frame := by rw [h₂.frame, h₁.frame]
  outs_prefix := h₁.outs_prefix.trans h₂.outs_prefix
  hist_holds hlen hh := (h₁.hist_holds hlen hh).elim h₂.hist_holds
  hist_wf := h₂.hist_wf ∘ h₁.hist_wf

/-- The one write OUTS has (20_memory.md R54). -/
theorem appends_appendOut (v : Symbol) (s : State) : Appends s (appendOut v s) where
  frame := rfl
  outs_prefix := List.prefix_append _ _
  hist_holds hlen hh := ⟨by simp [hlen], HistHolds_append v hlen hh⟩
  hist_wf := Store_wf_write _ v

theorem appends_finishToken (x : Symbol) (s : State) : Appends s (finishToken x s) :=
  (appends_appendOut x s).trans (.registers (appendOut x s) s.start s.i (s.tpc + 1))

theorem appends_copyLoop {count : Nat} {s t : State} (h : copyLoop count s = some t) : Appends s t := by
  induction count generalizing s with
  | zero =>
    cases h
    exact .registers t t.start t.i t.tpc
  | succ count ih =>
    simp only [copyLoop] at h
    split at h
    · next v _ =>
      exact ((appends_appendOut v s).trans (.registers (appendOut v s) s.start (s.i + 1) s.tpc)).trans (ih h)
    · cases h

/-- Everything the copy branch can do, in any state. -/
theorem copyBranch_cases {d l x : Symbol} {s t : State} (h : copyBranch d l x s = .next t) :
    t = raise .invalidBackReference s ∨ Appends s t := by
  unfold copyBranch at h
  split at h
  · cases h
    exact .inl rfl
  · split at h
    · next u hu =>
      cases h
      exact .inr (((Appends.registers s (s.n - d.toNat) 0 s.tpc).trans (appends_copyLoop hu)).trans
        (appends_finishToken x u))
    · cases h

/-- Every next state an instruction can lead to from `s`; `unchanged` is a command that is ignored, a finished MATCH
or an empty TOKSER. A case keeps what the frames need of it, and not the values written. -/
inductive Effect (s : State) : Instr → State → Prop
  | unchanged {i : Instr} (hi : isToken i = false) : Effect s i s
  | appended {i : Instr} {t : State} (hi : isToken i = true) (h : Appends s t) : Effect s i t
  | badReference {i : Instr} (hi : isToken i = true) : Effect s i (raise .invalidBackReference s)
  | encodeAccepted (h : s.status ≠ .busy) : Effect s .encode (acceptEncode s)
  | decodeAccepted (h : s.status ≠ .busy) : Effect s .decode (acceptDecode s)
  | symbolsRead (syms : List Symbol) (nsym : Nat) : Effect s .symrd { s with sym := syms, nsym := nsym }
  | literalEmitted (x : Symbol) (lo c : Nat) : Effect s .matcher (emitLiteral x { s with lo := lo, c := c })
  | matchEmitted (off ml : Nat) (x : Symbol) (lo c : Nat) :
      Effect s .matcher (emitMatch off ml x { s with lo := lo, c := c })
  | serialized (tok : Token) (rest : List Token) : Effect s .tokser { s with
      obuf := Memory.writeList s.obuf (2 * s.wcnt) (packToken tok), wcnt := s.wcnt + Config.TRIPLE, tokq := rest }
  | overflowed : Effect s .tokser (raise .encodingOverflow s)
  | ingested (m : Nat) : Effect s .tokdes { ingestWords s with m := m }
  | malformed : Effect s .tokdes (raise .malformedContainer (ingestWords s))
  | degrouped (toks : List Token) : Effect s .degroup { s with tokq := toks }
  | irregular : Effect s .degroup (raise .irregularTokenStream s)
  | symbolsWritten (bs : List Byte) (len : Nat) :
      Effect s .symwr { s with obuf := Memory.writeList s.obuf 0 bs, outLen := len }

theorem execMatcher_effect {s t : State} (h : execMatcher s = .next t) : Effect s .matcher t := by
  unfold execMatcher at h
  split at h
  · cases h
    exact .unchanged rfl
  · split at h
    · cases h
    · next x _ =>
      split at h
      · cases h
        exact .literalEmitted x s.lo s.c
      · dsimp only at h
        split at h
        · cases h
          exact .literalEmitted x _ _
        · split at h
          · cases h
          · cases h
            exact .matchEmitted _ _ _ _ _

theorem execTokser_effect {s t : State} (h : execTokser s = .next t) : Effect s .tokser t := by
  obtain ⟨-, he⟩ | ⟨tok, rest, -, -, -, he⟩ | ⟨-, -, -, -, he⟩ := execTokser_cases s <;> cases he.symm.trans h
  · exact .unchanged rfl
  · exact .serialized tok rest
  · exact .overflowed

theorem execTokdes_effect {s t : State} (h : execTokdes s = .next t) : Effect s .tokdes t := by
  obtain ⟨-, he⟩ | ⟨-, he⟩ := execTokdes_cases s <;> cases he.symm.trans h
  · exact .ingested _
  · exact .malformed

theorem execDegroup_effect {s t : State} (h : execDegroup s = .next t) : Effect s .degroup t := by
  unfold execDegroup at h
  split at h
  · cases h
    exact .irregular
  · split at h <;> cases h
    · exact .degrouped _
    · exact .irregular

theorem execSymwr_effect {s t : State} (h : execSymwr s = .next t) : Effect s .symwr t := by
  unfold execSymwr at h
  split at h <;> cases h
  exact .symbolsWritten _ _

theorem copyBranch_effect {i : Instr} {d l x : Symbol} {s t : State} (hi : isToken i = true)
    (h : copyBranch d l x s = .next t) : Effect s i t := by
  obtain rfl | ha := copyBranch_cases h
  · exact .badReference hi
  · exact .appended hi ha

theorem execEncode_effect {s t : State} (h : execEncode s = .next t) : Effect s .encode t := by
  by_cases hb : s.status = .busy
  · cases (execEncode_busy hb).symm.trans h
    exact .unchanged rfl
  · cases (execEncode_accepted hb).symm.trans h
    exact .encodeAccepted hb

theorem execDecode_effect {s t : State} (h : execDecode s = .next t) : Effect s .decode t := by
  by_cases hb : s.status = .busy
  · cases (execDecode_busy hb).symm.trans h
    exact .unchanged rfl
  · cases (execDecode_accepted hb).symm.trans h
    exact .decodeAccepted hb

/-- The list of effects is complete. -/
theorem exec_effect {i : Instr} {s t : State} (h : exec i s = .next t) : Effect s i t := by
  cases i with
  | lit x =>
    cases h
    exact .appended rfl (appends_finishToken x s)
  | copy d l x => exact copyBranch_effect rfl h
  | rsv0 l x =>
    cases h
    exact .badReference rfl
  | rsvl0 d x => exact copyBranch_effect (d := d) (l := 0) (x := x) rfl h
  | encode => exact execEncode_effect h
  | decode => exact execDecode_effect h
  | cmdRsv code =>
    cases h
    exact .unchanged rfl
  | symrd =>
    cases h
    exact .symbolsRead _ _
  | matcher => exact execMatcher_effect h
  | tokser => exact execTokser_effect h
  | tokdes => exact execTokdes_effect h
  | degroup => exact execDegroup_effect h
  | symwr => exact execSymwr_effect h

end Sys2Proof.Machine
end

section
/-! What instructions keep: the frame of every effect, STATUS and ERR under it, and the stores it leaves in form. -/

namespace Sys2Proof.Machine

variable {s t : State} {i : Instr}

/-- The instructions of the decoder unit (10_state.md R23). -/
def isDecoderInstr : Instr → Bool
  | .tokdes | .degroup | .symwr => true
  | i => isToken i

/-- The instructions of the encoder unit (10_state.md R21, R22). -/
def isEncoderInstr : Instr → Bool
  | .symrd | .matcher | .tokser => true
  | _ => false

theorem isEncoderInstr_of_isToken (h : isToken i = true) : isEncoderInstr i = false := by
  cases i with
  | lit | copy | rsv0 | rsvl0 => rfl
  | _ => cases h

theorem Effect.inputs_eq (h : Effect s i t) :
    t.inLen = s.inLen ∧ t.oddIn = s.oddIn ∧ t.ibuf = s.ibuf := by
  cases h with
  | appended _ ha =>
    obtain ⟨_, _, _, _, _, _, rfl⟩ := ha.exists_eq
    exact ⟨rfl, rfl, rfl⟩
  | _ => exact ⟨rfl, rfl, rfl⟩

theorem Effect.sym_eq (h : Effect s i t) (h₁ : i ≠ .symrd) (h₂ : i ≠ .tokdes) (h₃ : i ≠ .encode)
    (h₄ : i ≠ .decode) : t.sym = s.sym := by
  cases h with
  | appended _ ha =>
    obtain ⟨_, _, _, _, _, _, rfl⟩ := ha.exists_eq
    rfl
  | symbolsRead => exact absurd rfl h₁
  | ingested => exact absurd rfl h₂
  | malformed => exact absurd rfl h₂
  | encodeAccepted => exact absurd rfl h₃
  | decodeAccepted => exact absurd rfl h₄
  | _ => rfl

theorem Effect.latches_eq (h : Effect s i t) (h₁ : i ≠ .encode) (h₂ : i ≠ .decode) :
    t.opLen = s.opLen ∧ t.opOdd = s.opOdd ∧ t.cmd = s.cmd := by
  cases h with
  | appended _ ha =>
    obtain ⟨_, _, _, _, _, _, rfl⟩ := ha.exists_eq
    exact ⟨rfl, rfl, rfl⟩
  | encodeAccepted => exact absurd rfl h₁
  | decodeAccepted => exact absurd rfl h₂
  | _ => exact ⟨rfl, rfl, rfl⟩

theorem Effect.obuf_eq (h : Effect s i t) (h₁ : i ≠ .tokser) (h₂ : i ≠ .symwr) (h₃ : i ≠ .encode)
    (h₄ : i ≠ .decode) : t.obuf = s.obuf := by
  cases h with
  | appended _ ha =>
    obtain ⟨_, _, _, _, _, _, rfl⟩ := ha.exists_eq
    rfl
  | serialized => exact absurd rfl h₁
  | symbolsWritten => exact absurd rfl h₂
  | encodeAccepted => exact absurd rfl h₃
  | decodeAccepted => exact absurd rfl h₄
  | _ => rfl

theorem Effect.encoder_eq (h : Effect s i t) (hi : isDecoderInstr i = true) :
    t.nsym = s.nsym ∧ t.pos = s.pos ∧ t.lo = s.lo ∧ t.c = s.c ∧ t.hit = s.hit ∧ t.off = s.off ∧
      t.ml = s.ml ∧ t.lit = s.lit ∧ t.wcnt = s.wcnt ∧ t.win = s.win ∧ t.oddOut = s.oddOut := by
  cases h with
  | appended _ ha =>
    obtain ⟨_, _, _, _, _, _, rfl⟩ := ha.exists_eq
    exact ⟨rfl, rfl, rfl, rfl, rfl, rfl, rfl, rfl, rfl, rfl, rfl⟩
  | encodeAccepted | decodeAccepted | symbolsRead | literalEmitted | matchEmitted | serialized => cases hi
  | _ => exact ⟨rfl, rfl, rfl, rfl, rfl, rfl, rfl, rfl, rfl, rfl, rfl⟩

theorem Effect.decoder_eq (h : Effect s i t) (hi : isEncoderInstr i = true) :
    t.nwords = s.nwords ∧ t.m = s.m ∧ t.tpc = s.tpc ∧ t.tOff = s.tOff ∧ t.tLen = s.tLen ∧ t.tLit = s.tLit ∧
      t.n = s.n ∧ t.start = s.start ∧ t.i = s.i ∧ t.outs = s.outs ∧ t.hist = s.hist ∧ t.oddOut = s.oddOut := by
  cases h with
  | appended ht | badReference ht => cases (isEncoderInstr_of_isToken ht).symm.trans hi
  | encodeAccepted | decodeAccepted | ingested | malformed | degrouped | irregular | symbolsWritten => cases hi
  | _ => exact ⟨rfl, rfl, rfl, rfl, rfl, rfl, rfl, rfl, rfl, rfl, rfl, rfl⟩

/-- An instruction executed while BUSY leaves STATUS and ERR alone or raises (60_exceptions.md R230). -/
theorem Effect.goes_on_or_raises (h : Effect s i t) (hb : s.status = .busy) :
    (t.status = .busy ∧ t.err = s.err) ∨
    (t.status = .failed ∧ t.err ≠ .none ∧ t.outLen = 0 ∧ t.stage = .idle) := by
  cases h with
  | appended _ ha =>
    obtain ⟨_, _, _, _, _, _, rfl⟩ := ha.exists_eq
    exact .inl ⟨hb, rfl⟩
  | encodeAccepted hn | decodeAccepted hn => exact absurd hb hn
  | badReference | overflowed | malformed | irregular => exact .inr ⟨rfl, by simp, rfl, rfl⟩
  | _ => exact .inl ⟨hb, rfl⟩

/-- Every instruction keeps HIST the circular history of OUTS (10_state.md R39). -/
theorem Effect.histHolds (h : Effect s i t) (hlen : s.outs.length = s.n) (hh : HistHolds s.hist s.outs s.n) :
    t.outs.length = t.n ∧ HistHolds t.hist t.outs t.n := by
  cases h with
  | appended _ ha => exact ha.hist_holds hlen hh
  | encodeAccepted | decodeAccepted => exact ⟨rfl, HistHolds_zero _ _⟩
  | _ => exact ⟨hlen, hh⟩

/-- Every instruction keeps the four stores canonical. -/
theorem Effect.storesWf (h : Effect s i t) (hw : StoresWf s) : StoresWf t := by
  obtain ⟨hibuf, hobuf, hwin, hhist⟩ := hw
  cases h with
  | appended _ ha =>
    have hhist' := ha.hist_wf hhist
    obtain ⟨_, _, _, _, _, _, rfl⟩ := ha.exists_eq
    exact ⟨hibuf, hobuf, hwin, hhist'⟩
  | encodeAccepted | decodeAccepted => exact ⟨hibuf, rfl, rfl, rfl⟩
  | literalEmitted | matchEmitted => exact ⟨hibuf, hobuf, shiftIn_wf _ _ hwin, hhist⟩
  | serialized | symbolsWritten => exact ⟨hibuf, Memory_wf_writeList _ _ hobuf, hwin, hhist⟩
  | _ => exact ⟨hibuf, hobuf, hwin, hhist⟩

end Sys2Proof.Machine
end

section
/-! What one step can do, said once: the engine's step in terms of `exec`, and the stores it keeps. -/

namespace Sys2Proof.Machine

variable {s t : State}

/-- A stage ends in the next state of its instruction, up to the stage register. -/
theorem thenStage_eq_next {st : Stage} {r : Result} (h : thenStage st r = .next t) :
    ∃ u st', r = .next u ∧ t = { u with stage := st' } := by
  cases r with
  | next u =>
    rw [thenStage_next] at h
    split at h <;> cases h
    · exact ⟨u, st, rfl, rfl⟩
    · exact ⟨t, t.stage, rfl, rfl⟩
  | fault r => cases h
  | refused r => cases h

/-- A fetch that goes on runs an instruction on the state with a token latched. -/
theorem runToken_eq_next (h : runToken s = .next t) :
    ∃ i tok rest, exec i (latchToken tok rest s) = .next t := by
  cases hq : s.tokq with
  | nil => simp [runToken, hq] at h
  | cons tok rest => exact ⟨_, tok, rest, (runToken_cons hq).symm.trans h⟩

/-- Every next state one engine step can lead to from `s`: the stage register alone changes, an instruction runs (on
`s`, or on `s` with a token latched), or an operation ends. -/
inductive EngineStep (s : State) : State → Prop
  | stageOnly (st : Stage) : EngineStep s { s with stage := st }
  | ran {i : Instr} {t : State} (h : exec i s = .next t) (st : Stage) : EngineStep s { t with stage := st }
  | token {i : Instr} {tok : Token} {rest : List Token} {t : State}
      (h : exec i (latchToken tok rest s) = .next t) : EngineStep s t
  | encodeDone (h : s.stage = .serializing) : EngineStep s (completeEncode s)
  | decodeDone (h : s.stage = .closing) : EngineStep s (completeDecode s)

theorem engineStep_of_thenStage {st : Stage} {i : Instr} (h : thenStage st (exec i s) = .next t) :
    EngineStep s t := by
  obtain ⟨u, st', hu, rfl⟩ := thenStage_eq_next h
  exact .ran hu st'

/-- The list of engine steps is complete. -/
theorem engineStep_eq_next (h : engineStep s = .next t) : EngineStep s t := by
  cases hst : s.stage with
  | idle =>
    cases (engineStep_idle hst).symm.trans h
    exact .stageOnly s.stage
  | symrd => exact engineStep_of_thenStage ((engineStep_symrd hst).symm.trans h)
  | matching =>
    rw [engineStep_matching hst] at h
    split at h
    · exact .ran h t.stage
    · cases h
      exact .stageOnly .serializing
  | serializing =>
    cases hq : s.tokq with
    | nil =>
      cases (engineStep_serializing_nil hst hq).symm.trans h
      exact .encodeDone hst
    | cons tok rest => exact .ran ((engineStep_serializing_cons hst hq).symm.trans h) t.stage
  | tokdes => exact engineStep_of_thenStage ((engineStep_tokdes hst).symm.trans h)
  | degroup => exact engineStep_of_thenStage ((engineStep_degroup hst).symm.trans h)
  | reconstruct =>
    rw [engineStep_reconstruct hst] at h
    split at h
    · obtain ⟨i, tok, rest, he⟩ := runToken_eq_next h
      exact .token he
    · cases h
      exact .stageOnly .symwr
  | symwr => exact engineStep_of_thenStage ((engineStep_symwr hst).symm.trans h)
  | closing =>
    cases (engineStep_closing hst).symm.trans h
    exact .decodeDone hst

/-- The engine keeps the four stores canonical. -/
theorem EngineStep.storesWf (h : EngineStep s t) (hw : StoresWf s) : StoresWf t := by
  cases h with
  | ran he => exact (exec_effect he).storesWf hw
  | token he => exact (exec_effect he).storesWf hw
  | _ => exact hw

/-- The engine takes STATUS from BUSY to DONE at an operation's end and to FAILED by a raise, and nowhere else
(10_state.md R32). -/
theorem EngineStep.status_of_busy (h : EngineStep s t) (hb : s.status = .busy) :
    t.status = .busy ∨ (t.status = .failed ∧ t.err ≠ .none) ∨
    (t.status = .done ∧ (s.stage = .serializing ∨ s.stage = .closing)) := by
  have key : ∀ {i : Instr} {u v : State}, exec i u = .next v → u.status = .busy →
      v.status = .busy ∨ v.status = .failed ∧ v.err ≠ .none := by
    intro i u v he hu
    obtain ⟨hv, -⟩ | ⟨hv, herr, -, -⟩ := (exec_effect he).goes_on_or_raises hu
    · exact .inl hv
    · exact .inr ⟨hv, herr⟩
  cases h with
  | stageOnly => exact .inl hb
  | ran he => exact (key he hb).imp_right .inl
  | token he => exact (key he hb).imp_right .inl
  | encodeDone hs => exact .inr (.inr ⟨rfl, .inl hs⟩)
  | decodeDone hs => exact .inr (.inr ⟨rfl, .inr hs⟩)

end Sys2Proof.Machine
end

section
/-! The invariant: what holds before a stage holds, in its form for the next one, after the stage's step; and the
host's actions keep it. -/

namespace Sys2Proof.Machine

variable {s t : State}

/-- STATUS, ERR, OUT_LEN and the stage agree, and what must hold before the stage holds. -/
def StageReady (s : State) : Prop := OutcomeOk s ∧ StageOk s

theorem inv_iff (s : State) : Inv s ↔ StoresWf s ∧ StageReady s := Iff.rfl

theorem stageReady_raise {e : Err} (he : e ≠ .none) (u : State) : StageReady (raise e u) := raise_ok e he u

/-- With an operation in progress the engine is BUSY without an error. -/
theorem OutcomeOk.of_stage (h : OutcomeOk s) (hst : s.stage ≠ .idle) : s.status = .busy ∧ s.err = .none := by
  obtain ⟨hbusy, hfailed, -⟩ := h
  have hb : s.status = .busy := hbusy.mpr hst
  exact ⟨hb, by simpa [hb] using hfailed⟩

/-- The outcome registers agree after a step that writes none of them and hands over to another stage. -/
theorem OutcomeOk.goes_on (h : OutcomeOk s) (hidle : s.stage ≠ .idle) (hclosing : s.stage ≠ .closing)
    (hstatus : t.status = s.status) (herr : t.err = s.err) (hlen : t.outLen = s.outLen) (hst : t.stage ≠ .idle) :
    OutcomeOk t := by
  obtain ⟨hb, he⟩ := h.of_stage hidle
  obtain ⟨-, -, hzero⟩ := h
  refine ⟨by simp [hstatus, hb, hst], by simp [hstatus, hb, herr, he], fun _ _ => ?_⟩
  rw [hlen]
  exact hzero (by simp [hb]) hclosing

theorem outcomeOk_of_done (hd : s.status = .done) (he : s.err = .none) (hst : s.stage = .idle) : OutcomeOk s :=
  ⟨by simp [hd, hst], by simp [hd, he], fun h => absurd hd h⟩

/-! ### ENCODE -/

theorem symrd_keeps_ready (hst : s.stage = .symrd) (h : StageReady s) (ht : engineStep s = .next t) :
    StageReady t := by
  obtain ⟨hout, hok⟩ := h
  obtain ⟨hb, -⟩ := hout.of_stage (by simp [hst])
  simp only [StageOk, hst] at hok
  obtain ⟨hcmd, -, hq, hpos, hwcnt, hobuf, hwin⟩ := hok
  cases ((engineStep_symrd hst).trans (thenStage_of rfl hb)).symm.trans ht
  refine ⟨hout.goes_on (by simp [hst]) (by simp [hst]) rfl rfl rfl (by simp), ?_⟩
  refine ⟨⟨hcmd, rfl, rfl⟩, by simp [hpos], hwcnt, hobuf, ?_, by simp [hq], by simp [hq, hpos, replay]⟩
  simpa [hwin, hpos] using WinHolds_zero _ _

theorem matching_keeps_ready (hst : s.stage = .matching) (h : StageReady s) (ht : engineStep s = .next t) :
    StageReady t := by
  obtain ⟨hout, hok⟩ := h
  rw [engineStep_matching hst] at ht
  split at ht
  · next hpos =>
    obtain ⟨hst', hstatus, herr, hlen, hok', -⟩ := matching_step hst hok hpos ht
    exact ⟨hout.goes_on (by simp [hst]) (by simp [hst]) hstatus herr hlen (by simp [hst']), hok'⟩
  · next hpos =>
    cases ht
    simp only [StageOk, hst] at hok
    obtain ⟨⟨hcmd, hsym, hn⟩, hle, hwcnt, hobuf, -, hcan, hrep⟩ := hok
    have hend : s.pos = s.nsym := by omega
    refine ⟨hout.goes_on (by simp [hst]) (by simp [hst]) rfl rfl rfl (by simp), ?_⟩
    refine ⟨⟨hcmd, hsym, hn⟩, hend, [], hwcnt, by simp [hobuf], hcan, ?_⟩
    simpa [hend, hn] using hrep

/-- TOKSER on a token that fits (42_token_codec.md R140). -/
theorem execTokser_next {tok : Token} {rest : List Token} (hq : s.tokq = tok :: rest)
    (hoff : fitsWord tok.off = true) (hlen : fitsWord tok.len = true) :
    execTokser s = .next { s with obuf := Memory.writeList s.obuf (2 * s.wcnt) (packToken tok),
                                  wcnt := s.wcnt + Config.TRIPLE, tokq := rest } := by
  simp [execTokser, hq, hoff, hlen]

theorem serializing_keeps_ready (hst : s.stage = .serializing) (h : StageReady s) (ht : engineStep s = .next t) :
    StageReady t := by
  obtain ⟨hout, hok⟩ := h
  obtain ⟨-, he⟩ := hout.of_stage (by simp [hst])
  simp only [StageOk, hst] at hok
  obtain ⟨⟨hcmd, hsym, hn⟩, hend, written, hwcnt, hobuf, hcan, hrep⟩ := hok
  cases hq : s.tokq with
  | nil =>
    cases (engineStep_serializing_nil hst hq).symm.trans ht
    rw [hq, List.append_nil] at hcan hrep
    exact ⟨outcomeOk_of_done rfl he rfl,
      fun _ => ⟨hq, .inl ⟨hcmd, hend, hn, rfl, written, hcan, hrep, hwcnt, rfl, hobuf⟩⟩⟩
  | cons tok rest =>
    rw [hq, List.append_cons] at hcan hrep
    obtain ⟨hoff, hml⟩ := Canonical_fits (hcan tok (by simp))
    cases ((engineStep_serializing_cons hst hq).trans (execTokser_next hq hoff hml)).symm.trans ht
    refine ⟨hout.goes_on (by simp [hst]) (by simp [hst]) rfl rfl rfl (by simp [hst]), ?_⟩
    simp only [StageOk, hst]
    refine ⟨⟨hcmd, hsym, hn⟩, hend, written ++ [tok], ?_, ?_, hcan, hrep⟩
    · simp [hwcnt, Nat.mul_add]
    · rw [containerOf_append]
      refine Holds_writeList (vs := containerOf [tok]) hobuf ?_
      rw [containerOf_length, hwcnt, Config.TRIPLE]
      omega

/-! ### DECODE -/

theorem tokdes_keeps_ready (hst : s.stage = .tokdes) (h : StageReady s) (ht : engineStep s = .next t) :
    StageReady t := by
  obtain ⟨hout, hok⟩ := h
  obtain ⟨hb, -⟩ := hout.of_stage (by simp [hst])
  simp only [StageOk, hst] at hok
  obtain ⟨hcmd, hq, houts, hn, htpc, hobuf, hhist⟩ := hok
  obtain ⟨hmod, he⟩ | ⟨-, he⟩ := execTokdes_cases s
  · cases ((engineStep_tokdes hst).trans (thenStage_of he hb)).symm.trans ht
    refine ⟨hout.goes_on (by simp [hst]) (by simp [hst]) rfl rfl rfl (by simp), ?_⟩
    exact ⟨⟨hcmd, rfl, rfl, hmod, rfl⟩, hq, houts, hn, htpc, hobuf, hhist⟩
  · cases ((engineStep_tokdes hst).trans (thenStage_raise he (by simp))).symm.trans ht
    exact stageReady_raise (by simp) _

theorem WordsIn.length_eq (h : WordsIn s) : s.sym.length = 3 * s.m ∧ (tokensOf s.sym).length = s.m := by
  obtain ⟨-, -, hnw, hmod, hm⟩ := h
  rw [tokensOf_length, ← hnw, hm]
  exact ⟨(Nat.mul_div_cancel' (Nat.dvd_of_mod_eq_zero hmod)).symm, rfl⟩

theorem degroup_keeps_ready (hst : s.stage = .degroup) (h : StageReady s) (ht : engineStep s = .next t) :
    StageReady t := by
  obtain ⟨hout, hok⟩ := h
  obtain ⟨hb, -⟩ := hout.of_stage (by simp [hst])
  simp only [StageOk, hst] at hok
  obtain ⟨hwords, -, houts, hn, htpc, hobuf, -⟩ := hok
  by_cases hm : s.m = 0
  · have he : exec .degroup s = .next (raise .irregularTokenStream s) := if_pos hm
    cases ((engineStep_degroup hst).trans (thenStage_raise he (by simp))).symm.trans ht
    exact stageReady_raise (by simp) _
  · have he : exec .degroup s = .next { s with tokq := tokensOf s.sym } := execDegroup_next hm hwords.length_eq.1
    cases ((engineStep_degroup hst).trans (thenStage_of he hb)).symm.trans ht
    refine ⟨hout.goes_on (by simp [hst]) (by simp [hst]) rfl rfl rfl (by simp), ?_⟩
    refine ⟨hwords, Nat.one_le_iff_ne_zero.mpr hm, by simp [htpc], by simp [htpc], by simp [houts, hn], hobuf, ?_,
      by simp [htpc], by simp [htpc, houts, replay]⟩
    simpa [hn] using HistHolds_zero _ _

theorem reconstruct_keeps_ready (hst : s.stage = .reconstruct) (h : StageReady s) (ht : engineStep s = .next t) :
    StageReady t := by
  obtain ⟨hout, hok⟩ := h
  obtain ⟨hb, he⟩ := hout.of_stage (by simp [hst])
  rw [engineStep_reconstruct hst] at ht
  split at ht
  · next htpc =>
    obtain ⟨hst', hb', herr, hlen, -, -, hok'⟩ | ⟨u, rfl⟩ := reconstruct_step hst hb hok htpc ht
    · exact ⟨hout.goes_on (by simp [hst]) (by simp [hst]) (hb'.trans hb.symm) herr hlen (by simp [hst']), hok'⟩
    · exact stageReady_raise (by simp) u
  · next htpc =>
    cases ht
    simp only [StageOk, hst] at hok
    obtain ⟨hwords, hm, hle, hn, hlen, hobuf, -, hq, hrep⟩ := hok
    have hend : s.tpc = s.m := by omega
    have hlast : s.tpc = (tokensOf s.sym).length := hend.trans hwords.length_eq.2.symm
    refine ⟨hout.goes_on (by simp [hst]) (by simp [hst]) rfl rfl rfl (by simp), ?_⟩
    refine ⟨hwords, hm, hend, hend ▸ hn, hlen, hobuf, ?_, ?_⟩
    · simpa [hlast] using hq
    · simpa [hlast] using hrep

theorem symwr_keeps_ready (hst : s.stage = .symwr) (h : StageReady s) (ht : engineStep s = .next t) :
    StageReady t := by
  obtain ⟨hout, hok⟩ := h
  obtain ⟨hb, he⟩ := hout.of_stage (by simp [hst])
  simp only [StageOk, hst] at hok
  obtain ⟨⟨hcmd, -⟩, hm, htpc, hn, hlen, hobuf, hq, hrep⟩ := hok
  cases ((engineStep_symwr hst).trans (thenStage_of (execSymwr_next hlen) hb)).symm.trans ht
  refine ⟨⟨by simp [hb], by simp [hb, he], by simp⟩, hq, hcmd, htpc, hm, hn, hlen, hrep, rfl, ?_⟩
  simpa [hobuf] using Holds_writeList Holds_nil (base := 0) (vs := bytesOf s.outs) rfl

theorem closing_keeps_ready (hst : s.stage = .closing) (h : StageReady s) (ht : engineStep s = .next t) :
    StageReady t := by
  obtain ⟨hout, hok⟩ := h
  obtain ⟨-, he⟩ := hout.of_stage (by simp [hst])
  simp only [StageOk, hst] at hok
  obtain ⟨hq, hdone⟩ := hok
  cases (engineStep_closing hst).symm.trans ht
  exact ⟨outcomeOk_of_done rfl he rfl, fun _ => ⟨hq, .inr hdone⟩⟩

/-! ### The step -/

theorem engineStep_keeps_inv (h : Inv s) (ht : engineStep s = .next t) : Inv t := by
  obtain ⟨hwf, hready⟩ := (inv_iff s).mp h
  refine (inv_iff t).mpr ⟨(engineStep_eq_next ht).storesWf hwf, ?_⟩
  cases hst : s.stage with
  | idle =>
    cases (engineStep_idle hst).symm.trans ht
    exact hready
  | symrd => exact symrd_keeps_ready hst hready ht
  | matching => exact matching_keeps_ready hst hready ht
  | serializing => exact serializing_keeps_ready hst hready ht
  | tokdes => exact tokdes_keeps_ready hst hready ht
  | degroup => exact degroup_keeps_ready hst hready ht
  | reconstruct => exact reconstruct_keeps_ready hst hready ht
  | symwr => exact symwr_keeps_ready hst hready ht
  | closing => exact closing_keeps_ready hst hready ht

/-- The engine changes STATUS at an operation's end and by a raise, and only out of BUSY. -/
theorem engineStep_status (h : Inv s) (ht : engineStep s = .next t) (hne : t.status ≠ s.status) :
    s.status = .busy ∧ ((t.status = .failed ∧ t.err ≠ .none) ∨
      (t.status = .done ∧ (s.stage = .serializing ∨ s.stage = .closing))) := by
  obtain ⟨-, hout, -⟩ := h
  by_cases hst : s.stage = .idle
  · cases (engineStep_idle hst).symm.trans ht
    exact absurd rfl hne
  · have hb : s.status = .busy := hout.1.mpr hst
    exact ⟨hb, ((engineStep_eq_next ht).status_of_busy hb).resolve_left (hb ▸ hne)⟩

/-- A command value is accepted as ENCODE or DECODE by an engine that is not BUSY, or changes nothing
(45_operations.md R207). -/
theorem exec_decodeCommand_cases {code : BitVec 2} (ht : exec (decodeCommand code) s = .next t) :
    t = s ∨ (code = 1 ∧ t = acceptEncode s) ∨ (code = 2 ∧ t = acceptDecode s) := by
  unfold decodeCommand at ht
  split at ht
  · next hc =>
    cases exec_effect ht with
    | unchanged => exact .inl rfl
    | encodeAccepted => exact .inr (.inl ⟨hc, rfl⟩)
    | appended hi | badReference hi => cases hi
  · split at ht
    · next hc =>
      cases exec_effect ht with
      | unchanged => exact .inl rfl
      | decodeAccepted => exact .inr (.inr ⟨hc, rfl⟩)
      | appended hi | badReference hi => cases hi
    · cases ht
      exact .inl rfl

/-- The invariant asks nothing of the values that the reset event leaves unspecified (70_reset_and_hazards.md R263). -/
theorem inv_resetEngine (s : State) : Inv (resetEngine s) :=
  ⟨⟨rfl, rfl, rfl, rfl⟩, ⟨by simp, by simp, by simp⟩, fun h => by cases h⟩

theorem inv_acceptEncode (hibuf : Memory.wf s.ibuf = true) : Inv (acceptEncode s) :=
  ⟨⟨hibuf, rfl, rfl, rfl⟩, acceptEncode_ok s⟩

theorem inv_acceptDecode (hibuf : Memory.wf s.ibuf = true) : Inv (acceptDecode s) :=
  ⟨⟨hibuf, rfl, rfl, rfl⟩, acceptDecode_ok s⟩

/-- A write of IBUF with no operation in progress keeps the invariant: it speaks of IBUF in stages of an operation
only. -/
theorem inv_writeIbuf (h : Inv s) (hb : s.status ≠ .busy) (a : Nat) (v : Byte) :
    Inv { s with ibuf := Memory.write s.ibuf a v } := by
  obtain ⟨⟨hibuf, hobuf, hwin, hhist⟩, hout, hok⟩ := h
  have hst : s.stage = .idle := by_contra fun hne => hb (hout.1.mpr hne)
  refine ⟨⟨Memory_wf_write a v hibuf, hobuf, hwin, hhist⟩, hout, ?_⟩
  simp only [StageOk, hst] at hok ⊢
  exact hok

theorem hostStep_keeps_inv {a : HostAct} (h : Inv s) (ht : hostStep a s = .next t) : Inv t := by
  cases a with
  | idle => exact engineStep_keeps_inv h ht
  | writeCmd code =>
    have hibuf : Memory.wf s.ibuf = true := by
      obtain ⟨⟨hibuf, -⟩, -⟩ := h
      exact hibuf
    obtain rfl | ⟨-, rfl⟩ | ⟨-, rfl⟩ := exec_decodeCommand_cases ht
    · exact h
    · exact inv_acceptEncode hibuf
    · exact inv_acceptDecode hibuf
  | writeInLen | writeOddIn | writeReadOnly =>
    cases ht
    exact h
  | writeIbuf index value =>
    simp only [hostStep] at ht
    split at ht
    · cases ht
    · next hb =>
      cases ht
      exact inv_writeIbuf h hb index value
  | reset =>
    cases ht
    exact inv_resetEngine s

/-- Taking an action off the inbox keeps the invariant, which does not speak of it. -/
theorem inv_inbox (h : Inv s) (rest : List HostAct) : Inv { s with inbox := rest } := h

theorem step_keeps_inv (h : Inv s) (ht : step s = .next t) : Inv t := by
  cases hin : s.inbox with
  | nil => exact engineStep_keeps_inv h ((step_of_inbox_nil hin).symm.trans ht)
  | cons a rest => exact hostStep_keeps_inv (inv_inbox h rest) ((step_of_inbox_cons hin).symm.trans ht)

end Sys2Proof.Machine
end

section
/-! The container as the token fetch sees it: bytes, words and tokens at the same program counter (10_state.md R25,
30_encoding.md R83, R84). -/

namespace Sys2Proof.Machine

/-- Bytes to symbols and back is the input with the zero pad byte of an odd one (40_symbol_io.md R100). -/
theorem bytesOf_symbolsOf : ∀ bs : List Byte,
    bytesOf (symbolsOf bs) = bs ++ List.replicate (bs.length % 2) 0
  | [] => rfl
  | [b] => by simp [symbolsOf]
  | a :: b :: rest => by
    have hpar : (rest.length + 1 + 1) % 2 = rest.length % 2 := Nat.add_mod_right _ 2
    simp [symbolsOf, bytesOf_symbolsOf rest, hpar]

theorem bytesOf_drop (k : Nat) (ws : List Symbol) : (bytesOf ws).drop (2 * k) = bytesOf (ws.drop k) := by
  induction k generalizing ws with
  | zero => rfl
  | succ k ih =>
    cases ws with
    | nil => rfl
    | cons w ws => simpa [Nat.mul_succ] using ih ws

theorem tokensOf_drop (k : Nat) (ws : List Symbol) : (tokensOf ws).drop k = tokensOf (ws.drop (3 * k)) := by
  induction k generalizing ws with
  | zero => rfl
  | succ k ih =>
    match ws with
    | [] => rfl
    | [_] => rfl
    | [_, _] => rfl
    | a :: b :: c :: rest => simpa [tokensOf, Nat.mul_succ] using ih rest

@[simp] theorem fieldWord_toNat_symbol (v : Symbol) : fieldWord v.toNat = v := by simp [fieldWord]

theorem decodeBytes_bytesOf (off len lit : Symbol) (rest : List Symbol) :
    decodeBytes (bytesOf (off :: len :: lit :: rest)) = .ok (classify off len lit, bytesOf rest) :=
  decodeBytes_tokenBytes off len lit (bytesOf rest)

/-- The head of a word list that holds a token. -/
theorem exists_triple {ws : List Symbol} (h : 3 ≤ ws.length) : ∃ off len lit rest, ws = off :: len :: lit :: rest := by
  match ws, h with
  | off :: len :: lit :: rest, _ => exact ⟨off, len, lit, rest, rfl⟩

/-- In the reconstruction the words from `3 * tpc` on are the next token's three and those of the tokens after it,
and TOKQ holds the same tokens. -/
theorem reconstruct_words {s : State} (hst : s.stage = .reconstruct) (h : StageOk s) (htpc : s.tpc < s.m) :
    ∃ off len lit rest, (symbolsOf (inputBytes s)).drop (3 * s.tpc) = off :: len :: lit :: rest ∧
      s.tokq = tokenOf off len lit :: s.tokq.tail := by
  simp only [StageOk, hst] at h
  obtain ⟨hwords, -, -, -, -, -, -, hq, -⟩ := h
  have hlen := hwords.length_eq.1
  rw [tokensOf_drop] at hq
  obtain ⟨-, hsym, -⟩ := hwords
  obtain ⟨off, len, lit, rest, hws⟩ := exists_triple (ws := s.sym.drop (3 * s.tpc)) (by rw [List.length_drop]; omega)
  refine ⟨off, len, lit, rest, hsym ▸ hws, ?_⟩
  rw [hq, hws]
  rfl

end Sys2Proof.Machine
end

section
/-! The host's writes as steps, and its set-up before a command as a run (70_reset_and_hazards.md R265, R266). -/

namespace Sys2Proof.Machine

theorem step_writeInLen {s : State} {len : Nat} {rest : List HostAct} (h : s.inbox = .writeInLen len :: rest) :
    step s = .next { s with inLen := len, inbox := rest } := step_of_inbox_cons h

theorem step_writeOddIn {s : State} {bit : BitVec 1} {rest : List HostAct} (h : s.inbox = .writeOddIn bit :: rest) :
    step s = .next { s with oddIn := bit, inbox := rest } := step_of_inbox_cons h

theorem step_writeIbuf {s : State} {a : Nat} {v : Byte} {rest : List HostAct} (hb : s.status ≠ .busy)
    (h : s.inbox = .writeIbuf a v :: rest) :
    step s = .next { s with ibuf := Memory.write s.ibuf a v, inbox := rest } :=
  (step_of_inbox_cons h).trans (if_neg hb)

/-- An input written byte by byte from a base index, each byte a step, is in IBUF from that base. -/
theorem runSteps_writeIbuf (input : List Byte) (base : Nat) (rest : List HostAct) {s : State}
    (hb : s.status ≠ .busy)
    (h : s.inbox = (input.zipIdx base).map (fun e => .writeIbuf e.2 e.1) ++ rest) :
    runSteps input.length s = .next { s with ibuf := Memory.writeList s.ibuf base input, inbox := rest } := by
  induction input generalizing base s with
  | nil =>
    cases h
    rfl
  | cons b input ih =>
    exact (runSteps_succ _ (step_writeIbuf hb h)).trans (ih (base + 1) hb rfl)

/-- The host's set-up, action by action, gives `hostSetup` (70_reset_and_hazards.md R265, R266). -/
theorem runSteps_setupActions (s : State) (input : List Byte) (odd : BitVec 1) (hb : s.status ≠ .busy) :
    runSteps (input.length + 2) { s with inbox := setupActions input odd } = .next (hostSetup input odd s) := by
  have hbytes := runSteps_writeIbuf input 0 [.writeInLen input.length, .writeOddIn odd]
    (s := { s with inbox := setupActions input odd }) hb rfl
  exact (runSteps_add _ 2 hbytes).trans
    ((runSteps_succ 1 (step_writeInLen rfl)).trans (runSteps_succ 0 (step_writeOddIn rfl)))

end Sys2Proof.Machine
end

section
/-! The statements of the state family (10_state.md), each from the lemmas above. -/

namespace Sys2Proof.Machine

/-- Settles O7. The padded container is the words' bytes, so both the bytes at `6 * tpc` and the head of TOKQ are the
word triple at `3 * tpc`. -/
theorem stepRunsContainerBytesAtTpc : Obligations.StepRunsContainerBytesAtTpc := by
  intro s i rest ⟨_, _, hok⟩ hin hst htpc hdec
  obtain ⟨off, len, lit, words, hws, hq⟩ := reconstruct_words hst hok htpc
  have hbytes : (inputBytes s ++ List.replicate (s.opLen % 2) 0).drop (6 * s.tpc) =
      bytesOf (off :: len :: lit :: words) := by
    have hpad := bytesOf_symbolsOf (inputBytes s)
    rw [inputBytes_length] at hpad
    rw [← hpad, show 6 * s.tpc = 2 * (3 * s.tpc) by omega, bytesOf_drop, hws]
  rw [hbytes, decodeBytes_bytesOf] at hdec
  cases hdec
  refine ⟨latchToken (tokenOf off len lit) s.tokq.tail s, ?_, rfl, ?_⟩
  · rw [step_of_inbox_nil hin, engineStep_reconstruct hst, if_pos htpc, runToken_cons hq]
    simp [tokenOf]
  · simp [tokenOf]

/-- Settles O54, by `step_keeps_inv`. -/
theorem stepKeepsInvariant : Obligations.StepKeepsInvariant := fun _ _ h ht => step_keeps_inv h ht

/-- Settles O53: after reset no operation is in progress and the stores are empty. -/
theorem resetMeetsInvariant : Obligations.ResetMeetsInvariant :=
  ⟨⟨rfl, rfl, rfl, rfl⟩, ⟨by simp [State.reset], by simp [State.reset], fun _ _ => rfl⟩, fun h => by cases h⟩

/-- Settles O19: an offset a token can express reaches back less than HCAP, and no effect breaks the history. -/
theorem circularHistoryIsExact : Obligations.CircularHistoryIsExact := by
  refine ⟨fun d s hh h₁ hd hn => ?_, fun i s t hlen hh ht => (exec_effect ht).histHolds hlen hh⟩
  have hcap : d < Config.HCAP := by unfold Config.HCAP; omega
  exact hh (s.n - d) (by omega) (by omega)

/-- Settles O31: each way a MATCH step goes on passes the symbols it covers behind `pos`. -/
theorem windowStoreFollowsPos : Obligations.WindowStoreFollowsPos := by
  intro s t hn hle hwin hwf ht
  have advance (k : Nat) (hk : s.pos + k ≤ s.sym.length) :
      WinHolds Config.W (shiftIn Config.W s.sym s.pos k s.win) s.sym (s.pos + k) ∧
        Store.wf (shiftIn Config.W s.sym s.pos k s.win) = true :=
    ⟨WinHolds_shiftIn (by decide) k hwin hk, shiftIn_wf _ _ hwf⟩
  by_cases hpos : s.pos < s.nsym
  · obtain ⟨-, he⟩ | ⟨-, -, he⟩ | ⟨c, ml, y, -, -, -, -, -, -, -, hend, -, -, -, he⟩ :=
      execMatcher_cases hn hpos <;> cases he.symm.trans ht
    · exact advance 1 (by omega)
    · exact advance 1 (by omega)
    · exact advance (ml + 1) (by omega)
  · have he : exec .matcher s = .next s := if_pos (by omega)
    cases he.symm.trans ht
    exact ⟨hwin, hwf⟩

/-- Settles O43: of the effects only a raise writes STATUS while BUSY. -/
theorem busyInstructionGoesOnOrRaises : Obligations.BusyInstructionGoesOnOrRaises :=
  fun _ _ _ hb ht => (exec_effect ht).goes_on_or_raises hb

/-- Settles O46: the engine's step by `engineStep_status`, the host's actions by what each does. -/
theorem statusTransitions : Obligations.StatusTransitions := by
  refine ⟨⟨rfl, rfl, rfl, rfl⟩, fun s t hinv ht hne => ?_⟩
  have engine (rest : List HostAct) (he : engineStep { s with inbox := rest } = .next t) :
      (s.status = .busy ∧ t.status = .done ∧ (s.stage = .serializing ∨ s.stage = .closing)) ∨
      (s.status = .busy ∧ t.status = .failed ∧ t.err ≠ .none) := by
    obtain ⟨hb, hfail | hdone⟩ := engineStep_status (inv_inbox hinv rest) he hne
    · exact .inr ⟨hb, hfail⟩
    · exact .inl ⟨hb, hdone⟩
  cases hin : s.inbox with
  | nil => exact .inr ((engine s.inbox ((step_of_inbox_nil hin).symm.trans ht)).imp_right .inl)
  | cons a rest =>
    rw [step_of_inbox_cons hin] at ht
    cases a with
    | idle => exact .inr ((engine rest ht).imp_right .inl)
    | writeCmd code =>
      obtain rfl | ⟨hc, rfl⟩ | ⟨hc, rfl⟩ := exec_decodeCommand_cases ht
      · exact absurd rfl hne
      · exact .inl ⟨rfl, code, rest, rfl, .inl hc⟩
      · exact .inl ⟨rfl, code, rest, rfl, .inr hc⟩
    | writeInLen | writeOddIn | writeReadOnly =>
      cases ht
      exact absurd rfl hne
    | writeIbuf index value =>
      simp only [hostStep] at ht
      split at ht <;> cases ht
      exact absurd rfl hne
    | reset =>
      cases ht
      exact .inr (.inr (.inr ⟨rfl, rest, rfl⟩))

/-- Settles O50, by the frames of the effects. -/
theorem inputsAndSymbolsAreReadOnly : Obligations.InputsAndSymbolsAreReadOnly := by
  intro i s t ht
  have he := exec_effect ht
  obtain ⟨hinLen, hoddIn, hibuf⟩ := he.inputs_eq
  exact ⟨hinLen, hoddIn, fun a => by rw [hibuf], he.sym_eq, he.latches_eq⟩

/-- Settles O51, by the frames of the effects of each unit's instructions. -/
theorem unitsKeepToTheirOwnState : Obligations.UnitsKeepToTheirOwnState := by
  intro i s t ht
  have he := exec_effect ht
  refine ⟨fun hi => he.encoder_eq ?_, fun hi => he.decoder_eq ?_, fun h₁ h₂ h₃ h₄ a => ?_⟩
  · obtain ⟨_, rfl⟩ | ⟨_, _, _, rfl⟩ | ⟨_, _, rfl⟩ | ⟨_, _, rfl⟩ | rfl | rfl | rfl := hi <;> rfl
  · obtain rfl | rfl | rfl := hi <;> rfl
  · rw [he.obuf_eq h₁ h₂ h₃ h₄]

/-- Settles O52: each write is one step, and the set-up is a run of such steps. -/
theorem hostWritesWhileBusy : Obligations.HostWritesWhileBusy := by
  refine ⟨fun s rest hb => ⟨fun len h => step_writeInLen h, fun bit h => step_writeOddIn h, fun a v h => ?_⟩,
    runSteps_setupActions, fun s rest hb => ⟨fun len h => ?_, fun bit h => ?_, fun a v h => ?_⟩⟩
  · refine ⟨_, step_writeIbuf hb h, rfl, ?_, fun b hne => ?_⟩
    · simp [Memory_read_write]
    · simp [Memory_read_write, hne]
  · exact ⟨_, step_writeInLen h, rfl⟩
  · exact ⟨_, step_writeOddIn h, rfl⟩
  · exact (step_of_inbox_cons h).trans (if_pos hb)

/-- Settles O8: the decoder reads a command value as `decodeCommand` does, which the host port runs. -/
theorem stepRunsHostCommand : Obligations.StepRunsHostCommand := by
  intro s code rest i hin hdec
  cases hdec
  exact step_of_inbox_cons hin

/-- Settles O47, by reading the fields of `State.reset`. -/
theorem resetRegisterValues : Obligations.ResetRegisterValues :=
  ⟨rfl, rfl, rfl, rfl, rfl, rfl, rfl, rfl, rfl, rfl⟩

/-- Settles O49: WINDOW has no field to write, and the host port ignores a write of a read-only register. -/
theorem windowRegisterIsHardwired : Obligations.WindowRegisterIsHardwired :=
  fun _ => ⟨rfl, fun _ _ _ h => step_of_inbox_cons h⟩

end Sys2Proof.Machine
end

section
/-! OUTS under an instruction (20_memory.md R54): only an accepted command empties it. -/

namespace Sys2Proof.Machine

/-- Tokens append to OUTS, and a raise keeps it (notes/assumptions/17.md). -/
theorem Effect.outs_prefix {s t : State} {i : Instr} (h : Effect s i t) (h₁ : i ≠ .encode) (h₂ : i ≠ .decode) :
    s.outs <+: t.outs := by
  cases h with
  | appended _ ha => exact ha.outs_prefix
  | encodeAccepted => exact absurd rfl h₁
  | decodeAccepted => exact absurd rfl h₂
  | _ => exact List.prefix_refl _

/-- Settles O18, by cases on the effect of the instruction. -/
theorem outputIsAppendOnly : Obligations.OutputIsAppendOnly :=
  fun _ _ _ h₁ h₂ h => (exec_effect h).outs_prefix h₁ h₂

end Sys2Proof.Machine
end

section
/-! The decoder and the encoder as inverses (30_encoding.md R80 to R90). Container bytes are fewer than six or begin
with the layout of one token, and `decode` has an equation for each of these forms; `encode` undoes `classify` and
`decodeCommand`. -/

namespace Sys2Proof

/-- Six bytes or more begin with the layout of the three words they pair to (30_encoding.md R82, R84). -/
theorem exists_tokenBytes_append : ∀ {bs : List Byte}, 6 ≤ bs.length →
    ∃ off len lit rest, bs = tokenBytes off len lit ++ rest
  | b0 :: b1 :: b2 :: b3 :: b4 :: b5 :: rest, _ =>
    ⟨pairBytes b0 b1, pairBytes b2 b3, pairBytes b4 b5, rest, by simp [tokenBytes, wordBytes]⟩

@[simp] theorem decode_command (code : BitVec 2) : decode (.command code) = .ok (decodeCommand code) := rfl

@[simp] theorem decode_tokenBytes (off len lit : Symbol) :
    decode (.container (tokenBytes off len lit)) = .ok (classify off len lit) := by
  have h := decodeBytes_tokenBytes off len lit []
  rw [List.append_nil] at h
  simp only [decode, h]

@[simp] theorem decode_tokenBytes_trailing (off len lit : Symbol) (b : Byte) (rest : List Byte) :
    decode (.container (tokenBytes off len lit ++ b :: rest)) = .error (.trailing (b :: rest).length) := by
  simp only [decode, decodeBytes_tokenBytes]

theorem decodeBytes_truncated {bs : List Byte} (h : bs.length < 6) :
    decodeBytes bs = .error (.truncated bs.length) := by
  unfold decodeBytes
  split
  case h_1 => simp only [List.length_cons] at h; omega
  case h_2 => rfl

theorem decode_truncated {bs : List Byte} (h : bs.length < 6) :
    decode (.container bs) = .error (.truncated bs.length) := by
  simp only [decode, decodeBytes_truncated h]

/-- Container bytes that decode are the layout of one token: neither too few nor too many (30_encoding.md R80). -/
theorem exists_tokenBytes_of_decode {bs : List Byte} {i : Instr} (h : decode (.container bs) = .ok i) :
    ∃ off len lit, bs = tokenBytes off len lit ∧ i = classify off len lit := by
  by_cases hshort : bs.length < 6
  · rw [decode_truncated hshort] at h
    cases h
  · obtain ⟨off, len, lit, rest, rfl⟩ := exists_tokenBytes_append (Nat.le_of_not_lt hshort)
    cases rest with
    | nil =>
      rw [List.append_nil, decode_tokenBytes] at h
      exact ⟨off, len, lit, List.append_nil _, (Except.ok.inj h).symm⟩
    | cons b rest =>
      rw [decode_tokenBytes_trailing] at h
      cases h

/-- The class keeps the fields it tested, and they meet the constraints of its row (30_encoding.md R86). -/
theorem classify_wf_encode (off len lit : Symbol) :
    (classify off len lit).wf = true ∧
      encode (classify off len lit) = some (.container (tokenBytes off len lit)) := by
  by_cases ho : off = 0 <;> by_cases hl : len = 0
  · subst ho hl
    exact ⟨rfl, rfl⟩
  · subst ho
    rw [classify_rsv0 lit hl]
    exact ⟨by simpa [Instr.wf] using hl, rfl⟩
  · subst hl
    rw [classify_rsvl0 lit ho]
    exact ⟨by simpa [Instr.wf] using ho, rfl⟩
  · rw [classify_copy lit ho hl]
    exact ⟨by simpa [Instr.wf] using And.intro ho hl, rfl⟩

/-- The four values of CMD (30_encoding.md R90). -/
theorem decodeCommand_wf_encode (code : BitVec 2) :
    (decodeCommand code).wf = true ∧ encode (decodeCommand code) = some (.command code) := by
  revert code
  decide

theorem decodeCommand_reserved {code : BitVec 2} (h : (Instr.cmdRsv code).wf = true) :
    decodeCommand code = .cmdRsv code := by
  obtain rfl | rfl : code = 0 ∨ code = 3 := by simpa [Instr.wf] using h
  · rfl
  · rfl

/-- Settles O1, by cases on the instruction: a token's layout decodes to the class of its fields, which
well-formedness says is the one it came from; an internal stage has no encoding. -/
theorem decodeOfEncode : Obligations.DecodeOfEncode := by
  intro i e hwf he
  cases i with
  | lit x =>
    cases he
    rw [decode_tokenBytes, classify_lit]
  | copy d l x =>
    obtain ⟨hd, hl⟩ : d ≠ 0 ∧ l ≠ 0 := by simpa [Instr.wf] using hwf
    cases he
    rw [decode_tokenBytes, classify_copy x hd hl]
  | rsv0 l x =>
    have hl : l ≠ 0 := by simpa [Instr.wf] using hwf
    cases he
    rw [decode_tokenBytes, classify_rsv0 x hl]
  | rsvl0 d x =>
    have hd : d ≠ 0 := by simpa [Instr.wf] using hwf
    cases he
    rw [decode_tokenBytes, classify_rsvl0 x hd]
  | encode => cases he; rfl
  | decode => cases he; rfl
  | cmdRsv code =>
    cases he
    rw [decode_command, decodeCommand_reserved hwf]
  | symrd | matcher | tokser | tokdes | degroup | symwr => cases he

/-- Settles O2: what decodes is one token's layout or a command value, and `encode` undoes the reading of each. -/
theorem encodeOfDecode : Obligations.EncodeOfDecode := by
  intro e i h
  cases e with
  | container bytes =>
    obtain ⟨off, len, lit, rfl, rfl⟩ := exists_tokenBytes_of_decode h
    exact classify_wf_encode off len lit
  | command code =>
    obtain rfl : decodeCommand code = i := Except.ok.inj h
    exact decodeCommand_wf_encode code

/-- Settles O3: a token's layout decodes to the class of its fields, and each row of R86 is one equation of
`classify`. -/
theorem tokenClassByOffsetAndLength : Obligations.TokenClassByOffsetAndLength := by
  intro off len lit
  simp only [decode_tokenBytes]
  refine ⟨?_, ?_, ?_, ?_⟩
  · rintro rfl rfl
    rw [classify_lit]
  · intro ho hl
    rw [classify_copy lit ho hl]
  · rintro rfl hl
    rw [classify_rsv0 lit hl]
  · rintro ho rfl
    rw [classify_rsvl0 lit ho]

/-- Settles O5: fewer than six bytes hold no token, and more begin with one and leave the rest. -/
theorem otherByteCountsRejected : Obligations.OtherByteCountsRejected := by
  refine fun bs => ⟨decode_truncated, fun hlong => ?_⟩
  obtain ⟨off, len, lit, rest, rfl⟩ := exists_tokenBytes_append hlong.le
  cases rest with
  | nil => simp at hlong
  | cons b rest =>
    simp only [decode_tokenBytes_trailing, List.length_append, tokenBytes_length, Nat.add_sub_cancel_left]

/-- Settles O4: each word is evaluated. -/
theorem writtenOutWordsDecode : Obligations.WrittenOutWordsDecode :=
  ⟨rfl, rfl, rfl, rfl, rfl, rfl, rfl, rfl⟩

end Sys2Proof
end

section
/-! The statements of the symbol input and output (40_symbol_io.md): SYMRD and SYMWR read through the element lemmas
of `symbolsOf` and `bytesOf`, and the two maps as inverses up to the pad byte. -/

namespace Sys2Proof.Machine

/-! ### SYMRD -/

theorem exec_symrd (s : State) :
    exec .symrd s = .next { s with sym := symbolsOf (inputBytes s), nsym := (symbolsOf (inputBytes s)).length } := rfl

/-- A whole pair of input bytes, big-endian (20_memory.md R57). -/
theorem symbolsOf_inputBytes_pair {s : State} {j : Nat} (h : 2 * j + 1 < s.opLen) :
    (symbolsOf (inputBytes s))[j]? = some (ibufByte s (2 * j) ++ ibufByte s (2 * j + 1)) := by
  rw [symbolsOf_getElem_pair (inputBytes s) j (by simpa using h), inputBytes_getElem, inputBytes_getElem, pairBytes]

/-- The trailing byte of an odd input, with a zero low byte (20_memory.md R60). -/
theorem symbolsOf_inputBytes_last {s : State} {j : Nat} (h : 2 * j + 1 = s.opLen) :
    (symbolsOf (inputBytes s))[j]? = some (ibufByte s (2 * j) ++ (0 : Byte)) := by
  rw [symbolsOf_getElem_last (inputBytes s) j (by simpa using h), inputBytes_getElem, pairBytes]

/-- The pad byte is not told from a zero byte of the input (40_symbol_io.md R101): both come back from the symbols
as the same bytes. -/
theorem symbolsOf_append_zero {bs : List Byte} (h : bs.length % 2 = 1) : symbolsOf bs = symbolsOf (bs ++ [0]) :=
  calc symbolsOf bs = symbolsOf (bytesOf (symbolsOf bs)) := (symbolsOf_bytesOf _).symm
    _ = symbolsOf (bs ++ [0]) := by rw [bytesOf_symbolsOf, h, List.replicate_one]

/-- Settles O23: SYMRD's symbols are `symbolsOf` of the input bytes, read at a pair and at the odd tail. -/
theorem symrdPairsBytes : Obligations.SymrdPairsBytes := by
  refine ⟨fun s => ⟨_, exec_symrd s, ?_, rfl, fun _ => symbolsOf_inputBytes_pair, fun _ => symbolsOf_inputBytes_last⟩,
    fun _ => symbolsOf_append_zero⟩
  have hlen : (symbolsOf (inputBytes s)).length = (s.opLen + 1) / 2 := by
    rw [symbolsOf_length, inputBytes_length]
  rw [hlen]

/-! ### The two maps as inverses -/

/-- The length formula of DECODE gives back the number of bytes the symbols were made from. -/
theorem decodedLength_symbolsOf (bs : List Byte) :
    decodedLength (symbolsOf bs).length (BitVec.ofNat 1 (bs.length % 2)) = bs.length := by
  have hodd : (BitVec.ofNat 1 (bs.length % 2)).toNat = bs.length % 2 := by simp
  rw [decodedLength, symbolsOf_length, hodd]
  omega

/-- Settles O24: the bytes of the symbols are the input and its pad, and the odd bit cuts the pad off. -/
theorem symbolsToBytesInvertsBytesToSymbols : Obligations.SymbolsToBytesInvertsBytesToSymbols := by
  intro bs
  rw [decodedLength_symbolsOf, bytesOf_symbolsOf, List.take_left]

/-! ### SYMWR -/

/-- Symbols written from index 0 stand in the memory as byte pairs, high byte first (40_symbol_io.md R102). -/
theorem Memory_read_writeList_bytesOf {mem : Memory} {vs : List Symbol} {j : Nat} {v : Symbol}
    (h : vs[j]? = some v) :
    Memory.read (Memory.writeList mem 0 (bytesOf vs)) (2 * j) = some (hiByte v) ∧
      Memory.read (Memory.writeList mem 0 (bytesOf vs)) (2 * j + 1) = some (loByte v) := by
  obtain ⟨hj, rfl⟩ := List.getElem?_eq_some_iff.mp h
  have hlen := bytesOf_length vs
  rw [Memory_read_writeList, Memory_read_writeList, if_pos (by omega), if_pos (by omega)]
  exact bytesOf_getElem vs j hj

theorem Memory_read_writeList_of_le {mem : Memory} {base a : Nat} {bs : List Byte} (h : base + bs.length ≤ a) :
    Memory.read (Memory.writeList mem base bs) a = Memory.read mem a := by
  rw [Memory_read_writeList, if_neg (by omega)]

/-- Settles O25: on a whole OUTS, SYMWR is one list write of the byte pairs from index 0. -/
theorem symwrWritesBytePairs : Obligations.SymwrWritesBytePairs := by
  intro s hs
  refine ⟨_, execSymwr_next hs, rfl, fun _ _ => Memory_read_writeList_bytesOf, fun a ha => ?_, fun _ => rfl⟩
  exact Memory_read_writeList_of_le (by rw [bytesOf_length]; omega)

end Sys2Proof.Machine
end

section
/-! MATCH by its branches (41_window_matcher.md R110 to R122): an equation of `execMatcher` and of the emission for
each of the cases without a match, and the three conditions of the extension as the rule writes them. -/

namespace Sys2Proof.Machine

variable {s : State} {x : Symbol}

theorem execMatcher_finished (hpos : s.nsym ≤ s.pos) : execMatcher s = .next s := if_pos hpos

/-- The terminal literal (41_window_matcher.md R111). -/
theorem execMatcher_last (hpos : s.pos < s.nsym) (hlast : s.pos = s.nsym - 1) (hx : s.sym[s.pos]? = some x) :
    execMatcher s = .next (emitLiteral x s) := by
  simp only [execMatcher, if_neg (Nat.not_le.mpr hpos), hx, if_pos hlast]

/-- The literal after a search without a hit (41_window_matcher.md R113, R118). -/
theorem execMatcher_noCandidate (hpos : s.pos < s.nsym - 1) (hx : s.sym[s.pos]? = some x)
    (hnone : ∀ j, s.pos - Config.W ≤ j → j < s.pos → s.sym[j]? ≠ some x) :
    execMatcher s = .next (emitLiteral x { s with lo := s.pos - Config.W, c := s.pos }) := by
  have hs : search s.sym x (windowStart Config.W s.pos) (s.pos - windowStart Config.W s.pos) = none := by
    refine search_eq_none.mpr fun j hlo hj => hnone j hlo ?_
    unfold windowStart at hlo hj
    omega
  have hgo : ¬ s.nsym ≤ s.pos := by omega
  simp only [execMatcher, if_neg hgo, hx, if_neg (Nat.ne_of_lt hpos), hs]
  rfl

/-- The emission of a literal, field by field: WIN takes the one symbol that passes behind `pos`
(10_state.md R38, 41_window_matcher.md R118, R121). -/
theorem emitLiteral_eq (hx : s.sym[s.pos]? = some x) :
    emitLiteral x s = { s with
      hit := false, off := 0, ml := 0, lit := x, tokq := s.tokq ++ [⟨0, 0, x⟩],
      pos := s.pos + 1, win := Store.write s.win (s.pos % Config.W) x } := by
  simp only [emitLiteral, advancePos, shiftIn, hx]

/-- Within SYM the third condition of MATCH.EXTEND is the equality of the two reads (41_window_matcher.md R116). -/
theorem canExtend_iff_of_whole {sym : List Symbol} {nsym pos c ml : Nat} (hlen : nsym = sym.length) :
    canExtend sym nsym pos c ml = true ↔
      c + ml < pos ∧ pos + ml < nsym - 1 ∧ sym[pos + ml]? = sym[c + ml]? := by
  rw [canExtend_iff]
  refine and_congr_right fun _ => and_congr_right fun hin => ?_
  have hread : sym[pos + ml]? = some sym[pos + ml] := List.getElem?_eq_getElem (by omega)
  constructor
  · rintro ⟨a, hpos, hc⟩
    rw [hpos, hc]
  · intro heq
    exact ⟨_, hread, heq ▸ hread⟩

end Sys2Proof.Machine
end

section
/-! The content-addressed search (41_window_matcher.md R114): a slot of WIN tells the index of its symbol, so the
entries equal to `x` are the candidates of the scan, and the least of them is what the scan finds. -/

namespace Sys2Proof.Machine

variable {W pos : Nat} {win : Store Symbol} {sym : List Symbol} {x : Symbol}

/-- A slot's index is the one index of the window that maps to it (10_state.md R38). -/
theorem slotIndex_mod {j : Nat} (hlo : pos - W ≤ j) (hj : j < pos) : slotIndex W pos (j % W) = j := by
  have hW : 0 < W := by omega
  have hdiv : W * (j / W) + j % W = j := Nat.div_add_mod j W
  have hslot : j % W < W := Nat.mod_lt j hW
  have hage : (pos - 1 + W - j % W) % W = pos - 1 - j := by
    rw [show pos - 1 + W - j % W = (pos - 1 - j) + W * (j / W) + W by omega, Nat.add_mod_right,
      Nat.add_mul_mod_self_left, Nat.mod_eq_of_lt (by omega)]
  rw [slotIndex, hage]
  omega

/-- The entries of WIN are the symbols of the window, each at the slot of its index. -/
theorem WinHolds.mem_iff (hwf : Store.wf win = true) (hwin : WinHolds W win sym pos) {k : Nat} {v : Symbol} :
    (k, v) ∈ win ↔ ∃ j, pos - W ≤ j ∧ j < pos ∧ j % W = k ∧ sym[j]? = some v := by
  obtain ⟨hheld, hinvalid⟩ := hwin
  rw [Store_mem_iff_read hwf]
  constructor
  · intro hread
    by_contra hno
    have hnone : Store.read win k = none := by
      refine hinvalid k fun j hlo hj hk => hno ⟨j, hlo, hj, hk, ?_⟩
      rw [← hheld j hlo hj, hk, hread]
    rw [hnone] at hread
    cases hread
  · rintro ⟨j, hlo, hj, rfl, hv⟩
    rw [hheld j hlo hj, hv]

/-- The indices of the entries that are equal, all at once (41_window_matcher.md R114). -/
def camMatches (W pos : Nat) (win : Store Symbol) (x : Symbol) : List Nat :=
  (win.filter (fun e => e.2 == x)).map (fun e => slotIndex W pos e.1)

theorem camSearch_eq_min? : camSearch W pos win x = (camMatches W pos win x).min? := rfl

theorem mem_camMatches_iff (hwf : Store.wf win = true) (hwin : WinHolds W win sym pos) {j : Nat} :
    j ∈ camMatches W pos win x ↔ pos - W ≤ j ∧ j < pos ∧ sym[j]? = some x := by
  simp only [camMatches, List.mem_map, List.mem_filter, beq_iff_eq]
  constructor
  · rintro ⟨⟨k, v⟩, ⟨hmem, rfl⟩, rfl⟩
    obtain ⟨i, hlo, hi, rfl, hv⟩ := (hwin.mem_iff hwf).mp hmem
    dsimp only
    rw [slotIndex_mod hlo hi]
    exact ⟨hlo, hi, hv⟩
  · rintro ⟨hlo, hj, hx⟩
    exact ⟨(j % W, x), ⟨(hwin.mem_iff hwf).mpr ⟨j, hlo, hj, rfl, hx⟩, rfl⟩, slotIndex_mod hlo hj⟩

/-- The least equal entry is what the scan of the window finds (41_window_matcher.md R113, R114). -/
theorem camSearch_eq_search (hwf : Store.wf win = true) (hwin : WinHolds W win sym pos) :
    camSearch W pos win x = search sym x (pos - W) (pos - (pos - W)) := by
  have hend : pos - W + (pos - (pos - W)) = pos := by omega
  rw [camSearch_eq_min?]
  cases hs : search sym x (pos - W) (pos - (pos - W)) with
  | none =>
    rw [search_eq_none, hend] at hs
    refine List.min?_eq_none_iff.mpr (List.eq_nil_iff_forall_not_mem.mpr fun j hmem => ?_)
    obtain ⟨hlo, hj, hx⟩ := (mem_camMatches_iff hwf hwin).mp hmem
    exact hs j hlo hj hx
  | some c =>
    rw [search_eq_some, hend] at hs
    obtain ⟨hlo, hc, hx, hleast⟩ := hs
    refine List.min?_eq_some_iff.mpr ⟨(mem_camMatches_iff hwf hwin).mpr ⟨hlo, hc, hx⟩, fun j hmem => ?_⟩
    obtain ⟨hlo', -, hx'⟩ := (mem_camMatches_iff hwf hwin).mp hmem
    exact Nat.le_of_not_lt fun hlt => hleast j hlo' hlt hx'

end Sys2Proof.Machine
end

section
/-! Coverage (41_window_matcher.md R127): canonical tokens that replay to `SYM[0 .. pos)` cover it, and each covers at
least one and at most W + 1 symbols. -/

namespace Sys2Proof.Machine

variable {s : State} {ts : List Token}

theorem Canonical.len_le {t : Token} (h : Canonical t) : t.len ≤ Config.W := by
  obtain ⟨-, hlen⟩ | ⟨-, hlen, hoff⟩ := h <;> omega

/-- The number of tokens against the symbols they cover (41_window_matcher.md R127). -/
theorem length_bounds_of_canonical (hcan : ∀ t ∈ ts, Canonical t) :
    ts.length ≤ (ts.map (fun t => t.len + 1)).sum ∧
      (ts.map (fun t => t.len + 1)).sum ≤ ts.length * (Config.W + 1) := by
  induction ts with
  | nil => simp
  | cons t ts ih =>
    obtain ⟨hlow, hhigh⟩ := ih fun u hu => hcan u (List.mem_cons_of_mem t hu)
    have hlen := (hcan t List.mem_cons_self).len_le
    simp only [List.map_cons, List.sum_cons, List.length_cons, Nat.succ_mul]
    omega

theorem coversPrefix_of_replay (hlen : s.nsym = s.sym.length) (hpos : s.pos ≤ s.nsym)
    (hcan : ∀ t ∈ ts, Canonical t) (hrep : replay [] ts = some (s.sym.take s.pos)) : CoversPrefix s ts := by
  have hsum : (ts.map (fun t => t.len + 1)).sum = s.pos := by
    obtain ⟨hl, -⟩ := replay_length hrep
    rw [List.length_take] at hl
    simp only [List.length_nil] at hl
    omega
  obtain ⟨hlow, hhigh⟩ := length_bounds_of_canonical hcan
  refine ⟨hsum, hlen, hrep, fun hend => ?_⟩
  rw [hsum, hend] at hlow hhigh
  exact ⟨hlow, hhigh⟩

/-- The form of `coversPrefix_of_replay` after the last MATCH step. -/
theorem coversPrefix_of_replay_whole (hlen : s.nsym = s.sym.length) (hend : s.pos = s.nsym)
    (hcan : ∀ t ∈ ts, Canonical t) (hrep : replay [] ts = some s.sym) : CoversPrefix s ts := by
  refine coversPrefix_of_replay hlen (Nat.le_of_eq hend) hcan ?_
  rw [hrep, hend, hlen, List.take_length]

/-- In DONE no stage is due, and the result is that of the command in CMD. -/
theorem Inv.encodeDone (h : Inv s) (hdone : s.status = .done) (hcmd : s.cmd = 1) : EncodeDone s := by
  obtain ⟨-, hout, hok⟩ := h
  have hst : s.stage = .idle := by
    by_contra hne
    obtain ⟨hbusy, -⟩ := hout.of_stage hne
    simp [hdone] at hbusy
  simp only [StageOk, hst] at hok
  obtain ⟨-, henc | ⟨hcmd', -⟩⟩ := hok hdone
  · exact henc
  · simp [hcmd] at hcmd'

end Sys2Proof.Machine
end

section
/-! The statements of the window matcher family (41_window_matcher.md). -/

namespace Sys2Proof.Machine

/-- Settles O26: the branch of the last symbol, which comes before the search. -/
theorem lastSymbolIsEmittedAsLiteral : Obligations.LastSymbolIsEmittedAsLiteral := by
  intro s x hpos hlast hx
  have hnext : s.pos + 1 = s.nsym := by omega
  refine (execMatcher_last hpos hlast hx).trans ?_
  rw [emitLiteral_eq hx, hnext]
  rfl

/-- Settles O27: a window without an equal symbol is a search without a hit. -/
theorem noCandidateEmitsLiteral : Obligations.NoCandidateEmitsLiteral := by
  intro s x hpos hx hnone
  refine (execMatcher_noCandidate hpos hx hnone).trans ?_
  rw [emitLiteral_eq (s := { s with lo := s.pos - Config.W, c := s.pos }) hx]
  rfl

/-- Settles O28: of the three ways MATCH goes on only the match has a candidate; its candidate is the oldest one, and
its length the least that fails a condition of MATCH.EXTEND. -/
theorem oldestCandidateIsMatchedGreedily : Obligations.OldestCandidateIsMatchedGreedily := by
  intro s x cand hlen hpos hx hlo hcand hcx hleast
  obtain ⟨hlast, -⟩ | ⟨-, hnone, -⟩ |
    ⟨c, ml, y, -, hclo, hc, hceq, hcleast, h1, -, -, hext, hstop, hy, he⟩ := execMatcher_cases hlen (by omega)
  · omega
  · exact absurd (hcx.trans hx.symm) (hnone cand hlo hcand)
  · rw [hx] at hceq hcleast
    obtain rfl : c = cand := Nat.le_antisymm
      (Nat.le_of_not_lt fun hlt => hcleast cand hlo hlt hcx) (Nat.le_of_not_lt fun hlt => hleast c hclo hlt hceq)
    refine ⟨ml, y, _, h1, fun k hk hk' => (canExtend_iff_of_whole hlen).mp (hext k hk hk'), ?_, hy, he, rfl⟩
    rw [← canExtend_iff_of_whole hlen, hstop]
    simp

/-- Settles O29: by the three ways MATCH goes on, a literal or a match inside the window and before the last
symbol. -/
theorem emittedTokenBounds : Obligations.EmittedTokenBounds := by
  intro s hlen hpos
  obtain ⟨-, he⟩ | ⟨-, -, he⟩ | ⟨c, ml, y, hpos', hclo, hc, -, -, h1, hml, hend, -, -, -, he⟩ :=
    execMatcher_cases hlen hpos
  · exact ⟨_, ⟨0, 0, _⟩, he, rfl, .inl ⟨rfl, rfl⟩, rfl, hpos⟩
  · exact ⟨_, ⟨0, 0, _⟩, he, rfl, .inl ⟨rfl, rfl⟩, rfl, hpos⟩
  · have hwindow : s.pos - c ≤ 4000 := by
      unfold Config.W at hclo
      omega
    refine ⟨_, ⟨s.pos - c, ml, y⟩, he, rfl, .inr ⟨?_, hwindow, ?_, h1, hml, ?_⟩, rfl, ?_⟩
    · exact Nat.sub_pos_of_lt hc
    · exact Nat.sub_le _ _
    · exact Nat.le_sub_of_add_le' hend
    · rw [emitMatch_pos]
      dsimp only
      omega

/-- Settles O30, by `camSearch_eq_search`. -/
theorem contentAddressedSearchEqualsScan : Obligations.ContentAddressedSearchEqualsScan :=
  fun _ _ _ _ hwf _ hwin => camSearch_eq_search hwf hwin

/-- Settles O32: in each of the three stages the invariant speaks of tokens that replay to `SYM[0 .. pos)`. -/
theorem emittedTokensCoverInput : Obligations.EmittedTokensCoverInput := by
  intro s hinv
  have ⟨_, _, hok⟩ := hinv
  refine ⟨fun hst => ?_, fun hst => ?_, fun hdone hcmd => ?_⟩
  · simp only [StageOk, hst] at hok
    obtain ⟨⟨-, -, hlen⟩, hpos, -, -, -, hcan, hrep⟩ := hok
    exact coversPrefix_of_replay hlen hpos hcan hrep
  · simp only [StageOk, hst] at hok
    obtain ⟨⟨-, -, hlen⟩, hend, written, hwcnt, hobuf, hcan, hrep⟩ := hok
    exact ⟨hend, written, hwcnt, hobuf, coversPrefix_of_replay_whole hlen hend hcan hrep⟩
  · obtain ⟨-, hend, hlen, -, written, hcan, hrep, hwcnt, hout, hobuf⟩ := hinv.encodeDone hdone hcmd
    refine ⟨hend, written, ?_, hobuf, coversPrefix_of_replay_whole hlen hend hcan hrep⟩
    rw [hout, hwcnt, Config.TRIPLE]
    omega

/-- Settles O35: MATCH looks at `pos` first, and TOKSER at the queue. -/
theorem finishedLoopsChangeNothing : Obligations.FinishedLoopsChangeNothing := by
  refine fun s => ⟨execMatcher_finished, fun hq => ?_⟩
  obtain ⟨-, he⟩ | ⟨tok, rest, hcons, -⟩ | ⟨tok, rest, hcons, -⟩ := execTokser_cases s
  · exact he
  · simp [hq] at hcons
  · simp [hq] at hcons

end Sys2Proof.Machine
end

section
/-! The token codec (42_token_codec.md R140 to R147): the six bytes of a token, TOKSER and TOKDES by their branches, and
the container as the inverse of ingestion and grouping. -/

namespace Sys2Proof.Machine

/-! ### TOKSER -/

theorem hiByte_eq_ofNat (v : Symbol) : hiByte v = BitVec.ofNat 8 (v.toNat / 256) := by
  apply BitVec.eq_of_toNat_eq
  simp [hiByte, Nat.shiftRight_eq_div_pow]

theorem loByte_eq_ofNat (v : Symbol) : loByte v = BitVec.ofNat 8 (v.toNat % 256) := by
  apply BitVec.eq_of_toNat_eq
  simp [loByte]

theorem fitsWord_iff {v : Nat} : fitsWord v = true ↔ v ≤ 65535 := decide_eq_true_iff

/-- The layout of a token that fits, byte by byte (30_encoding.md R82). -/
theorem packToken_eq {tok : Token} (hoff : tok.off ≤ 65535) (hlen : tok.len ≤ 65535) :
    packToken tok =
      [BitVec.ofNat 8 (tok.off / 256), BitVec.ofNat 8 (tok.off % 256),
       BitVec.ofNat 8 (tok.len / 256), BitVec.ofNat 8 (tok.len % 256),
       BitVec.ofNat 8 (tok.lit.toNat / 256), BitVec.ofNat 8 (tok.lit.toNat % 256)] := by
  simp only [packToken, tokenBytes, wordBytes, hiByte_eq_ofNat, loByte_eq_ofNat,
    fieldWord_toNat (fitsWord_iff.mpr hoff), fieldWord_toNat (fitsWord_iff.mpr hlen), List.cons_append,
    List.nil_append]

theorem Memory_read_writeList_add (mem : Memory) (base : Nat) (bs : List Byte) {j : Nat} (h : j < bs.length) :
    Memory.read (Memory.writeList mem base bs) (base + j) = bs[j]? := by
  rw [Memory_read_writeList, if_pos (by omega), Nat.add_sub_cancel_left]

/-- TOKSER on a token with a field that no word holds (42_token_codec.md R141). -/
theorem execTokser_raise {s : State} {tok : Token} {rest : List Token} (hq : s.tokq = tok :: rest)
    (hwide : 65535 < tok.off ∨ 65535 < tok.len) : execTokser s = .next (raise .encodingOverflow s) := by
  have hfit : ¬ (fitsWord tok.off = true ∧ fitsWord tok.len = true) := by
    rw [fitsWord_iff, fitsWord_iff]
    omega
  simp only [execTokser, hq, Bool.and_eq_true, if_neg hfit]

/-- Settles O33: TOKSER is one list write of the six bytes that `packToken_eq` names. -/
theorem tokserAppendsSixBytes : Obligations.TokserAppendsSixBytes := by
  intro s tok rest hq hoff hlen
  refine ⟨_, execTokser_next hq (fitsWord_iff.mpr hoff) (fitsWord_iff.mpr hlen), rfl, ?_⟩
  have hread {j : Nat} (hj : j < 6) :=
    (Memory_read_writeList_add s.obuf (2 * s.wcnt) (packToken tok) hj).trans
      (congrArg (·[j]?) (packToken_eq hoff hlen))
  refine ⟨hread (j := 0) (by decide), hread (j := 1) (by decide), hread (j := 2) (by decide),
    hread (j := 3) (by decide), hread (j := 4) (by decide), hread (j := 5) (by decide), fun a ha => ?_, fun _ => rfl⟩
  rw [Memory_read_writeList, if_neg (by rw [packToken_length]; omega)]

/-- Settles O34: the range check of both fields comes before any write. -/
theorem tokserRejectsWideFields : Obligations.TokserRejectsWideFields :=
  fun _ _ _ hq => ⟨execTokser_raise hq, fun hoff hlen =>
    ⟨_, execTokser_next hq (fitsWord_iff.mpr hoff) (fitsWord_iff.mpr hlen), rfl, rfl, rfl⟩⟩

/-! ### TOKDES -/

theorem ingestWords_nwords_eq (s : State) : (ingestWords s).nwords = (s.opLen + 1) / 2 := by
  rw [ingestWords_nwords, symbolsOf_length, inputBytes_length]

/-- The length check in bytes: whole tokens, or the last one short of its padded byte (42_token_codec.md R145). -/
theorem ingestWords_nwords_mod_iff (s : State) :
    (ingestWords s).nwords % 3 = 0 ↔ s.opLen % 6 = 0 ∨ s.opLen % 6 = 5 := by
  rw [ingestWords_nwords_eq]
  omega

/-- TOKDES ingests before it checks (42_token_codec.md R143, R145). -/
theorem execTokdes_sym_eq {s t : State} (h : execTokdes s = .next t) : t.sym = symbolsOf (inputBytes s) := by
  obtain ⟨-, he⟩ | ⟨-, he⟩ := execTokdes_cases s
  · cases he.symm.trans h
    rfl
  · cases he.symm.trans h
    rfl

/-- Settles O36: both ways TOKDES goes on keep the ingested words, and the word count tells which one it is. -/
theorem tokdesIngestsThenChecksLength : Obligations.TokdesIngestsThenChecksLength := by
  intro s
  obtain ⟨hmod, he⟩ | ⟨hmod, he⟩ := execTokdes_cases s
  · exact ⟨_, he, ingestWords_nwords_eq s, rfl, fun _ => symbolsOf_inputBytes_pair,
      fun _ => symbolsOf_inputBytes_last, fun _ => ⟨rfl, hmod⟩,
      fun hbad => absurd ((ingestWords_nwords_mod_iff s).mp hmod) hbad⟩
  · exact ⟨_, he, ingestWords_nwords_eq s, rfl, fun _ => symbolsOf_inputBytes_pair,
      fun _ => symbolsOf_inputBytes_last, fun hgood => absurd ((ingestWords_nwords_mod_iff s).mpr hgood) hmod,
      fun _ => ⟨rfl, hmod⟩⟩

/-! ### The container -/

theorem tokensOf_symbolsOf_containerOf {ts : List Token} (hfit : ∀ t ∈ ts, t.off ≤ 65535 ∧ t.len ≤ 65535) :
    tokensOf (symbolsOf (containerOf ts)) = ts := by
  induction ts with
  | nil => rfl
  | cons t ts ih =>
    obtain ⟨⟨hoff, hlen⟩, hrest⟩ := List.forall_mem_cons.mp hfit
    rw [containerOf_cons, symbolsOf_packToken_append, tokensOf, ih hrest,
      fieldWord_toNat (fitsWord_iff.mpr hoff), fieldWord_toNat (fitsWord_iff.mpr hlen)]

/-- Settles O37, token by token. -/
theorem containerGivesTokensBack : Obligations.ContainerGivesTokensBack :=
  fun ts hfit => ⟨tokensOf_symbolsOf_containerOf hfit, containerOf_length ts⟩

end Sys2Proof.Machine
end

section
/-! The course of a DECODE: what holds from its acceptance on, as long as the host does nothing, and what DONE then
says of its container (45_operations.md R203). -/

namespace Sys2Proof.Machine

/-! ### What an operation in progress keeps -/

/-- What a property kept by every step is worth after any number of them. -/
theorem runSteps_keeps {P : State → Prop} (hstep : ∀ {s t}, P s → step s = .next t → P t) {k : Nat}
    {s t : State} (h : P s) (ht : runSteps k s = .next t) : P t := by
  induction k generalizing s with
  | zero =>
    cases ht
    exact h
  | succ k ih =>
    simp only [runSteps] at ht
    cases hs : step s with
    | next u =>
      rw [hs] at ht
      exact ih (hstep h hs) ht
    | fault r =>
      rw [hs] at ht
      cases ht
    | refused r =>
      rw [hs] at ht
      cases ht

theorem isToken_classify (off len lit : Symbol) : isToken (classify off len lit) = true := by
  unfold classify
  split <;> split <;> rfl

variable {s t : State} {i : Instr}

/-- While BUSY no instruction touches the host's actions, the command in progress or its input. -/
theorem Effect.operation_eq (h : Effect s i t) (hb : s.status = .busy) :
    t.inbox = s.inbox ∧ t.cmd = s.cmd ∧ inputBytes t = inputBytes s := by
  cases h with
  | appended _ ha =>
    obtain ⟨_, _, _, _, _, _, rfl⟩ := ha.exists_eq
    exact ⟨rfl, rfl, rfl⟩
  | encodeAccepted hn | decodeAccepted hn => exact absurd hb hn
  | _ => exact ⟨rfl, rfl, rfl⟩

theorem EngineStep.operation_eq (h : EngineStep s t) (hb : s.status = .busy) :
    t.inbox = s.inbox ∧ t.cmd = s.cmd ∧ inputBytes t = inputBytes s := by
  cases h with
  | stageOnly | encodeDone | decodeDone => exact ⟨rfl, rfl, rfl⟩
  | ran he => exact (exec_effect he).operation_eq hb
  | token he => exact (exec_effect he).operation_eq hb

theorem sym_eq_of_thenStage {st : Stage} (ht : thenStage st (exec i s) = .next t) (h₁ : i ≠ .symrd)
    (h₂ : i ≠ .tokdes) (h₃ : i ≠ .encode) (h₄ : i ≠ .decode) : t.sym = s.sym := by
  obtain ⟨u, st', hu, rfl⟩ := thenStage_eq_next ht
  exact (exec_effect hu).sym_eq h₁ h₂ h₃ h₄

theorem Effect.sym_eq_of_isToken (h : Effect s i t) (hi : isToken i = true) : t.sym = s.sym := by
  cases h with
  | appended _ ha =>
    obtain ⟨_, _, _, _, _, _, rfl⟩ := ha.exists_eq
    rfl
  | unchanged | badReference => rfl
  | _ => cases hi

theorem sym_eq_of_runToken (ht : runToken s = .next t) : t.sym = s.sym := by
  cases hq : s.tokq with
  | nil => simp [runToken, hq] at ht
  | cons tok rest => exact (exec_effect ((runToken_cons hq).symm.trans ht)).sym_eq_of_isToken (isToken_classify _ _ _)

/-! ### DECODE from acceptance on -/

/-- A DECODE of `input` in some stage or ended, with nothing further from the host: what holds before its stage holds,
and from ingestion on WORDS is the input in words. -/
structure Decoding (input : List Byte) (s : State) : Prop where
  inbox : s.inbox = []
  cmd : s.cmd = 2
  input_eq : inputBytes s = input
  words : s.stage ≠ .tokdes → s.sym = symbolsOf input
  ready : StageReady s

variable {input : List Byte}

/-- By the stage: DECODE has five, and the encoder's three are those of another command. -/
theorem Decoding.sym_and_ready (h : Decoding input s) (ht : engineStep s = .next t) :
    t.sym = symbolsOf input ∧ StageReady t := by
  have hready := h.ready
  have hwords (hst : s.stage ≠ .tokdes) {u : State} (hu : u.sym = s.sym) : u.sym = symbolsOf input :=
    hu.trans (h.words hst)
  have ⟨_, hok⟩ := hready
  cases hst : s.stage with
  | idle =>
    cases (engineStep_idle hst).symm.trans ht
    exact ⟨hwords (by simp [hst]) rfl, hready⟩
  | symrd | matching | serializing => simp [StageOk, SymbolsIn, hst, h.cmd] at hok
  | tokdes =>
    refine ⟨?_, tokdes_keeps_ready hst hready ht⟩
    obtain ⟨u, st', hu, rfl⟩ := thenStage_eq_next ((engineStep_tokdes hst).symm.trans ht)
    exact (execTokdes_sym_eq hu).trans (congrArg symbolsOf h.input_eq)
  | degroup =>
    have hrun := (engineStep_degroup hst).symm.trans ht
    refine ⟨hwords (by simp [hst]) ?_, degroup_keeps_ready hst hready ht⟩
    exact sym_eq_of_thenStage hrun (by simp) (by simp) (by simp) (by simp)
  | reconstruct =>
    refine ⟨hwords (by simp [hst]) ?_, reconstruct_keeps_ready hst hready ht⟩
    rw [engineStep_reconstruct hst] at ht
    split at ht
    · exact sym_eq_of_runToken ht
    · cases ht
      rfl
  | symwr =>
    have hrun := (engineStep_symwr hst).symm.trans ht
    refine ⟨hwords (by simp [hst]) ?_, symwr_keeps_ready hst hready ht⟩
    exact sym_eq_of_thenStage hrun (by simp) (by simp) (by simp) (by simp)
  | closing =>
    refine ⟨hwords (by simp [hst]) ?_, closing_keeps_ready hst hready ht⟩
    cases (engineStep_closing hst).symm.trans ht
    rfl

/-- A step of the machine is the engine's, and goes on with the same command. -/
theorem Decoding.of_step (h : Decoding input s) (ht : step s = .next t) : Decoding input t := by
  rw [step_of_inbox_nil h.inbox] at ht
  by_cases hst : s.stage = .idle
  · cases (engineStep_idle hst).symm.trans ht
    exact h
  · obtain ⟨hout, -⟩ := h.ready
    obtain ⟨hbusy, -⟩ := hout.of_stage hst
    obtain ⟨hinbox, hcmd, hinput⟩ := (engineStep_eq_next ht).operation_eq hbusy
    obtain ⟨hsym, hready⟩ := h.sym_and_ready ht
    exact ⟨hinbox.trans h.inbox, hcmd.trans h.cmd, hinput.trans h.input_eq, fun _ => hsym, hready⟩

/-- A DECODE that reached DONE holds the symbols its container replays to. -/
theorem Decoding.replay_of_done (h : Decoding input s) (hdone : s.status = .done) :
    replay [] (tokensOf (symbolsOf input)) = some s.outs := by
  obtain ⟨⟨hbusy, -⟩, hok⟩ := h.ready
  have hst : s.stage = .idle := by simpa [hdone] using hbusy
  simp only [StageOk, hst] at hok
  obtain ⟨-, ⟨hcmd, -⟩ | ⟨-, -, -, -, -, hrep, -⟩⟩ := hok hdone
  · simp [h.cmd] at hcmd
  · rw [← h.words (by simp [hst]), hrep]

/-! ### The command as the host gives it -/

theorem step_hostCommand_decode {odd : BitVec 1} (hb : s.status ≠ .busy) :
    step (hostCommand 2 input odd s) = .next (acceptDecode (hostSetup input odd s)) :=
  (step_of_inbox_cons (a := .writeCmd 2) (rest := []) rfl).trans
    (execDecode_accepted (s := hostSetup input odd s) hb)

theorem decoding_acceptDecode (input : List Byte) (odd : BitVec 1) (s : State) :
    Decoding input (acceptDecode (hostSetup input odd s)) where
  inbox := rfl
  cmd := rfl
  input_eq := inputBytes_of_writeList rfl rfl
  words h := absurd rfl h
  ready := acceptDecode_ok _

/-- The container of a DECODE that reaches DONE replays, to the symbols DECODE ends with. -/
theorem replay_of_decode_done {odd : BitVec 1} {j : Nat} (hb : s.status ≠ .busy) (hj : 1 ≤ j)
    (ht : runSteps j (hostCommand 2 input odd s) = .next t) (hdone : t.status = .done) :
    replay [] (tokensOf (symbolsOf input)) = some t.outs := by
  obtain ⟨k, rfl⟩ := Nat.exists_eq_add_of_le' hj
  rw [runSteps_succ k (step_hostCommand_decode hb)] at ht
  exact (runSteps_keeps Decoding.of_step (decoding_acceptDecode input odd s) ht).replay_of_done hdone

end Sys2Proof.Machine
end

section
/-! A container cut at a token boundary (42_token_codec.md R147). -/

namespace Sys2Proof.Machine

/-- The first tokens of a stream that replays do so too, to a prefix of its symbols. -/
theorem replay_take {outs o : List Symbol} {ts : List Token} (h : replay outs ts = some o) (k : Nat) :
    ∃ o', replay outs (ts.take k) = some o' ∧ o' <+: o := by
  rw [← List.take_append_drop k ts, replay_append] at h
  obtain ⟨o', htake, hdrop⟩ := Option.bind_eq_some_iff.mp h
  exact ⟨o', htake, (replay_length hdrop).2⟩

theorem bytesOf_prefix {xs ys : List Symbol} (h : xs <+: ys) : bytesOf xs <+: bytesOf ys := by
  obtain ⟨zs, rfl⟩ := h
  rw [bytesOf_append]
  exact List.prefix_append _ _

theorem symbolsOf_cut_length {input : List Byte} {k : Nat} (hk : 6 * k ≤ input.length) :
    (symbolsOf (input.take (6 * k))).length = 3 * k := by
  rw [symbolsOf_length, List.length_take_of_le hk]
  omega

theorem tokensOf_symbolsOf_cut (input : List Byte) (k : Nat) :
    tokensOf (symbolsOf (input.take (6 * k))) = (tokensOf (symbolsOf input)).take k := by
  rw [show 6 * k = 2 * (3 * k) by omega, symbolsOf_take, tokensOf_take]

/-- Settles O60: a container that decodes replays, so its first `k` tokens replay to a prefix, and DECODE runs on any
container of whole tokens that replays. -/
theorem containerCutAtTokenDecodesToPrefix : Obligations.ContainerCutAtTokenDecodesToPrefix := by
  intro s t input odd odd' j k hb hj ht hdone hk hcut
  obtain ⟨outs, hrep, hpre⟩ := replay_take (replay_of_decode_done hb hj ht hdone) k
  rw [← tokensOf_symbolsOf_cut] at hrep
  have hlen := symbolsOf_cut_length hcut
  obtain ⟨t', hrun, hdone', herr, -, -, htpc, rfl, hout, hobuf⟩ := decode_run (odd := odd') hb
    (by omega) (List.ne_nil_of_length_pos (by omega)) hrep
  have hbound : t'.outLen ≤ (bytesOf t'.outs).length := by
    rw [hout, bytesOf_length]
    exact Nat.sub_le _ _
  refine ⟨_, t', Nat.le_add_left_of_le (by decide), hrun, hdone', herr, by omega, hpre, hout, ?_⟩
  rw [resultBytes_of_holds hdone' hobuf hbound]
  exact (List.take_prefix _ _).trans (bytesOf_prefix hpre)

end Sys2Proof.Machine
end

section
/-! The degrouper (43_degrouper.md R160 to R168): the triples and the lane count by the laws of DEGROUP, the empty
stream, and the merge with a lane missing. -/

namespace Sys2Proof.Machine

/-! ### DEGROUP -/

/-- Settles O38: TOKQ is `tokensOf` of the words, read at token `k`. -/
theorem degroupMakesTriples : Obligations.DegroupMakesTriples := by
  intro s hm hwords
  refine ⟨_, execDegroup_next hm hwords, rfl, ?_, ?_⟩
  · show (tokensOf s.sym).length = s.m
    rw [tokensOf_length, hwords, Nat.mul_div_cancel_left _ (by decide)]
  · intro k a b c hk ha hb hc
    obtain ⟨-, rfl⟩ := List.getElem?_eq_some_iff.mp ha
    obtain ⟨-, rfl⟩ := List.getElem?_eq_some_iff.mp hb
    obtain ⟨hlast, rfl⟩ := List.getElem?_eq_some_iff.mp hc
    exact tokensOf_getElem s.sym k hlast

/-- The test on `m` comes before any lane starts (43_degrouper.md R161). -/
theorem execDegroup_raise {s : State} (hm : s.m = 0) : execDegroup s = .next (raise .irregularTokenStream s) :=
  if_pos hm

/-- Settles O39: an empty stream is a raise, which writes these four fields. -/
theorem degroupOfNothingRaises : Obligations.DegroupOfNothingRaises := fun _ => execDegroup_raise

/-! ### The lanes -/

/-- Settles O40: the search from the cap down answers a divisor, and no number above its answer divides `m`. -/
theorem laneCountIsLargestDivisor : Obligations.LaneCountIsLargestDivisor := by
  intro m _
  obtain ⟨hpos, hcap, hdvd, hmax⟩ := largestDivisorUpTo_spec m Config.LANECAP (by decide)
  exact ⟨hpos, hcap, hdvd, fun d _ hd hmod => Nat.le_of_not_lt fun hlt => hmax d hd hlt hmod⟩

/-- Settles O41: once every lane has completed, the merge by index gives the sequential grouping, and a single lane is
the case of one. -/
theorem lanesAndTheirOrderDoNotMatter : Obligations.LanesAndTheirOrderDoNotMatter := by
  intro words m lanes completion hwords hlanes hdvd hperm
  have hsingle : degroupWith words m 1 [0] = some (tokensOf words) :=
    degroupWith_eq hwords (Nat.le_refl 1) (Nat.mod_one m)
      fun _ hq => List.mem_singleton.mpr (Nat.lt_one_iff.mp hq)
  have hall : degroupWith words m lanes completion = some (tokensOf words) :=
    degroupWith_eq hwords hlanes hdvd fun _ hq => hperm.mem_iff.mpr (List.mem_range.mpr hq)
  exact ⟨hall.trans hsingle.symm, hsingle⟩

/-- The slot of a lane that has not completed is empty. -/
theorem laneSlot_runLanes_eq_none {completion : List Nat} {q : Nat} (hq : q ∉ completion) (words : List Symbol)
    (len perLane : Nat) : laneSlot (runLanes words len completion) perLane q = none := by
  have hfind : (runLanes words len completion).find? (fun e => e.1 == q) = none := by
    rw [List.find?_eq_none]
    intro e he
    obtain ⟨p, hp, rfl⟩ := List.mem_map.mp he
    have hne : p ≠ q := fun h => hq (h ▸ hp)
    simpa using hne
  simp only [laneSlot, hfind]

/-- One empty slot among those merged is enough (43_degrouper.md R167). -/
theorem mergeLanes_eq_none {slots : List (Nat × List Token)} {perLane q : Nat}
    (hslot : laneSlot slots perLane q = none) {count first : Nat} (hfirst : first ≤ q) (hlast : q < first + count) :
    mergeLanes slots perLane first count = none := by
  induction count generalizing first with
  | zero => omega
  | succ count ih =>
    rcases Nat.eq_or_lt_of_le hfirst with rfl | hlt
    · simp only [mergeLanes, hslot]
    · simp only [mergeLanes, ih hlt (by omega)]
      cases laneSlot slots perLane first <;> rfl

/-- Settles O42: the merge passes every lane, and that of the missing one is empty. -/
theorem missingLaneAbortsMerge : Obligations.MissingLaneAbortsMerge :=
  fun words _ lanes _ _ hlane hq =>
    mergeLanes_eq_none (laneSlot_runLanes_eq_none hq words _ _) (Nat.zero_le _) (by rwa [Nat.zero_add])

end Sys2Proof.Machine
end

section
/-! The statements of the reconstructor (44_reconstructor.md R175 to R187): a token class by class through the laws of
the copy branch, and the copied symbols read from the period they repeat. -/

namespace Sys2Proof.Machine

/-! ### The offset check -/

section
variable {d l x : Symbol} {s : State}

theorem one_le_toNat_of_ne_zero {v : Symbol} (h : v ≠ 0) : 1 ≤ v.toNat :=
  Nat.one_le_iff_ne_zero.mpr (mt (toNat_eq_zero_iff v).mp h)

/-- A COPY has an offset (30_encoding.md R86). -/
theorem one_le_offset_of_copy_wf (h : (Instr.copy d l x).wf = true) : 1 ≤ d.toNat := by
  simp only [Instr.wf, Bool.and_eq_true, bne_iff_ne] at h
  exact one_le_toNat_of_ne_zero h.1

/-- So has an RSVL0 (30_encoding.md R86). -/
theorem one_le_offset_of_rsvl0_wf (h : (Instr.rsvl0 d x).wf = true) : 1 ≤ d.toNat :=
  one_le_toNat_of_ne_zero (bne_iff_ne.mp h)

theorem exec_copy_raise (h : s.n < d.toNat) : exec (.copy d l x) s = .next (raise .invalidBackReference s) :=
  copyBranch_raise d l x h

theorem exec_rsvl0_raise (h : s.n < d.toNat) : exec (.rsvl0 d x) s = .next (raise .invalidBackReference s) :=
  copyBranch_raise d 0 x h

theorem exec_rsv0 (l x : Symbol) (s : State) : exec (.rsv0 l x) s = .next (raise .invalidBackReference s) := rfl

/-- With no copies to make the loop reads nothing, so it needs nothing of OUTS. -/
theorem exec_rsvl0_next (h : d.toNat ≤ s.n) :
    exec (.rsvl0 d x) s = .next (finishToken x { s with start := s.n - d.toNat, i := 0 }) :=
  if_neg (Nat.not_lt.mpr h)

end

/-! ### The copied symbols -/

section
variable {outs rest : List Symbol} {d k len : Nat}

/-- The `k`-th symbol that a copy from distance `d` appends is the one at `k mod d` of the last `d` symbols
(44_reconstructor.md R181). -/
theorem getElem?_copied (hd : 1 ≤ d) (hn : d ≤ outs.length) (hk : k < len) :
    (outs ++ cyclic (outs.drop (outs.length - d)) len ++ rest)[outs.length + k]? =
      outs[outs.length - d + k % d]? := by
  have hperiod : (outs.drop (outs.length - d)).length = d := by
    rw [List.length_drop, Nat.sub_sub_self hn]
  have hmod : k % d < d := Nat.mod_lt _ hd
  rw [List.append_assoc, List.getElem?_append_right (by omega), Nat.add_sub_cancel_left,
    List.getElem?_append_left (by simpa using hk), cyclic_getElem? _ _ _ hk, hperiod,
    List.getD_eq_getElem _ _ (by omega), ← List.getElem?_eq_getElem, List.getElem?_drop]

/-- The symbol `d` behind the `k`-th copied one, whether it stood in the buffer or has been copied itself
(44_reconstructor.md R179, 20_memory.md R68). -/
theorem getElem?_behind_copied (hd : 1 ≤ d) (hn : d ≤ outs.length) (hk : k < len) :
    (outs ++ cyclic (outs.drop (outs.length - d)) len ++ rest)[outs.length - d + k]? =
      outs[outs.length - d + k % d]? := by
  rcases Nat.lt_or_ge k d with hkd | hdk
  · rw [List.append_assoc, List.getElem?_append_left (by omega), Nat.mod_eq_of_lt hkd]
  · rw [show outs.length - d + k = outs.length + (k - d) by omega, getElem?_copied hd hn (by omega),
      ← Nat.mod_eq_sub_mod hdk]

end

/-- A period of one symbol repeats it. -/
theorem cyclic_singleton (a : Symbol) (len : Nat) : cyclic [a] len = List.replicate len a := by
  simp [cyclic, Nat.mod_one, List.map_const']

/-! ### The statements -/

/-- Settles O6. The head token's bytes decode to its classified fields, which is what the fetch runs. -/
theorem stepRunsQueuedToken : Obligations.StepRunsQueuedToken := by
  intro s t rest i hin hst htpc hq hdec
  rw [packToken, decode_tokenBytes] at hdec
  cases hdec
  rw [step_of_inbox_nil hin, engineStep_reconstruct hst, if_pos htpc, runToken_cons hq]
  rfl

/-- Settles O12: any offset of a well-formed token is beyond a cursor at 0. -/
theorem litAppendsLiteral : Obligations.LitAppendsLiteral := by
  refine ⟨fun _ _ => rfl, fun d l x s hn => ⟨fun hwf => exec_copy_raise ?_, fun hwf => exec_rsvl0_raise ?_,
    exec_rsv0 l x s⟩⟩
  · exact hn ▸ one_le_offset_of_copy_wf hwf
  · exact hn ▸ one_le_offset_of_rsvl0_wf hwf

/-- Settles O13, from the closed form of the copy branch: both descriptions of a copied symbol name the same symbol
of the period. -/
theorem copyAppendsPeriodThenLiteral : Obligations.CopyAppendsPeriodThenLiteral := by
  intro d l x s hwf hlen hn
  have hd := one_le_offset_of_copy_wf hwf
  obtain ⟨hist, hrun, -, -⟩ := copyBranch_next d l x hlen hd hn
  rw [← hlen] at hn
  refine ⟨_, hrun, rfl, ?_, ⟨_, (List.append_assoc _ _ _).symm⟩, fun k hk => ?_, fun k hk => ?_, ?_⟩
  · simp [hlen, Nat.add_assoc]
  · rw [← hlen]
    exact (getElem?_copied hd hn hk).trans (getElem?_behind_copied hd hn hk).symm
  · rw [← hlen]
    exact getElem?_copied hd hn hk
  · simp [← hlen]

/-- Settles O14: the two branches of the offset check. -/
theorem copyOffsetIsCheckedAgainstCursor : Obligations.CopyOffsetIsCheckedAgainstCursor := by
  refine fun d l x s hwf => ⟨exec_copy_raise, fun hn hlen => ?_⟩
  obtain ⟨hist, hrun, -, -⟩ := copyBranch_next d l x hlen (one_le_offset_of_copy_wf hwf) hn
  exact ⟨_, hrun, rfl, rfl, rfl⟩

/-- Settles O15: at distance 1 the period is the last symbol alone. -/
theorem copyOfDistanceOneRepeatsSymbol : Obligations.CopyOfDistanceOneRepeatsSymbol := by
  intro l x a before s houts hlen
  have hn : 1 ≤ s.n := by simp [← hlen, houts]
  obtain ⟨hist, hrun, -, -⟩ := copyBranch_next 1 l x hlen (Nat.le_refl 1) hn
  have hperiod : s.outs.drop (s.outs.length - (1 : Symbol).toNat) = [a] := by simp [houts]
  refine ⟨_, hrun, ?_⟩
  show s.outs ++ cyclic (s.outs.drop (s.outs.length - (1 : Symbol).toNat)) l.toNat ++ [x] = _
  rw [hperiod, cyclic_singleton, houts, List.append_assoc before, List.singleton_append, List.replicate_succ]

/-- Settles O16: `raise` writes these four fields. -/
theorem reservedZeroOffsetRaises : Obligations.ReservedZeroOffsetRaises := exec_rsv0

/-- Settles O17: the two branches of the offset check, with zero copies. -/
theorem reservedZeroLengthChecksAndAppends : Obligations.ReservedZeroLengthChecksAndAppends :=
  fun _ _ _ _ => ⟨exec_rsvl0_raise, fun hn => ⟨_, exec_rsvl0_next hn, rfl⟩⟩

end Sys2Proof.Machine
end

section
/-! Stages and commands as steps (45_operations.md R201, R203, R207): the equations of the engine's step by stage, and
what the write of a command value does. -/

namespace Sys2Proof.Machine

/-- Settles O9: the equations of the engine's step, stage by stage. -/
theorem stagesRunInOrder : Obligations.StagesRunInOrder := by
  intro s hin
  rw [step_of_inbox_nil hin]
  refine ⟨engineStep_symrd, fun hst hpos => (engineStep_matching hst).trans (if_pos hpos),
    fun hst hend => (engineStep_matching hst).trans (if_neg (Nat.not_lt.mpr hend)), fun hst hq => ?_,
    engineStep_tokdes, engineStep_degroup,
    fun hst hend => (engineStep_reconstruct hst).trans (if_neg (Nat.not_lt.mpr hend)), engineStep_symwr⟩
  obtain ⟨tok, rest, hq⟩ := List.exists_cons_of_ne_nil hq
  exact engineStep_serializing_cons hst hq

/-- Settles O10: the last step of each operation is its completion. -/
theorem completionWritesResultRegisters : Obligations.CompletionWritesResultRegisters := by
  intro s hin
  rw [step_of_inbox_nil hin]
  exact ⟨engineStep_serializing_nil, engineStep_closing⟩

/-- While BUSY every command value is ignored (45_operations.md R207). -/
theorem exec_decodeCommand_busy {s : State} (code : BitVec 2) (hb : s.status = .busy) :
    exec (decodeCommand code) s = .next s := by
  unfold decodeCommand
  split
  · exact execEncode_busy hb
  · split
    · exact execDecode_busy hb
    · rfl

/-- Settles O22: the host's write of CMD is the execution of the decoded command, which is accepted or ignored. -/
theorem commandAcceptedOrIgnored : Obligations.CommandAcceptedOrIgnored := by
  refine ⟨fun _ _ _ => rfl, fun s code rest hin => ?_⟩
  rw [step_of_inbox_cons hin]
  refine ⟨?_, ?_, fun hb => exec_decodeCommand_busy code hb, ?_⟩
  · rintro rfl hb -
    exact ⟨_, execEncode_accepted (s := { s with inbox := rest }) hb, rfl, rfl, rfl⟩
  · rintro rfl hb -
    exact ⟨_, execDecode_accepted (s := { s with inbox := rest }) hb, rfl, rfl, rfl⟩
  · rintro (rfl | rfl)
    · rfl
    · rfl

end Sys2Proof.Machine
end

section
/-! An operation with nothing further from the host (70_reset_and_hazards.md R278): each of its steps has a next state,
keeps what holds before the stages, and comes closer to the end. -/

namespace Sys2Proof.Machine

variable {s t : State}

/-- MATCH before the end of SYM emits one token and covers at least one symbol (41_window_matcher.md R110). -/
theorem execMatcher_progress (hlen : s.nsym = s.sym.length) (hpos : s.pos < s.nsym) :
    ∃ t, execMatcher s = .next t ∧ t.stage = s.stage ∧ t.nsym = s.nsym ∧ s.pos < t.pos ∧
      t.tokq.length = s.tokq.length + 1 := by
  obtain ⟨-, he⟩ | ⟨-, -, he⟩ | ⟨c, ml, y, -, -, -, -, -, -, -, -, -, -, -, he⟩ := execMatcher_cases hlen hpos
  · exact ⟨_, he, rfl, rfl, Nat.lt_succ_self _, by simp [emitLiteral]⟩
  · exact ⟨_, he, rfl, rfl, Nat.lt_succ_self _, by simp [emitLiteral]⟩
  · exact ⟨_, he, rfl, rfl, Nat.lt_add_of_pos_right (Nat.succ_pos ml), by simp [emitMatch]⟩

/-- A bound on the steps to the end of the operation. A MATCH step takes at least one symbol and makes one token,
which takes one TOKSER step. -/
def stepsLeft (s : State) : Nat :=
  match s.stage with
  | .idle => 0
  | .symrd => 2 * (symbolsOf (inputBytes s)).length + 3
  | .matching => 2 * (s.nsym - s.pos) + s.tokq.length + 2
  | .serializing => s.tokq.length + 1
  | .tokdes => (symbolsOf (inputBytes s)).length / 3 + 5
  | .degroup => s.m + 4
  | .reconstruct => s.m - s.tpc + 3
  | .symwr => 2
  | .closing => 1

/-- In a stage the engine has a next state, with fewer steps left. -/
theorem StageReady.engineStep_progress (h : StageReady s) (hst : s.stage ≠ .idle) :
    ∃ t, engineStep s = .next t ∧ stepsLeft t < stepsLeft s := by
  obtain ⟨hout, hok⟩ := h
  obtain ⟨hb, -⟩ := hout.of_stage hst
  have hok' := hok
  unfold StageOk at hok'
  cases hstage : s.stage with
  | idle => exact absurd hstage hst
  | symrd =>
    simp only [hstage] at hok'
    obtain ⟨-, -, hq, hpos, -⟩ := hok'
    refine ⟨_, (engineStep_symrd hstage).trans (thenStage_of rfl hb), ?_⟩
    simp [stepsLeft, hstage, hq, hpos]
  | matching =>
    simp only [hstage] at hok'
    obtain ⟨⟨-, -, hlen⟩, -⟩ := hok'
    rw [engineStep_matching hstage]
    split
    · next hpos =>
      obtain ⟨t, he, hst', hnsym, hpos', hq⟩ := execMatcher_progress hlen hpos
      refine ⟨t, he, ?_⟩
      simp only [stepsLeft, hst', hstage, hnsym, hq]
      omega
    · refine ⟨_, rfl, ?_⟩
      simp only [stepsLeft, hstage]
      omega
  | serializing =>
    simp only [hstage] at hok'
    obtain ⟨-, -, written, -, -, hcan, -⟩ := hok'
    cases hq : s.tokq with
    | nil =>
      refine ⟨_, engineStep_serializing_nil hstage hq, ?_⟩
      simp [stepsLeft, hstage]
    | cons tok rest =>
      obtain ⟨hoff, hml⟩ := Canonical_fits (hcan tok (by simp [hq]))
      refine ⟨_, (engineStep_serializing_cons hstage hq).trans (execTokser_next hq hoff hml), ?_⟩
      simp [stepsLeft, hstage, hq]
  | tokdes =>
    obtain ⟨-, he⟩ | ⟨-, he⟩ := execTokdes_cases s
    · refine ⟨_, (engineStep_tokdes hstage).trans (thenStage_of he hb), ?_⟩
      simp [stepsLeft, hstage]
    · refine ⟨_, (engineStep_tokdes hstage).trans (thenStage_raise he (by simp)), ?_⟩
      simp [stepsLeft, hstage]
  | degroup =>
    simp only [hstage] at hok'
    obtain ⟨hwords, -⟩ := hok'
    by_cases hm : s.m = 0
    · refine ⟨_, (engineStep_degroup hstage).trans (thenStage_raise (execDegroup_raise hm) (by simp)), ?_⟩
      simp [stepsLeft, hstage]
    · refine ⟨_, (engineStep_degroup hstage).trans
        (thenStage_of (execDegroup_next hm hwords.length_eq.1) hb), ?_⟩
      simp only [stepsLeft, hstage]
      omega
  | reconstruct =>
    rw [engineStep_reconstruct hstage]
    split
    · next htpc =>
      obtain ⟨t, he⟩ := runToken_total hstage hok htpc
      refine ⟨t, he, ?_⟩
      obtain ⟨hst', -, -, -, htpc', hm, -⟩ | ⟨u, rfl⟩ := reconstruct_step hstage hb hok htpc he
      · simp only [stepsLeft, hst', hstage, htpc', hm]
        omega
      · simp [stepsLeft, hstage]
    · refine ⟨_, rfl, ?_⟩
      simp [stepsLeft, hstage]
  | symwr =>
    simp only [hstage] at hok'
    obtain ⟨-, -, -, -, hlen, -⟩ := hok'
    refine ⟨_, (engineStep_symwr hstage).trans (thenStage_of (execSymwr_next hlen) hb), ?_⟩
    simp [stepsLeft, hstage]
  | closing =>
    refine ⟨_, engineStep_closing hstage, ?_⟩
    simp [stepsLeft, hstage]

end Sys2Proof.Machine
end

section
/-! Runs of an operation with nothing further from the host (70_reset_and_hazards.md R278): they never stop, and they
reach the operation's end. -/

namespace Sys2Proof.Machine

variable {s t : State}

theorem engineStep_keeps_ready (h : StageReady s) (ht : engineStep s = .next t) : StageReady t := by
  cases hst : s.stage with
  | idle =>
    cases (engineStep_idle hst).symm.trans ht
    exact h
  | symrd => exact symrd_keeps_ready hst h ht
  | matching => exact matching_keeps_ready hst h ht
  | serializing => exact serializing_keeps_ready hst h ht
  | tokdes => exact tokdes_keeps_ready hst h ht
  | degroup => exact degroup_keeps_ready hst h ht
  | reconstruct => exact reconstruct_keeps_ready hst h ht
  | symwr => exact symwr_keeps_ready hst h ht
  | closing => exact closing_keeps_ready hst h ht

/-- No host action waits, and what must hold before the stage holds. -/
structure Unattended (s : State) : Prop where
  inbox : s.inbox = []
  ready : StageReady s

theorem Unattended.busy (h : Unattended s) (hst : s.stage ≠ .idle) : s.status = .busy :=
  (h.ready.1.of_stage hst).1

/-- A step of the machine is then the engine's. -/
theorem Unattended.engineStep_eq (h : Unattended s) (ht : step s = .next t) : engineStep s = .next t :=
  (step_of_inbox_nil h.inbox).symm.trans ht

theorem Unattended.of_step (h : Unattended s) (ht : step s = .next t) : Unattended t := by
  have he := h.engineStep_eq ht
  refine ⟨?_, engineStep_keeps_ready h.ready he⟩
  by_cases hst : s.stage = .idle
  · cases (engineStep_idle hst).symm.trans he
    exact h.inbox
  · obtain ⟨hinbox, -⟩ := (engineStep_eq_next he).operation_eq (h.busy hst)
    exact hinbox.trans h.inbox

theorem Unattended.step_total (h : Unattended s) : ∃ t, step s = .next t := by
  rw [step_of_inbox_nil h.inbox]
  by_cases hst : s.stage = .idle
  · exact ⟨s, engineStep_idle hst⟩
  · obtain ⟨t, ht, -⟩ := h.ready.engineStep_progress hst
    exact ⟨t, ht⟩

/-- The operation ends: `stepsLeft` falls until the stage is idle. -/
theorem Unattended.reaches_idle (h : Unattended s) :
    ∃ k t, k ≤ stepsLeft s ∧ runSteps k s = .next t ∧ t.stage = .idle := by
  induction hn : stepsLeft s using Nat.strong_induction_on generalizing s with
  | _ n ih =>
    by_cases hst : s.stage = .idle
    · exact ⟨0, s, Nat.zero_le n, rfl, hst⟩
    · obtain ⟨u, hu, hlt⟩ := h.ready.engineStep_progress hst
      rw [← step_of_inbox_nil h.inbox] at hu
      obtain ⟨k, t, hk, hrun, hidle⟩ := ih (stepsLeft u) (hn ▸ hlt) (h.of_step hu) rfl
      exact ⟨k + 1, t, by omega, (runSteps_succ k hu).trans hrun, hidle⟩

end Sys2Proof.Machine
end

section
/-! The course of an ENCODE: what holds from its acceptance on, as long as the host does nothing, and the container it
ends with (45_operations.md R201). -/

namespace Sys2Proof.Machine

variable {s t : State} {input : List Byte}

/-- An ENCODE of `input` in some stage or ended, with nothing further from the host: it has not raised, and from SYMRD
on SYM is the input in symbols. -/
structure Encoding (input : List Byte) (s : State) : Prop extends Unattended s where
  cmd : s.cmd = 1
  input_eq : inputBytes s = input
  symbols : s.stage ≠ .symrd → s.sym = symbolsOf input
  status : s.status = .busy ∨ s.status = .done

/-- By the stage: ENCODE has three, none of which raises, and the decoder's are those of another command. -/
theorem Encoding.sym_and_status (h : Encoding input s) (ht : engineStep s = .next t) :
    t.sym = symbolsOf input ∧ (t.status = .busy ∨ t.status = .done) := by
  obtain ⟨hout, hok⟩ := h.ready
  have hok' := hok
  unfold StageOk at hok'
  have hsym (hst : s.stage ≠ .symrd) {u : State} (hu : u.sym = s.sym) : u.sym = symbolsOf input :=
    hu.trans (h.symbols hst)
  cases hst : s.stage with
  | idle =>
    cases (engineStep_idle hst).symm.trans ht
    exact ⟨hsym (by simp [hst]) rfl, h.status⟩
  | symrd =>
    cases ((engineStep_symrd hst).trans (thenStage_of rfl (h.busy (by simp [hst])))).symm.trans ht
    exact ⟨congrArg symbolsOf h.input_eq, h.status⟩
  | matching =>
    rw [engineStep_matching hst] at ht
    split at ht
    · next hpos =>
      obtain ⟨-, hstatus, -⟩ := matching_step hst hok hpos ht
      exact ⟨hsym (by simp [hst]) ((exec_effect ht).sym_eq (by simp) (by simp) (by simp) (by simp)),
        hstatus ▸ h.status⟩
    · cases ht
      exact ⟨hsym (by simp [hst]) rfl, h.status⟩
  | serializing =>
    cases hq : s.tokq with
    | nil =>
      cases (engineStep_serializing_nil hst hq).symm.trans ht
      exact ⟨hsym (by simp [hst]) rfl, .inr rfl⟩
    | cons tok rest =>
      simp only [hst] at hok'
      obtain ⟨-, -, written, -, -, hcan, -⟩ := hok'
      obtain ⟨hoff, hml⟩ := Canonical_fits (hcan tok (by simp [hq]))
      cases ((engineStep_serializing_cons hst hq).trans (execTokser_next hq hoff hml)).symm.trans ht
      exact ⟨hsym (by simp [hst]) rfl, h.status⟩
  | tokdes | degroup | reconstruct | symwr | closing => simp [hst, WordsIn, DecodeDone, h.cmd] at hok'

/-- A step of the machine goes on with the same command. -/
theorem Encoding.of_step (h : Encoding input s) (ht : step s = .next t) : Encoding input t := by
  have he := h.engineStep_eq ht
  by_cases hst : s.stage = .idle
  · cases (engineStep_idle hst).symm.trans he
    exact h
  · obtain ⟨-, hcmd, hinput⟩ := (engineStep_eq_next he).operation_eq (h.busy hst)
    obtain ⟨hsym, hstatus⟩ := h.sym_and_status he
    exact ⟨h.toUnattended.of_step ht, hcmd.trans h.cmd, hinput.trans h.input_eq, fun _ => hsym, hstatus⟩

/-- An ENCODE that has no further stage is DONE, with a container of canonical tokens that replay to the input. -/
theorem Encoding.result (h : Encoding input s) (hst : s.stage = .idle) :
    s.status = .done ∧ s.err = .none ∧ s.oddOut = BitVec.ofNat 1 (input.length % 2) ∧
      ∃ ts : List Token, (∀ u ∈ ts, Canonical u) ∧ replay [] ts = some (symbolsOf input) ∧
        s.outLen = 6 * ts.length ∧ resultBytes s = containerOf ts := by
  obtain ⟨⟨hbusy, hfailed, -⟩, hok⟩ := h.ready
  have hdone : s.status = .done := h.status.resolve_left fun hb => hbusy.mp hb hst
  simp only [StageOk, hst] at hok
  obtain ⟨-, ⟨-, -, -, hodd, ts, hcan, hrep, hwcnt, hout, hobuf⟩ | ⟨hcmd, -⟩⟩ := hok hdone
  · have hlen : s.outLen = 6 * ts.length := by
      rw [hout, hwcnt, Config.TRIPLE]
      omega
    have hopLen : s.opLen = input.length := by rw [← inputBytes_length, h.input_eq]
    refine ⟨hdone, by simpa [hdone] using hfailed, hopLen ▸ hodd, ts, hcan,
      hrep.trans (congrArg some (h.symbols (by simp [hst]))), hlen, ?_⟩
    rw [resultBytes_of_holds hdone hobuf (by rw [hlen, containerOf_length]), List.take_of_length_le]
    rw [hlen, containerOf_length]
  · simp [h.cmd] at hcmd

theorem step_hostCommand_encode {odd : BitVec 1} (hb : s.status ≠ .busy) :
    step (hostCommand 1 input odd s) = .next (acceptEncode (hostSetup input odd s)) :=
  (step_of_inbox_cons (a := .writeCmd 1) (rest := []) rfl).trans
    (execEncode_accepted (s := hostSetup input odd s) hb)

theorem encoding_acceptEncode (input : List Byte) (odd : BitVec 1) (s : State) :
    Encoding input (acceptEncode (hostSetup input odd s)) where
  inbox := rfl
  ready := acceptEncode_ok _
  cmd := rfl
  input_eq := inputBytes_of_writeList rfl rfl
  symbols h := absurd rfl h
  status := .inl rfl

/-- ENCODE reaches DONE with a container of canonical tokens that replay to the input (45_operations.md R201). -/
theorem encode_run (input : List Byte) (odd : BitVec 1) (hb : s.status ≠ .busy) :
    ∃ k t, runSteps k (hostCommand 1 input odd s) = .next t ∧ t.status = .done ∧ t.err = .none ∧
      t.oddOut = BitVec.ofNat 1 (input.length % 2) ∧
      ∃ ts : List Token, (∀ u ∈ ts, Canonical u) ∧ replay [] ts = some (symbolsOf input) ∧
        t.outLen = 6 * ts.length ∧ resultBytes t = containerOf ts := by
  have hstart := encoding_acceptEncode input odd s
  obtain ⟨k, t, -, hrun, hidle⟩ := hstart.reaches_idle
  exact ⟨k + 1, t, (runSteps_succ k (step_hostCommand_encode hb)).trans hrun,
    (runSteps_keeps Encoding.of_step hstart hrun).result hidle⟩

end Sys2Proof.Machine
end

section
/-! The container an ENCODE ends with: its edges (45_operations.md R202), and DECODE of it (R206). -/

namespace Sys2Proof.Machine

variable {ts : List Token}

/-! ### The edges of ENCODE -/

theorem eq_nil_of_replay_nil (h : replay [] ts = some []) : ts = [] := by
  cases ts with
  | nil => rfl
  | cons t ts =>
    obtain ⟨hlen, -⟩ := replay_length h
    simp only [List.map_cons, List.sum_cons, List.length_nil] at hlen
    omega

theorem Canonical.off_eq_zero {t : Token} (h : Canonical t) (hlen : t.len = 0) : t.off = 0 := by
  obtain ⟨hoff, -⟩ | ⟨hpos, -⟩ := h
  · exact hoff
  · omega

/-- A canonical stream that replays to one symbol is the literal of it: more tokens, or a copy, make more symbols. -/
theorem eq_literal_of_replay_singleton {x : Symbol} (hcan : ∀ t ∈ ts, Canonical t) (h : replay [] ts = some [x]) :
    ts = [⟨0, 0, x⟩] := by
  cases ts with
  | nil => cases h
  | cons t ts =>
    obtain ⟨hct, hcts⟩ := List.forall_mem_cons.mp hcan
    obtain ⟨hsum, -⟩ := replay_length h
    obtain ⟨hcount, -⟩ := length_bounds_of_canonical hcts
    simp only [List.map_cons, List.sum_cons, List.length_cons, List.length_nil] at hsum
    have hlen : t.len = 0 := by omega
    obtain rfl : ts = [] := List.length_eq_zero_iff.mp (by omega)
    have hoff := hct.off_eq_zero hlen
    obtain ⟨off, len, lit⟩ := t
    subst hlen hoff
    simp only [replay, replayToken_lit] at h
    simpa using h

/-- Settles O58: what an ENCODE's tokens must replay to leaves one choice of them. -/
theorem encodeOfEmptyAndOfOneByte : Obligations.EncodeOfEmptyAndOfOneByte := by
  intro s odd hb
  constructor
  · obtain ⟨k, t, hrun, hdone, herr, hodd, ts, -, hrep, hlen, hres⟩ := encode_run [] odd hb
    obtain rfl := eq_nil_of_replay_nil hrep
    exact ⟨k, t, hrun, hdone, herr, hlen, hodd, hres⟩
  · intro b
    obtain ⟨k, t, hrun, hdone, herr, hodd, ts, hcan, hrep, hlen, hres⟩ := encode_run [b] odd hb
    obtain rfl := eq_literal_of_replay_singleton hcan hrep
    refine ⟨k, t, hrun, hdone, herr, hlen, hodd, ?_⟩
    have hzero : wordBytes 0 = [0, 0] := by decide
    calc resultBytes t = wordBytes 0 ++ wordBytes 0 ++ [hiByte (pairBytes b 0), loByte (pairBytes b 0)] := hres
      _ = [0, 0, 0, 0, b, 0] := by rw [hzero, hiByte_pairBytes, loByte_pairBytes]; rfl

/-! ### The round trip -/

/-- The words of a container are three for each of its tokens. -/
theorem symbolsOf_containerOf_length (ts : List Token) : (symbolsOf (containerOf ts)).length = 3 * ts.length := by
  rw [symbolsOf_length, containerOf_length]
  omega

/-- A non-empty input has a symbol, and so needs a token. -/
theorem ne_nil_of_replay {input : List Byte} (hne : input ≠ []) (hrep : replay [] ts = some (symbolsOf input)) :
    ts ≠ [] := by
  rintro rfl
  obtain ⟨hlen, -⟩ := replay_length hrep
  have hpos := List.length_pos_iff.mpr hne
  simp only [symbolsOf_length, List.map_nil, List.sum_nil, List.length_nil] at hlen
  omega

/-- DECODE of a container of canonical tokens that replay to the symbols of a non-empty input, with the parity of its
length as ODD_IN, reaches DONE with that input. -/
theorem decode_container_run {s : State} {input : List Byte} (hb : s.status ≠ .busy) (hne : input ≠ [])
    (hcan : ∀ t ∈ ts, Canonical t) (hrep : replay [] ts = some (symbolsOf input)) :
    ∃ k t, runSteps k (hostCommand 2 (containerOf ts) (BitVec.ofNat 1 (input.length % 2)) s) = .next t ∧
      t.status = .done ∧ t.err = .none ∧ resultBytes t = input := by
  have hfit : ∀ t ∈ ts, t.off ≤ 65535 ∧ t.len ≤ 65535 := fun t ht =>
    (Canonical_fits (hcan t ht)).imp fitsWord_iff.mp fitsWord_iff.mp
  have hwords := symbolsOf_containerOf_length ts
  have hpos : 0 < ts.length := List.length_pos_iff.mpr (ne_nil_of_replay hne hrep)
  obtain ⟨t, hrun, hdone, herr, -, -, -, -, hout, hobuf⟩ := decode_run hb (input := containerOf ts)
    (odd := BitVec.ofNat 1 (input.length % 2)) (by omega) (List.ne_nil_of_length_pos (by omega))
    (by rw [tokensOf_symbolsOf_containerOf hfit]; exact hrep)
  rw [decodedLength_symbolsOf] at hout
  rw [bytesOf_symbolsOf] at hobuf
  refine ⟨_, t, hrun, hdone, herr, ?_⟩
  rw [resultBytes_of_holds hdone hobuf (by simp [hout]), hout, List.take_left]

/-- Settles O59: ENCODE ends with a container whose tokens replay to the input, and DECODE replays it. -/
theorem decodeOfEncodeRoundTrip : Obligations.DecodeOfEncodeRoundTrip := by
  intro s input odd hb hne
  obtain ⟨k, t, hrun, hdone, herr, hodd, ts, hcan, hrep, -, hres⟩ := encode_run input odd hb
  refine ⟨k, t, hrun, hdone, herr, hodd, ?_⟩
  rw [hres, hodd]
  exact decode_container_run (by simp [hdone]) hne hcan hrep

end Sys2Proof.Machine
end

section
/-! Two runs of one command on one input (45_operations.md R205): the registers and memories that a stage to come reads
agree, whatever the two engines held before, and so does what the host observes. -/

namespace Sys2Proof.Machine

variable {s t s' t' : State}

/-- Two engines at the same point of the same operation. What no stage to come reads may differ: the registers that are
written before they are read, ODD_IN in an ENCODE, ODD_OUT in a DECODE, IBUF outside the input. -/
structure SameCourse (s t : State) : Prop where
  input : inputBytes s = inputBytes t
  status : s.status = t.status
  err : s.err = t.err
  outLen : s.outLen = t.outLen
  stage : s.stage = t.stage
  pos : s.pos = t.pos
  wcnt : s.wcnt = t.wcnt
  tpc : s.tpc = t.tpc
  n : s.n = t.n
  sym : s.sym = t.sym
  tokq : s.tokq = t.tokq
  outs : s.outs = t.outs
  obuf : s.obuf = t.obuf
  nsym : s.stage = .matching → s.nsym = t.nsym
  m : s.stage = .degroup ∨ s.stage = .reconstruct → s.m = t.m
  opOdd : s.cmd = 2 → s.opOdd = t.opOdd
  oddOut : s.cmd = 1 → s.oddOut = t.oddOut

theorem SameCourse.raise (h : SameCourse s t) (e : Err) : SameCourse (raise e s) (raise e t) :=
  { h with status := rfl, err := rfl, outLen := rfl, stage := rfl, nsym := by simp, m := by simp }

/-! ### ENCODE -/

/-- A search leaves its registers behind, which no stage to come reads. -/
theorem SameCourse.searched (h : SameCourse s t) (lo c lo' c' : Nat) :
    SameCourse { s with lo := lo, c := c } { t with lo := lo', c := c' } := { h with }

theorem SameCourse.emitLiteral (h : SameCourse s t) (x : Symbol) : SameCourse (emitLiteral x s) (emitLiteral x t) :=
  { h with
    pos := congrArg (· + 1) h.pos
    tokq := congrArg (· ++ [Token.mk 0 0 x]) h.tokq }

theorem SameCourse.emitMatch (h : SameCourse s t) (off ml : Nat) (x : Symbol) :
    SameCourse (emitMatch off ml x s) (emitMatch off ml x t) :=
  { h with
    pos := congrArg (· + (ml + 1)) h.pos
    tokq := congrArg (· ++ [Token.mk off ml x]) h.tokq }

/-- MATCH decides by SYM, `nsym` and `pos` (41_window_matcher.md R110 to R122). -/
theorem SameCourse.of_execMatcher (h : SameCourse s t) (hst : s.stage = .matching) (hs : execMatcher s = .next s')
    (ht : execMatcher t = .next t') : SameCourse s' t' := by
  have heq : t = { t with sym := s.sym, nsym := s.nsym, pos := s.pos } := by rw [h.sym, h.nsym hst, h.pos]
  rw [heq] at h ht
  unfold execMatcher at hs ht
  dsimp only at hs ht
  split at hs
  · next hend =>
    rw [if_pos hend] at ht
    cases hs
    cases ht
    exact h
  · next hgo =>
    rw [if_neg hgo] at ht
    split at hs
    · cases hs
    · next x hx =>
      simp only [hx] at ht
      split at hs
      · next hlast =>
        rw [if_pos hlast] at ht
        cases hs
        cases ht
        exact h.emitLiteral x
      · next hsearch =>
        rw [if_neg hsearch] at ht
        split at hs
        · next hnone =>
          simp only [hnone] at ht
          cases hs
          cases ht
          exact (h.searched _ _ _ _).emitLiteral x
        · next c hc =>
          simp only [hc] at ht
          split at hs
          · cases hs
          · next y hy =>
            simp only [hy] at ht
            cases hs
            cases ht
            exact (h.searched _ _ _ _).emitMatch _ _ y

/-- TOKSER decides by the head of TOKQ (42_token_codec.md R140, R141). -/
theorem SameCourse.of_execTokser (h : SameCourse s t) (hs : execTokser s = .next s') (ht : execTokser t = .next t') :
    SameCourse s' t' := by
  cases hq : s.tokq with
  | nil =>
    have hq' : t.tokq = [] := h.tokq.symm.trans hq
    simp only [execTokser, hq, hq'] at hs ht
    cases hs
    cases ht
    exact h
  | cons tok rest =>
    have hq' : t.tokq = tok :: rest := h.tokq.symm.trans hq
    simp only [execTokser, hq, hq'] at hs ht
    split at hs
    · next hfit =>
      rw [if_pos hfit] at ht
      cases hs
      cases ht
      exact { h with obuf := by simp only [h.obuf, h.wcnt], wcnt := congrArg (· + Config.TRIPLE) h.wcnt, tokq := rfl }
    · next hwide =>
      rw [if_neg hwide] at ht
      cases hs
      cases ht
      exact h.raise _

/-- The end of an ENCODE: OUT_LEN is the word count's, and in an ENCODE both latched the length of the one input. -/
theorem SameCourse.completeEncode (h : SameCourse s t) : SameCourse (completeEncode s) (completeEncode t) :=
  { h with
    status := rfl, stage := rfl, outLen := congrArg (2 * ·) h.wcnt, nsym := by simp, m := by simp
    oddOut := fun _ => by
      have hlen : s.opLen = t.opLen := by rw [← inputBytes_length, h.input, inputBytes_length]
      exact congrArg (fun len => BitVec.ofNat 1 (len % 2)) hlen }

/-! ### DECODE -/

/-- TOKDES decides by the input (42_token_codec.md R143 to R145). -/
theorem SameCourse.ingestWords (h : SameCourse s t) : SameCourse (ingestWords s) (ingestWords t) :=
  { h with sym := congrArg symbolsOf h.input }

/-- A token decides by itself and by OUTS, as the reference replay does (44_reconstructor.md R176 to R183). -/
theorem SameCourse.of_runToken (h : SameCourse s t) {tok : Token} {rest : List Token} (hq : s.tokq = tok :: rest)
    (hoff : tok.off < 65536) (hml : tok.len < 65536) (hn : s.outs.length = s.n)
    (hs : runToken s = .next s') (ht : runToken t = .next t') : SameCourse s' t' := by
  have hn' : t.outs.length = t.n := by rw [← h.outs, ← h.n, hn]
  have htok : tokenOf (fieldWord tok.off) (fieldWord tok.len) tok.lit = tok := by
    rw [tokenOf, fieldWord_toNat_of_lt hoff, fieldWord_toNat_of_lt hml]
  have hlatch : SameCourse (latchToken tok rest s) (latchToken tok rest t) := { h with tokq := rfl }
  obtain ⟨hgo, hstop⟩ := exec_token_replay (fieldWord tok.off) (fieldWord tok.len) tok.lit
    (s := latchToken tok rest s) hn
  obtain ⟨hgo', hstop'⟩ := exec_token_replay (fieldWord tok.off) (fieldWord tok.len) tok.lit
    (s := latchToken tok rest t) hn'
  rw [runToken_cons hq] at hs
  rw [runToken_cons (h.tokq.symm.trans hq)] at ht
  rw [htok, latchToken_outs] at hgo hstop hgo' hstop'
  rw [← h.outs] at hgo' hstop'
  cases hr : replayToken s.outs tok with
  | none =>
    cases (hstop hr).symm.trans hs
    cases (hstop' hr).symm.trans ht
    exact hlatch.raise _
  | some outs =>
    obtain ⟨hist, start, i, he, -⟩ := hgo outs hr
    obtain ⟨hist', start', i', he', -⟩ := hgo' outs hr
    cases he.symm.trans hs
    cases he'.symm.trans ht
    exact { hlatch with outs := rfl, n := by simp [h.n], tpc := congrArg (· + 1) h.tpc }

end Sys2Proof.Machine
end

section
/-! Two runs of one command on one input (45_operations.md R205), stage by stage. -/

namespace Sys2Proof.Machine

variable {s t s' t' : State}

theorem SameCourse.symrd_step (h : SameCourse s t) (hb : s.status = .busy) (hst : s.stage = .symrd)
    (hs : engineStep s = .next s') (ht : engineStep t = .next t') : SameCourse s' t' := by
  cases ((engineStep_symrd hst).trans (thenStage_of rfl hb)).symm.trans hs
  cases ((engineStep_symrd (h.stage.symm.trans hst)).trans (thenStage_of rfl (h.status.symm.trans hb))).symm.trans ht
  have hsym := congrArg symbolsOf h.input
  exact { h with sym := hsym, stage := rfl, nsym := fun _ => congrArg List.length hsym, m := by simp }

theorem SameCourse.matching_step (h : SameCourse s t) (hst : s.stage = .matching)
    (hs : engineStep s = .next s') (ht : engineStep t = .next t') : SameCourse s' t' := by
  have hpos : t.pos < t.nsym ↔ s.pos < s.nsym := by rw [h.pos, h.nsym hst]
  rw [engineStep_matching hst] at hs
  rw [engineStep_matching (h.stage.symm.trans hst)] at ht
  split at hs
  · next hlt =>
    rw [if_pos (hpos.mpr hlt)] at ht
    exact h.of_execMatcher hst hs ht
  · next hend =>
    rw [if_neg (hend ∘ hpos.mp)] at ht
    cases hs
    cases ht
    exact { h with stage := rfl, nsym := by simp, m := by simp }

theorem SameCourse.serializing_step (h : SameCourse s t) (hst : s.stage = .serializing)
    (hs : engineStep s = .next s') (ht : engineStep t = .next t') : SameCourse s' t' := by
  have hst' := h.stage.symm.trans hst
  cases hq : s.tokq with
  | nil =>
    cases (engineStep_serializing_nil hst hq).symm.trans hs
    cases (engineStep_serializing_nil hst' (h.tokq.symm.trans hq)).symm.trans ht
    exact h.completeEncode
  | cons tok rest =>
    exact h.of_execTokser ((engineStep_serializing_cons hst hq).symm.trans hs)
      ((engineStep_serializing_cons hst' (h.tokq.symm.trans hq)).symm.trans ht)

theorem SameCourse.tokdes_step (h : SameCourse s t) (hb : s.status = .busy) (hst : s.stage = .tokdes)
    (hs : engineStep s = .next s') (ht : engineStep t = .next t') : SameCourse s' t' := by
  have hb' := h.status.symm.trans hb
  have hnw : (Machine.ingestWords s).nwords = (Machine.ingestWords t).nwords :=
    congrArg List.length h.ingestWords.sym
  rw [engineStep_tokdes hst] at hs
  rw [engineStep_tokdes (h.stage.symm.trans hst)] at ht
  obtain ⟨hmod, he⟩ | ⟨hmod, he⟩ := execTokdes_cases s <;>
    obtain ⟨hmod', he'⟩ | ⟨hmod', he'⟩ := execTokdes_cases t
  · cases (thenStage_of he hb).symm.trans hs
    cases (thenStage_of he' hb').symm.trans ht
    exact { h.ingestWords with stage := rfl, nsym := by simp, m := fun _ => congrArg (· / 3) hnw }
  · exact absurd (hnw ▸ hmod) hmod'
  · exact absurd (hnw ▸ hmod') hmod
  · cases (thenStage_raise he (by simp)).symm.trans hs
    cases (thenStage_raise he' (by simp)).symm.trans ht
    exact h.ingestWords.raise _

/-- DEGROUP decides by WORDS and `m` (43_degrouper.md R160, R161). -/
theorem SameCourse.degroup_step (h : SameCourse s t) (hb : s.status = .busy) (hwords : WordsIn s)
    (hst : s.stage = .degroup) (hs : engineStep s = .next s') (ht : engineStep t = .next t') :
    SameCourse s' t' := by
  have hb' := h.status.symm.trans hb
  have hm' := h.m (.inl hst)
  have hlen := hwords.length_eq.1
  rw [engineStep_degroup hst] at hs
  rw [engineStep_degroup (h.stage.symm.trans hst)] at ht
  by_cases hm : s.m = 0
  · cases (thenStage_raise (execDegroup_raise hm) (by simp)).symm.trans hs
    cases (thenStage_raise (execDegroup_raise (hm'.symm.trans hm)) (by simp)).symm.trans ht
    exact h.raise _
  · cases (thenStage_of (execDegroup_next hm hlen) hb).symm.trans hs
    cases (thenStage_of (execDegroup_next (hm' ▸ hm) (by rw [← h.sym, ← hm', hlen])) hb').symm.trans ht
    exact { h with tokq := congrArg tokensOf h.sym, stage := rfl, nsym := by simp, m := fun _ => hm' }

theorem SameCourse.reconstruct_step (h : SameCourse s t) (hok : StageOk s) (hst : s.stage = .reconstruct)
    (hs : engineStep s = .next s') (ht : engineStep t = .next t') : SameCourse s' t' := by
  have hm := h.m (.inr hst)
  have htpc : t.tpc < t.m ↔ s.tpc < s.m := by rw [h.tpc, hm]
  rw [engineStep_reconstruct hst] at hs
  rw [engineStep_reconstruct (h.stage.symm.trans hst)] at ht
  split at hs
  · next hlt =>
    rw [if_pos (htpc.mpr hlt)] at ht
    obtain ⟨off, len, lit, rest, -, hq⟩ := reconstruct_words hst hok hlt
    simp only [StageOk, hst] at hok
    obtain ⟨-, -, -, -, hn, -⟩ := hok
    exact h.of_runToken hq off.isLt len.isLt hn hs ht
  · next hend =>
    rw [if_neg (hend ∘ htpc.mp)] at ht
    cases hs
    cases ht
    exact { h with stage := rfl, nsym := by simp, m := by simp }

theorem SameCourse.symwr_step (h : SameCourse s t) (hb : s.status = .busy) (hcmd : s.cmd = 2)
    (hn : s.outs.length = s.n) (hst : s.stage = .symwr) (hs : engineStep s = .next s')
    (ht : engineStep t = .next t') : SameCourse s' t' := by
  have hn' : t.outs.length = t.n := by rw [← h.outs, ← h.n, hn]
  cases ((engineStep_symwr hst).trans (thenStage_of (execSymwr_next hn) hb)).symm.trans hs
  cases ((engineStep_symwr (h.stage.symm.trans hst)).trans
    (thenStage_of (execSymwr_next hn') (h.status.symm.trans hb))).symm.trans ht
  exact { h with
    obuf := by simp only [h.obuf, h.outs], outLen := by simp only [h.n, h.opOdd hcmd]
    stage := rfl, nsym := by simp, m := by simp }

theorem SameCourse.closing_step (h : SameCourse s t) (hst : s.stage = .closing)
    (hs : engineStep s = .next s') (ht : engineStep t = .next t') : SameCourse s' t' := by
  cases (engineStep_closing hst).symm.trans hs
  cases (engineStep_closing (h.stage.symm.trans hst)).symm.trans ht
  exact { h with status := rfl, stage := rfl, nsym := by simp, m := by simp }

/-- Two engines at the same point are so after a step. -/
theorem SameCourse.of_engineStep (h : SameCourse s t) (hr : StageReady s) (hs : engineStep s = .next s')
    (ht : engineStep t = .next t') : SameCourse s' t' := by
  obtain ⟨hout, hok⟩ := hr
  have busy {st : Stage} (hst : s.stage = st) (hne : st ≠ .idle) : s.status = .busy :=
    (hout.of_stage (hst ▸ hne)).1
  have hok' := hok
  unfold StageOk at hok'
  cases hst : s.stage with
  | idle =>
    cases (engineStep_idle hst).symm.trans hs
    cases (engineStep_idle (h.stage.symm.trans hst)).symm.trans ht
    exact h
  | symrd => exact h.symrd_step (busy hst (by simp)) hst hs ht
  | matching => exact h.matching_step hst hs ht
  | serializing => exact h.serializing_step hst hs ht
  | tokdes => exact h.tokdes_step (busy hst (by simp)) hst hs ht
  | degroup =>
    simp only [hst] at hok'
    obtain ⟨hwords, -⟩ := hok'
    exact h.degroup_step (busy hst (by simp)) hwords hst hs ht
  | reconstruct => exact h.reconstruct_step hok hst hs ht
  | symwr =>
    simp only [hst] at hok'
    obtain ⟨⟨hcmd, -⟩, -, -, -, hn, -⟩ := hok'
    exact h.symwr_step (busy hst (by simp)) hcmd hn hst hs ht
  | closing => exact h.closing_step hst hs ht

/-- Runs from the same point, with nothing further from either host, stay at the same point for ever. -/
theorem SameCourse.of_runSteps (h : SameCourse s t) (hs : Unattended s) (ht : Unattended t) (k : Nat) :
    ∃ s' t', runSteps k s = .next s' ∧ runSteps k t = .next t' ∧ SameCourse s' t' ∧ Unattended s' := by
  induction k generalizing s t with
  | zero => exact ⟨s, t, rfl, rfl, h, hs⟩
  | succ k ih =>
    obtain ⟨s₁, hs₁⟩ := hs.step_total
    obtain ⟨t₁, ht₁⟩ := ht.step_total
    rw [runSteps_succ k hs₁, runSteps_succ k ht₁]
    exact ih (h.of_engineStep hs.ready (hs.engineStep_eq hs₁) (ht.engineStep_eq ht₁)) (hs.of_step hs₁) (ht.of_step ht₁)

end Sys2Proof.Machine
end

section
/-! What the host observes of an operation (45_operations.md R205): the result in DONE is in OBUF as a whole, so no
unspecified byte is read; and a DECODE leaves ODD_OUT alone. -/

namespace Sys2Proof.Machine

variable {s t : State} {input : List Byte}

/-- In DONE every byte below OUT_LEN is written (20_memory.md R55). -/
theorem StageReady.result_written (h : StageReady s) (hdone : s.status = .done) :
    ∃ bs, Holds s.obuf bs ∧ s.outLen ≤ bs.length := by
  obtain ⟨⟨hbusy, -⟩, hok⟩ := h
  have hst : s.stage = .idle := by simpa [hdone] using hbusy
  simp only [StageOk, hst] at hok
  obtain ⟨-, ⟨-, -, -, -, ts, -, -, hwcnt, hout, hobuf⟩ | ⟨-, -, -, -, hn, -, hout, hobuf⟩⟩ := hok hdone
  · refine ⟨_, hobuf, ?_⟩
    rw [hout, hwcnt, containerOf_length, Config.TRIPLE]
    omega
  · refine ⟨_, hobuf, ?_⟩
    rw [hout, bytesOf_length, hn, decodedLength]
    omega

theorem SameCourse.observe_eq (h : SameCourse s t) (hr : StageReady s) : observe s = observe t := by
  have hresult (hdone : s.status = .done) : resultBytes s = resultBytes t := by
    obtain ⟨bs, hobuf, hlen⟩ := hr.result_written hdone
    rw [resultBytes_of_holds hdone hobuf hlen, resultBytes_of_holds (h.status.symm.trans hdone) (h.obuf ▸ hobuf)
      (h.outLen ▸ hlen), h.outLen]
  simp only [observe, Observed.mk.injEq, ← h.status]
  refine ⟨trivial, h.err, h.outLen, ?_⟩
  split
  · next hdone => exact hresult hdone
  · rfl

/-- Acceptances of one command on one input, in any two engines. -/
theorem sameCourse_acceptEncode (input : List Byte) (odd₁ odd₂ : BitVec 1) (s₁ s₂ : State) :
    SameCourse (acceptEncode (hostSetup input odd₁ s₁)) (acceptEncode (hostSetup input odd₂ s₂)) := by
  constructor
  case input =>
    rw [(encoding_acceptEncode input odd₁ s₁).input_eq, (encoding_acceptEncode input odd₂ s₂).input_eq]
  all_goals simp

theorem sameCourse_acceptDecode (input : List Byte) (odd : BitVec 1) (s₁ s₂ : State) :
    SameCourse (acceptDecode (hostSetup input odd s₁)) (acceptDecode (hostSetup input odd s₂)) := by
  constructor
  case input =>
    rw [(decoding_acceptDecode input odd s₁).input_eq, (decoding_acceptDecode input odd s₂).input_eq]
  case opOdd => exact fun _ => rfl
  all_goals simp

/-- While BUSY no instruction touches ODD_OUT (10_state.md R36). -/
theorem Effect.oddOut_eq {i : Instr} (h : Effect s i t) (hb : s.status = .busy) : t.oddOut = s.oddOut := by
  cases h with
  | appended _ ha =>
    obtain ⟨_, _, _, _, _, _, rfl⟩ := ha.exists_eq
    rfl
  | encodeAccepted hn | decodeAccepted hn => exact absurd hb hn
  | _ => rfl

/-- A DECODE writes ODD_OUT in none of its steps: what does so is the end of an ENCODE. -/
theorem Decoding.oddOut_of_step (h : Decoding input s) (ht : step s = .next t) : t.oddOut = s.oddOut := by
  obtain ⟨hout, hok⟩ := h.ready
  have he := (step_of_inbox_nil h.inbox).symm.trans ht
  by_cases hst : s.stage = .idle
  · cases (engineStep_idle hst).symm.trans he
    rfl
  · obtain ⟨hb, -⟩ := hout.of_stage hst
    cases engineStep_eq_next he with
    | stageOnly | decodeDone => rfl
    | ran hi => exact (exec_effect hi).oddOut_eq hb
    | token hi => exact (exec_effect hi).oddOut_eq (s := latchToken _ _ s) hb
    | encodeDone hser => simp [StageOk, hser, SymbolsIn, h.cmd] at hok

theorem Decoding.unattended (h : Decoding input s) : Unattended s := ⟨h.inbox, h.ready⟩

theorem oddOut_of_decode_run {k : Nat} (h : Decoding input s) (ht : runSteps k s = .next t) : t.oddOut = s.oddOut :=
  (runSteps_keeps (P := fun u => Decoding input u ∧ u.oddOut = s.oddOut)
    (fun ⟨hu, hodd⟩ hv => ⟨hu.of_step hv, (hu.oddOut_of_step hv).trans hodd⟩) ⟨h, rfl⟩ ht).2

/-- Settles O57: acceptance puts two engines at the same point of one operation, and they stay so. -/
theorem operationsArePure : Obligations.OperationsArePure := by
  intro s₁ s₂ code input odd₁ odd₂ k hb₁ hb₂ hcode hodd hk
  obtain ⟨k, rfl⟩ := Nat.exists_eq_add_of_le' hk
  obtain rfl | rfl := hcode
  · have hstart := encoding_acceptEncode input odd₁ s₁
    obtain ⟨t₁, t₂, hrun₁, hrun₂, hsame, hend⟩ := (sameCourse_acceptEncode input odd₁ odd₂ s₁ s₂).of_runSteps
      hstart.toUnattended (encoding_acceptEncode input odd₂ s₂).toUnattended k
    have hcmd := (runSteps_keeps Encoding.of_step hstart hrun₁).cmd
    exact ⟨t₁, t₂, (runSteps_succ k (step_hostCommand_encode hb₁)).trans hrun₁,
      (runSteps_succ k (step_hostCommand_encode hb₂)).trans hrun₂, hsame.observe_eq hend.ready,
      fun _ => hsame.oddOut hcmd, by simp⟩
  · obtain rfl := hodd rfl
    have hstart := decoding_acceptDecode input odd₁ s₁
    obtain ⟨t₁, t₂, hrun₁, hrun₂, hsame, hend⟩ := (sameCourse_acceptDecode input odd₁ s₁ s₂).of_runSteps
      hstart.unattended (decoding_acceptDecode input odd₁ s₂).unattended k
    have hoddOut := oddOut_of_decode_run hstart hrun₁
    exact ⟨t₁, t₂, (runSteps_succ k (step_hostCommand_decode hb₁)).trans hrun₁,
      (runSteps_succ k (step_hostCommand_decode hb₂)).trans hrun₂, hsame.observe_eq hend.ready,
      by simp, fun _ => hoddOut⟩

end Sys2Proof.Machine
end

section
/-! The statements of the exceptions family (60_exceptions.md): the engine with nothing to do (R241), the instructions
that raise each error (R220), and a DECODE's first two errors as a matter of its length alone (R227). -/

namespace Sys2Proof.Machine

variable {s t : State} {input : List Byte}

/-! ### The idle engine -/

/-- Settles O11: with no action waiting the step is the engine's, which in the idle stage changes nothing. -/
theorem idleEngineWaitsForCommand : Obligations.IdleEngineWaitsForCommand := by
  intro s k hin hst
  have hstep : step s = .next s := (step_of_inbox_nil hin).trans (engineStep_idle hst)
  induction k with
  | zero => rfl
  | succ k ih => exact (runSteps_succ k hstep).trans ih

/-! ### The raisers -/

/-- An instruction that starts without an error ends without one or raises its own (60_exceptions.md R220). -/
theorem Effect.err_cases {i : Instr} (h : Effect s i t) (herr : s.err = .none) :
    t.err = .none ∨ (i = .tokser ∧ t.err = .encodingOverflow) ∨ (i = .tokdes ∧ t.err = .malformedContainer) ∨
    (i = .degroup ∧ t.err = .irregularTokenStream) ∨ (isToken i = true ∧ t.err = .invalidBackReference) := by
  cases h with
  | appended _ ha =>
    obtain ⟨_, _, _, _, _, _, rfl⟩ := ha.exists_eq
    exact .inl herr
  | encodeAccepted | decodeAccepted => exact .inl rfl
  | overflowed => exact .inr (.inl ⟨rfl, rfl⟩)
  | malformed => exact .inr (.inr (.inl ⟨rfl, rfl⟩))
  | irregular => exact .inr (.inr (.inr (.inl ⟨rfl, rfl⟩)))
  | badReference hi => exact .inr (.inr (.inr (.inr ⟨hi, rfl⟩)))
  | _ => exact .inl herr

/-- Of the four token classes LIT has no offset to check (44_reconstructor.md R177, R178, R182, R183). -/
theorem token_of_invalidBackReference {i : Instr} (hi : isToken i = true) (herr : s.err = .none)
    (h : exec i s = .next t) (ht : t.err = .invalidBackReference) :
    (∃ d l x, i = .copy d l x) ∨ (∃ l x, i = .rsv0 l x) ∨ (∃ d x, i = .rsvl0 d x) := by
  cases i with
  | lit x =>
    cases h
    cases herr.symm.trans ht
  | copy d l x => exact .inl ⟨d, l, x, rfl⟩
  | rsv0 l x => exact .inr (.inl ⟨l, x, rfl⟩)
  | rsvl0 d x => exact .inr (.inr ⟨d, x, rfl⟩)
  | _ => cases hi

/-- Settles O44: the effects name the error of each instruction, and LIT is no raiser of the tokens' one. -/
theorem eachErrorHasItsRaisers : Obligations.EachErrorHasItsRaisers := by
  refine ⟨⟨rfl, rfl, rfl, rfl, rfl⟩, fun i s t herr h => ?_⟩
  obtain he | ⟨rfl, he⟩ | ⟨rfl, he⟩ | ⟨rfl, he⟩ | ⟨hi, he⟩ := (exec_effect h).err_cases herr
  · simp [he]
  · simp [he]
  · simp [he]
  · simp [he]
  · have htoken := token_of_invalidBackReference hi herr h he
    simpa [he] using htoken

/-! ### The length of a container -/

/-- TOKDES on a length that is no container's (42_token_codec.md R145). -/
theorem step_tokdes_raise (hin : s.inbox = []) (hst : s.stage = .tokdes)
    (hbad : ¬ (s.opLen % 6 = 0 ∨ s.opLen % 6 = 5)) :
    step s = .next (raise .malformedContainer (ingestWords s)) := by
  have he : exec .tokdes s = .next (raise .malformedContainer (ingestWords s)) :=
    if_pos (mt (ingestWords_nwords_mod_iff s).mp hbad)
  exact (step_of_inbox_nil hin).trans ((engineStep_tokdes hst).trans (thenStage_raise he (by simp)))

/-- TOKDES on any other length (42_token_codec.md R144, R145). -/
theorem step_tokdes_next (hin : s.inbox = []) (hst : s.stage = .tokdes) (hb : s.status = .busy)
    (hgood : s.opLen % 6 = 0 ∨ s.opLen % 6 = 5) :
    step s = .next { ingestWords s with m := (ingestWords s).nwords / 3, stage := .degroup } := by
  have he : exec .tokdes s = .next { ingestWords s with m := (ingestWords s).nwords / 3 } :=
    if_neg (not_not.mpr ((ingestWords_nwords_mod_iff s).mpr hgood))
  exact (step_of_inbox_nil hin).trans ((engineStep_tokdes hst).trans (thenStage_of he hb))

/-- DEGROUP of an empty stream (43_degrouper.md R161). -/
theorem step_degroup_raise (hin : s.inbox = []) (hst : s.stage = .degroup) (hm : s.m = 0) :
    step s = .next (raise .irregularTokenStream s) :=
  (step_of_inbox_nil hin).trans ((engineStep_degroup hst).trans (thenStage_raise (execDegroup_raise hm) (by simp)))

theorem Decoding.opLen_eq (h : Decoding input s) : s.opLen = input.length := by
  rw [← inputBytes_length, h.input_eq]

/-- A container with a word in it has a token, once its words are whole triples (42_token_codec.md R145). -/
theorem Decoding.m_ne_zero (h : Decoding input s) (hne : input ≠ []) (hst : s.stage = .degroup) : s.m ≠ 0 := by
  have ⟨_, hok⟩ := h.ready
  simp only [StageOk, hst] at hok
  obtain ⟨hwords, -⟩ := hok
  have hlen : (input.length + 1) / 2 = 3 * s.m := by
    rw [← symbolsOf_length, ← h.words (by simp [hst]), hwords.length_eq.1]
  have hpos := List.length_pos_iff.mpr hne
  omega

/-- No error, or one of a token. -/
def NoContainerError (s : State) : Prop := s.err = .none ∨ s.err = .invalidBackReference

/-- By the stage: with such a length TOKDES and DEGROUP go on, and of the stages after them the tokens alone raise. -/
theorem Decoding.noContainerError_of_step (h : Decoding input s) (hne : input ≠ [])
    (hgood : input.length % 6 = 0 ∨ input.length % 6 = 5) (herr : NoContainerError s) (ht : step s = .next t) :
    NoContainerError t := by
  have ⟨hout, hok⟩ := h.ready
  have he := (step_of_inbox_nil h.inbox).symm.trans ht
  have busy (hst : s.stage ≠ .idle) : s.status = .busy := (hout.of_stage hst).1
  have hok' := hok
  unfold StageOk at hok'
  cases hst : s.stage with
  | idle =>
    cases (engineStep_idle hst).symm.trans he
    exact herr
  | symrd | matching | serializing => simp [hst, SymbolsIn, h.cmd] at hok'
  | tokdes =>
    cases (step_tokdes_next h.inbox hst (busy (by simp [hst])) (h.opLen_eq ▸ hgood)).symm.trans ht
    exact herr
  | degroup =>
    simp only [hst] at hok'
    obtain ⟨hwords, -⟩ := hok'
    have hnext := execDegroup_next (h.m_ne_zero hne hst) hwords.length_eq.1
    cases ((engineStep_degroup hst).trans (thenStage_of hnext (busy (by simp [hst])))).symm.trans he
    exact herr
  | reconstruct =>
    rw [engineStep_reconstruct hst] at he
    split at he
    · next htpc =>
      obtain ⟨-, -, hsame, -⟩ | ⟨u, rfl⟩ := reconstruct_step hst (busy (by simp [hst])) hok htpc he
      · unfold NoContainerError
        rwa [hsame]
      · exact .inr rfl
    · cases he
      exact herr
  | symwr =>
    simp only [hst] at hok'
    obtain ⟨-, -, -, -, hn, -⟩ := hok'
    cases ((engineStep_symwr hst).trans (thenStage_of (execSymwr_next hn) (busy (by simp [hst])))).symm.trans he
    exact herr
  | closing =>
    cases (engineStep_closing hst).symm.trans he
    exact herr

/-- Settles O45: TOKDES checks the length and DEGROUP the token count, both before the first token. -/
theorem decodeErrorsFollowPriority : Obligations.DecodeErrorsFollowPriority := by
  intro s input odd hb
  have hstart := decoding_acceptDecode input odd s
  have hlen := hstart.opLen_eq
  have haccept := step_hostCommand_decode (input := input) (odd := odd) hb
  refine ⟨fun hbad => ?_, fun hnil => ?_, fun hne hgood k t hk ht => ?_⟩
  · have htokdes := step_tokdes_raise hstart.inbox rfl (hlen ▸ hbad)
    exact ⟨_, (runSteps_succ 1 haccept).trans (runSteps_succ 0 htokdes), rfl, rfl, rfl, rfl⟩
  · subst hnil
    have htokdes := step_tokdes_next hstart.inbox rfl rfl (.inl rfl)
    have hm : (ingestWords (acceptDecode (hostSetup [] odd s))).nwords / 3 = 0 := by
      rw [ingestWords_nwords_eq, hlen]
      rfl
    have hdegroup := step_degroup_raise (hstart.of_step htokdes).inbox rfl hm
    exact ⟨_, (runSteps_succ 2 haccept).trans ((runSteps_succ 1 htokdes).trans (runSteps_succ 0 hdegroup)),
      rfl, rfl, rfl, rfl⟩
  · obtain ⟨k, rfl⟩ := Nat.exists_eq_add_of_le' hk
    rw [runSteps_succ k haccept] at ht
    exact (runSteps_keeps (P := fun u => Decoding input u ∧ NoContainerError u)
      (fun ⟨hu, herr⟩ hv => ⟨hu.of_step hv, hu.noContainerError_of_step hne hgood herr hv⟩)
      ⟨hstart, .inl rfl⟩ ht).2

end Sys2Proof.Machine
end

section
/-! How long an operation in progress can last (70_reset_and_hazards.md R278): `stepsLeft` against the length of the
input, and what an operation ends in. -/

namespace Sys2Proof.Machine

variable {s t : State}

theorem SymbolsIn.nsym_eq (h : SymbolsIn s) : s.nsym = (s.opLen + 1) / 2 := by
  obtain ⟨-, hsym, hlen⟩ := h
  rw [hlen, hsym, symbolsOf_length, inputBytes_length]

theorem WordsIn.three_mul_m_eq (h : WordsIn s) : 3 * s.m = (s.opLen + 1) / 2 := by
  obtain ⟨hlen, -⟩ := h.length_eq
  obtain ⟨-, hsym, -⟩ := h
  rw [← hlen, hsym, symbolsOf_length, inputBytes_length]

/-- Each token of a stream appends at least its literal (44_reconstructor.md R177, R180). -/
theorem length_le_of_replay_nil {ts : List Token} {outs : List Symbol} (h : replay [] ts = some outs) :
    ts.length ≤ outs.length := by
  obtain ⟨hlen, -⟩ := replay_length h
  calc ts.length = (ts.map (fun t => t.len + 1)).length := List.length_map _ |>.symm
    _ ≤ (ts.map (fun t => t.len + 1)).sum := List.length_le_sum_of_one_le _ (by simp)
    _ = outs.length := by simp [hlen]

/-- By the stage: an ENCODE takes at most two steps for each symbol, of which there are half as many as bytes, and a
DECODE one for each token, which is six bytes. -/
theorem StageReady.stepsLeft_le (h : StageReady s) : stepsLeft s ≤ s.opLen + 6 := by
  obtain ⟨-, hok⟩ := h
  unfold StageOk at hok
  unfold stepsLeft
  cases hst : s.stage with
  | idle | symwr | closing => simp
  | symrd | tokdes =>
    simp only [symbolsOf_length, inputBytes_length]
    omega
  | matching =>
    simp only [hst] at hok ⊢
    obtain ⟨hsym, hpos, -, -, -, -, hrep⟩ := hok
    have hq := length_le_of_replay_nil hrep
    have hnsym := hsym.nsym_eq
    rw [List.length_take] at hq
    omega
  | serializing =>
    simp only [hst] at hok ⊢
    obtain ⟨hsym, -, written, -, -, -, hrep⟩ := hok
    have hq := length_le_of_replay_nil hrep
    have hnsym := hsym.nsym_eq
    obtain ⟨-, -, hlen⟩ := hsym
    rw [List.length_append] at hq
    omega
  | degroup | reconstruct =>
    simp only [hst] at hok ⊢
    obtain ⟨hwords, -⟩ := hok
    have hm := hwords.three_mul_m_eq
    omega

/-- No step of the engine takes a BUSY engine to IDLE (10_state.md R32). -/
theorem engineStep_status_ne_idle (hb : s.status = .busy) (ht : engineStep s = .next t) : t.status ≠ .idle := by
  obtain h | ⟨h, -⟩ | ⟨h, -⟩ := (engineStep_eq_next ht).status_of_busy hb <;> simp [h]

theorem Unattended.status_ne_idle_of_step (h : Unattended s) (hs : s.status ≠ .idle) (ht : step s = .next t) :
    t.status ≠ .idle := by
  have he := h.engineStep_eq ht
  by_cases hst : s.stage = .idle
  · cases (engineStep_idle hst).symm.trans he
    exact hs
  · exact engineStep_status_ne_idle (h.busy hst) he

/-- Between operations an engine that is not IDLE shows the outcome of the last one. -/
theorem StageReady.done_or_failed (h : StageReady s) (hst : s.stage = .idle) (hs : s.status ≠ .idle) :
    s.status = .done ∨ s.status = .failed := by
  obtain ⟨⟨hbusy, -⟩, -⟩ := h
  cases hstatus : s.status with
  | idle => exact absurd hstatus hs
  | busy => exact absurd hst (hbusy.mp hstatus)
  | done => exact .inl rfl
  | failed => exact .inr rfl

end Sys2Proof.Machine
end

section
/-! The statements of the reset and hazards family (70_reset_and_hazards.md). -/

namespace Sys2Proof.Machine

variable {s t : State}

/-! ### Progress -/

theorem StageReady.engineStep_total (h : StageReady s) : ∃ t, engineStep s = .next t := by
  by_cases hst : s.stage = .idle
  · exact ⟨s, engineStep_idle hst⟩
  · obtain ⟨t, ht, -⟩ := h.engineStep_progress hst
    exact ⟨t, ht⟩

/-- Every command value is accepted or ignored, the capacity being unbounded (45_operations.md R207). -/
theorem exec_decodeCommand_total (code : BitVec 2) (s : State) : ∃ t, exec (decodeCommand code) s = .next t := by
  by_cases hb : s.status = .busy
  · exact ⟨s, exec_decodeCommand_busy code hb⟩
  · unfold decodeCommand
    split
    · exact ⟨_, execEncode_accepted hb⟩
    · split
      · exact ⟨_, execDecode_accepted hb⟩
      · exact ⟨s, rfl⟩

/-- Settles O55: the engine's step has a next state in every stage, and of the host's actions the write of IBUF alone
is refused. -/
theorem invariantStatesNeverFault : Obligations.InvariantStatesNeverFault := by
  intro s hinv
  obtain ⟨-, hready⟩ := (inv_iff s).mp hinv
  cases hin : s.inbox with
  | nil =>
    rw [step_of_inbox_nil hin]
    exact .inl hready.engineStep_total
  | cons a rest =>
    rw [step_of_inbox_cons hin]
    cases a with
    | idle => exact .inl (StageReady.engineStep_total (s := { s with inbox := rest }) hready)
    | writeCmd code => exact .inl (exec_decodeCommand_total code _)
    | writeInLen | writeOddIn | writeReadOnly | reset => exact .inl ⟨_, rfl⟩
    | writeIbuf index value =>
      by_cases hb : s.status = .busy
      · exact .inr (.inl ⟨index, value, rest, rfl, hb, if_pos hb⟩)
      · exact .inl ⟨_, if_neg hb⟩

/-! ### Termination -/

/-- Settles O56: `stepsLeft` bounds the run to the idle stage, and no step on the way leads to IDLE. -/
theorem everyOperationTerminates : Obligations.EveryOperationTerminates := by
  intro s hinv hb hin
  obtain ⟨-, hready⟩ := (inv_iff s).mp hinv
  have hstart : Unattended s := ⟨hin, hready⟩
  obtain ⟨k, t, hk, hrun, hidle⟩ := hstart.reaches_idle
  obtain ⟨hend, hstatus⟩ := runSteps_keeps (P := fun u => Unattended u ∧ u.status ≠ .idle)
    (fun ⟨hu, hne⟩ hv => ⟨hu.of_step hv, hu.status_ne_idle_of_step hne hv⟩) ⟨hstart, by simp [hb]⟩ hrun
  exact ⟨k, t, hk.trans hready.stepsLeft_le, hrun, hend.ready.done_or_failed hidle hstatus⟩

/-! ### Reset -/

/-- Of the host's actions the reset event alone takes a BUSY engine to IDLE. -/
theorem eq_reset_of_hostStep_idle {a : HostAct} (hb : s.status = .busy) (ht : hostStep a s = .next t)
    (hidle : t.status = .idle) : a = .reset := by
  cases a with
  | idle => exact absurd hidle (engineStep_status_ne_idle hb ht)
  | writeCmd code =>
    cases (exec_decodeCommand_busy code hb).symm.trans ht
    simp [hb] at hidle
  | writeInLen | writeOddIn | writeReadOnly =>
    cases ht
    simp [hb] at hidle
  | writeIbuf index value => cases (if_pos hb).symm.trans ht
  | reset => rfl

/-- Settles O48: the reset event writes the reset column whatever the state, and the engine's own steps end an operation
in DONE or FAILED. -/
theorem resetEndsAnyOperation : Obligations.ResetEndsAnyOperation := by
  refine ⟨fun s rest hin => ?_, fun s t hb ht hidle => ?_⟩
  · exact ⟨_, step_of_inbox_cons hin, rfl, rfl, rfl, rfl, rfl, rfl, rfl, rfl, rfl, rfl, rfl⟩
  · cases hin : s.inbox with
    | nil => exact absurd hidle (engineStep_status_ne_idle hb ((step_of_inbox_nil hin).symm.trans ht))
    | cons a rest =>
      have ha := eq_reset_of_hostStep_idle (s := { s with inbox := rest }) hb
        ((step_of_inbox_cons hin).symm.trans ht) hidle
      exact ⟨rest, by rw [ha]⟩

/-! ### Acceptance -/

/-- Settles O20: each field of `acceptEncode` is the one R261 and R41 give, or a free value. -/
theorem encodeAcceptanceInitialises : Obligations.EncodeAcceptanceInitialises :=
  fun s hb _ => ⟨acceptEncode s, execEncode_accepted hb, rfl⟩

/-- Settles O21: each field of `acceptDecode` is the one R261 and R41 give, or a free value; ODD_OUT is none of them. -/
theorem decodeAcceptanceInitialises : Obligations.DecodeAcceptanceInitialises :=
  fun s hb _ => ⟨acceptDecode s, execDecode_accepted hb, rfl⟩

end Sys2Proof.Machine
end
